-- ==== Sys2Proof/Word.lean ====
section
/-! DEFINITION. The words of the block, each at the width the spec gives it
(10_state.md section 1; 00_scope.md R4). All values are unsigned (00_scope.md R6). -/

namespace Sys2Proof

/-- One byte: an input byte, an output byte, a window slot. -/
abbrev Byte := BitVec 8

/-- A dictionary address: ADDR_W = 13 bits (00_scope.md R4). -/
abbrev Addr := BitVec 13

/-- A key of the MatchIndex: KEY_W = 16 bits (42_matchindex.md R100). -/
abbrev Key := BitVec 16

/-- The 5-bit counters `waiting_bytes`, `best_len` and `remaining` (10_state.md R22, R27). -/
abbrev Count := BitVec 5

/-- The length field of a match entry: LEN_W = 4 bits (30_encoding.md R62). -/
abbrev LenField := BitVec 4

/-- An operation word: the 4-bit number of 30_encoding.md R69, and the operands above it.
DESIGN CHOICE: the width of 40 bits and the places of the operands (log 3). -/
abbrev OpWord := BitVec 40

end Sys2Proof
end

