-- ==== Sys2Proof/Config.lean ====
section
/-! DEFINITION. The parameters of 00_scope.md R4 and the free values, which nothing constrains. -/

namespace Sys2Proof

/-- N_DICT: byte slots of the window. -/
abbrev Config.nDict : Nat := 8192

/-- N_HASH: buckets of the hash table. -/
abbrev Config.nHash : Nat := 65536

/-- MAX_MATCH: longest match, and the size of the lookahead. -/
abbrev Config.maxMatch : Nat := 18

/-- MIN_MATCH: shortest match, the bias of the length field. -/
abbrev Config.minMatch : Nat := 3

/-- CHAIN_FUEL: the bound on a chain walk (92_eei_decisions.md D25). -/
abbrev Config.chainFuel : Nat := 8191

/-- HEAD_INIT: `dict_head` when an encode starts. -/
abbrev Config.headInit : Addr := 1

/-- NULL: the empty link, the end of a chain, the offset of the terminator. -/
abbrev Config.null : Addr := 0

/-- The fault code OUT_EXHAUSTED (60_exceptions.md R130). -/
abbrev Config.outExhausted : BitVec 2 := 1

/-- Free value: what a counter of the range 0 to 18 holds after it was counted down at 0, which
43_encoder.md R124 (d), (e) says is never performed. The n-th draw is `freeCount n` (log 15). -/
opaque Config.freeCount : Nat → Fin 19

/-- Free value: the length field EMITMATCH writes when `best_len` is below 3, which 43_encoder.md
R124 (c) says is never performed (log 16). -/
opaque Config.freeLenField : Nat → LenField

end Sys2Proof
end

