-- ==== Sys2Proof/Syntax.lean ====
section
/-! DEFINITION. The instructions: one constructor for each row of spec/opcode_table.json.
The first three are the entries of the wire format (30_encoding.md R60), the other sixteen the
operations of 30_encoding.md R69 in the order of their numbers. -/

namespace Sys2Proof

/-- The rows of the opcode table with their operands. -/
inductive Instr where
  /-- LITERAL (R61): one raw byte. -/
  | literal (b : Byte)
  /-- MATCH (R62): absolute address (not 0) and true length minus 3. -/
  | matchEntry (addr : Addr) (lenm3 : LenField)
  /-- TERM (R63): the all-zero entry. -/
  | term
  /-- START (R110), number 0. -/
  | start
  /-- PRIME (R90), number 1. -/
  | prime
  /-- BYTEAT (R91), number 2: any address, wrapped to 13 bits (operand width: log 18). -/
  | byteAt (addr : BitVec 16)
  /-- ADVANCE (R92), number 3. -/
  | advance
  /-- KEYOF (R100), number 4: any address, wrapped to 13 bits (operand width: log 18). -/
  | keyOf (addr : BitVec 16)
  /-- INSERT (R101), number 5: an address that is not 0. -/
  | insert (key : Key) (addr : Addr)
  /-- REMOVE (R102), number 6: an address that is not 0. -/
  | remove (key : Key) (addr : Addr)
  /-- CHAINFROM (R103), number 7. -/
  | chainFrom (key : Key)
  /-- MATCHLEN (R111), number 8: a candidate address. -/
  | matchLen (c : Addr)
  /-- SEARCH (R112), number 9. -/
  | search
  /-- WRITEBIT (R80), number 10. -/
  | writeBit (b : Bool)
  /-- WRITEBITS (R81), number 11: a count of 0 to 16 and a value (operand width: log 18). -/
  | writeBits (n : BitVec 5) (value : BitVec 16)
  /-- FINISH (R82), number 12. -/
  | finish
  /-- EMITLIT (R116), number 13. -/
  | emitLit
  /-- EMITMATCH (R117), number 14. -/
  | emitMatch
  /-- EMITTERM (R119), number 15. -/
  | emitTerm
  deriving DecidableEq, Repr

/-- What an instruction is written as: an entry is the sequence of its bits in the order they are
emitted (30_encoding.md section 1); an operation is an operation word (R69, log 3). -/
inductive Image where
  | entry (bits : List Bool)
  | op (word : OpWord)
  deriving DecidableEq, Repr

end Sys2Proof
end

