-- ==== Sys2Proof/WellFormed.lean ====
section
/-! DEFINITION. The operands the spec admits. An instruction that is not well formed has no image
that decodes to it, and its meaning is a refusal by name (log 17). -/

namespace Sys2Proof

/-- The operand conditions of the rules: a match entry's address is not 0 (30_encoding.md R62, R67),
INSERT and REMOVE take an address that is not 0 (42_matchindex.md R101, R102), WRITEBITS takes a
count of 0 to 16 (40_bitwriter.md R81, 93_implementation_defined.md U12). -/
def Instr.wf : Instr → Bool
  | .matchEntry addr _ => addr != 0
  | .insert _ addr => addr != 0
  | .remove _ addr => addr != 0
  | .writeBits n _ => decide (n.toNat ≤ 16)
  | .literal _ => true
  | .term => true
  | .start => true
  | .prime => true
  | .byteAt _ => true
  | .advance => true
  | .keyOf _ => true
  | .chainFrom _ => true
  | .matchLen _ => true
  | .search => true
  | .writeBit _ => true
  | .finish => true
  | .emitLit => true
  | .emitMatch => true
  | .emitTerm => true

end Sys2Proof
end

