-- ==== Sys2Proof/Decode.lean ====
section
/-! DEFINITION. The decoder and the encoder of both kinds of image. Entries: 30_encoding.md R60 to
R68. Operation words: the number is R69's, the places of the operands are this model's (log 3).
The block itself decodes nothing (30_encoding.md R67); the decoder reads what the block emits and
the operation words presented to `issue`. -/

namespace Sys2Proof

/-- Why an image is refused. -/
inductive DecodeError where
  /-- Fewer bits than the first bit asks for (R68). -/
  | truncated
  /-- Bits left over after one entry. -/
  | trailingBits
  /-- Address field 0 with a length field that is not 0 (R67, D29; log 17). -/
  | reservedEntry
  /-- Bits 7 to 4 of an operation word are not 0 (log 3). -/
  | reservedBits
  /-- A bit outside the operand fields of the operation is not 0 (log 3). -/
  | strayOperand
  /-- The address field stands for address 0, which INSERT and REMOVE do not take. -/
  | sentinelAddress
  /-- WRITEBITS with a count above 16 (U12). -/
  | countOutOfRange
  deriving DecidableEq, Repr

/-- The low `n` bits of a number, most significant first: the order of WRITEBITS (40_bitwriter.md
R81) and of every field of an entry (20_memory.md R43). -/
def msbBits : Nat → Nat → List Bool
  | 0, _ => []
  | n + 1, v => v.testBit n :: msbBits n v

/-- The number whose bits, most significant first, are the list. -/
def bitsValue : List Bool → Nat
  | [] => 0
  | b :: bs => b.toNat * 2 ^ bs.length + bitsValue bs

/-- The stream bits of a byte, bit 7 first (20_memory.md R43). -/
def byteBits (b : Byte) : List Bool :=
  msbBits 8 b.toNat

/-- The stream bits of a byte sequence. -/
def bitsOfBytes (bytes : List Byte) : List Bool :=
  bytes.flatMap byteBits

/-- The 17 bits behind a flag bit 0: 13 of address, 4 of length (R62), the terminator tested first
(R63, R72). -/
def decodeLong (bits : List Bool) : Except DecodeError (Instr × List Bool) :=
  let addr := bitsValue (bits.take 13)
  let lenm3 := bitsValue ((bits.drop 13).take 4)
  if bits.length < 17 then .error .truncated
  else if addr = 0 then
    if lenm3 = 0 then .ok (.term, bits.drop 17) else .error .reservedEntry
  else .ok (.matchEntry (BitVec.ofNat 13 addr) (BitVec.ofNat 4 lenm3), bits.drop 17)

/-- One entry from the front of a stream, with the bits behind it. The first bit tells the length
(R68). -/
def decodeEntry : List Bool → Except DecodeError (Instr × List Bool)
  | [] => .error .truncated
  | true :: bits =>
    if bits.length < 8 then .error .truncated
    else .ok (.literal (BitVec.ofNat 8 (bitsValue (bits.take 8))), bits.drop 8)
  | false :: bits => decodeLong bits

/-- The entries of a stream up to and including the terminator, and the bits behind it, which are
padding (R65, R68). `fuel` bounds the number of entries. -/
def decodeStream : Nat → List Bool → Except DecodeError (List Instr × List Bool)
  | 0, _ => .error .truncated
  | fuel + 1, bits =>
    match decodeEntry bits with
    | .error e => .error e
    | .ok (.term, rest) => .ok ([.term], rest)
    | .ok (i, rest) =>
      match decodeStream fuel rest with
      | .error e => .error e
      | .ok (is, pad) => .ok (i :: is, pad)

/-- An operation without operands: every operand bit is 0. -/
def decodePlain (i : Instr) (x : Nat) : Except DecodeError Instr :=
  if x = 0 then .ok i else .error .strayOperand

/-- An operation with one operand field of `width` bits. -/
def decodeField (width x : Nat) (make : Nat → Instr) : Except DecodeError Instr :=
  if x < 2 ^ width then .ok (make x) else .error .strayOperand

/-- The operands of INSERT and REMOVE: a 16-bit key, and above it the address minus 1, since the
address is not 0 (log 3). -/
def decodeKeyAddr (x : Nat) (make : Key → Addr → Instr) : Except DecodeError Instr :=
  if 2 ^ 29 ≤ x then .error .strayOperand
  else if x / 2 ^ 16 = 8191 then .error .sentinelAddress
  else .ok (make (BitVec.ofNat 16 x) (BitVec.ofNat 13 (x / 2 ^ 16 + 1)))

/-- The operands of WRITEBITS: a 5-bit count, and above it the 16-bit value (log 3). -/
def decodeCountValue (x : Nat) : Except DecodeError Instr :=
  if 2 ^ 21 ≤ x then .error .strayOperand
  else if 16 < x % 2 ^ 5 then .error .countOutOfRange
  else .ok (.writeBits (BitVec.ofNat 5 x) (BitVec.ofNat 16 (x / 2 ^ 5)))

/-- The operation of a number (R69) with the operand bits `x` of its word. -/
def decodeNumber (number x : Nat) : Except DecodeError Instr :=
  match number with
  | 0 => decodePlain .start x
  | 1 => decodePlain .prime x
  | 2 => decodeField 16 x fun v => .byteAt (BitVec.ofNat 16 v)
  | 3 => decodePlain .advance x
  | 4 => decodeField 16 x fun v => .keyOf (BitVec.ofNat 16 v)
  | 5 => decodeKeyAddr x .insert
  | 6 => decodeKeyAddr x .remove
  | 7 => decodeField 16 x fun v => .chainFrom (BitVec.ofNat 16 v)
  | 8 => decodeField 13 x fun v => .matchLen (BitVec.ofNat 13 v)
  | 9 => decodePlain .search x
  | 10 => decodeField 1 x fun v => .writeBit (v == 1)
  | 11 => decodeCountValue x
  | 12 => decodePlain .finish x
  | 13 => decodePlain .emitLit x
  | 14 => decodePlain .emitMatch x
  | 15 => decodePlain .emitTerm x
  | _ => .error .reservedBits

/-- An operation word: bits 3 to 0 the number (R69), bits 7 to 4 zero, the operands above. -/
def decodeOp (word : OpWord) : Except DecodeError Instr :=
  if word.toNat / 16 % 16 = 0 then decodeNumber (word.toNat % 16) (word.toNat / 256)
  else .error .reservedBits

/-- The decoder: total, refusing by name. -/
def decode : Image → Except DecodeError Instr
  | .entry bits =>
    match decodeEntry bits with
    | .error e => .error e
    | .ok (i, []) => .ok i
    | .ok (_, _ :: _) => .error .trailingBits
  | .op word => decodeOp word

/-- The bits of a literal entry (R61): flag 1, then the byte, bit 7 first. -/
def literalBits (b : Byte) : List Bool :=
  true :: msbBits 8 b.toNat

/-- The bits of a match entry (R62): flag 0, the address from bit 12, the length field from bit 3. -/
def matchBits (addr : Addr) (lenm3 : LenField) : List Bool :=
  false :: (msbBits 13 addr.toNat ++ msbBits 4 lenm3.toNat)

/-- The operation word with this number and these operand bits. -/
def opWord (number x : Nat) : OpWord :=
  BitVec.ofNat 40 (number + 256 * x)

/-- The operand bits of INSERT and REMOVE (log 3). -/
def keyAddrBits (key : Key) (addr : Addr) : Nat :=
  key.toNat + 2 ^ 16 * (addr - 1).toNat

/-- The encoder: the image of an instruction. -/
def encode : Instr → Image
  | .literal b => .entry (literalBits b)
  | .matchEntry addr lenm3 => .entry (matchBits addr lenm3)
  | .term => .entry (matchBits 0 0)
  | .start => .op (opWord 0 0)
  | .prime => .op (opWord 1 0)
  | .byteAt addr => .op (opWord 2 addr.toNat)
  | .advance => .op (opWord 3 0)
  | .keyOf addr => .op (opWord 4 addr.toNat)
  | .insert key addr => .op (opWord 5 (keyAddrBits key addr))
  | .remove key addr => .op (opWord 6 (keyAddrBits key addr))
  | .chainFrom key => .op (opWord 7 key.toNat)
  | .matchLen c => .op (opWord 8 c.toNat)
  | .search => .op (opWord 9 0)
  | .writeBit b => .op (opWord 10 b.toNat)
  | .writeBits n value => .op (opWord 11 (n.toNat + 2 ^ 5 * value.toNat))
  | .finish => .op (opWord 12 0)
  | .emitLit => .op (opWord 13 0)
  | .emitMatch => .op (opWord 14 0)
  | .emitTerm => .op (opWord 15 0)

/-- The stream bits of an entry; an operation has none. -/
def entryBits (i : Instr) : List Bool :=
  match encode i with
  | .entry bits => bits
  | .op _ => []

/-- The image of the word `w` of a table row of `nbits` bits, in whole bytes, numbered as
30_encoding.md R72 numbers it: an operation row takes one byte; an entry row of 9 bits takes two
bytes and one of 18 bits three, its first emitted bit being its most significant. A word with a bit
above the row's own is laid out at the full `nbits`, which the decoder refuses (log 24). -/
def tableImage (nbits w : Nat) : Image :=
  if nbits ≤ 8 then .op (BitVec.ofNat 40 w)
  else
    let width := if nbits ≤ 16 then 9 else 18
    .entry (msbBits (if w < 2 ^ width then width else nbits) w)

/-- What the decoder reads from a table row's word. -/
def decodeTableWord (nbits w : Nat) : Option Instr :=
  match decode (tableImage nbits w) with
  | .ok i => some i
  | .error _ => none

end Sys2Proof
end

