-- ==== Sys2Proof/Machine/State.lean ====
section
/-! DEFINITION. The state of the block, of its environment, and the values after power-on reset
(10_state.md; 70_reset_and_hazards.md R150). Plain data throughout. -/

namespace Sys2Proof.Machine

/-- Reasons for the host's outcome `fault`: there is none. The block's one fault, OUT_EXHAUSTED, is
a NEXT state whose phase is FAULT (60_exceptions.md R135, R136), and nothing else stops the block
(R131); no definition of the model raises a fault (log 23). -/
inductive Fault where
  deriving DecidableEq, Repr

/-- Reasons for the host's outcome `refused`. All are safe: the model stops where the spec gives the
instruction no effect. -/
inductive Refusal where
  /-- Raised by `exec` alone, for an instruction without a meaning; no arm does. Safe. -/
  | notModelled (mnemonic : String)
  /-- Raised by a step whose issue word decodes to no operation (log 2, log 3). Safe. -/
  | undecodable (e : DecodeError)
  /-- Raised by MATCH with address 0, a pattern the spec gives no meaning (30_encoding.md R67; log 17). Safe. -/
  | reservedEntry
  /-- Raised by INSERT and REMOVE of address 0, which is no operand of theirs (42_matchindex.md
  R101, R102; log 17). Safe. -/
  | sentinelOperand
  /-- Raised by WRITEBITS with a count above 16, outside its domain (93_implementation_defined.md
  U12; log 17). Safe. -/
  | countOutOfRange
  deriving DecidableEq, Repr

/-- The sequencer register `phase` (10_state.md R28). -/
inductive Phase where
  | idle
  | prime
  | search
  | emit
  | maintain
  | terminate
  | done
  | fault
  deriving DecidableEq, Repr

/-- What a directly issued operation that answers a value has answered (log 5). -/
inductive Result where
  | none
  /-- BYTEAT (R91). -/
  | byte (b : Byte)
  /-- KEYOF (R100). -/
  | key (k : Key)
  /-- CHAINFROM (R103). -/
  | chain (members : List Addr)
  /-- MATCHLEN (R111). -/
  | length (n : Count)
  deriving DecidableEq, Repr

/-- A `start` request with the fresh source and the sink capacity of the encode (60_exceptions.md
R138; 10_state.md R37; log 9). -/
structure StartRequest where
  src : List Byte
  outCap : Option Nat
  deriving DecidableEq, Repr

/-- What the input ports carry during one step (10_state.md R38; log 9, log 11). -/
structure PortInput where
  /-- The port `reset`. -/
  reset : Bool
  /-- The port `start`. -/
  start : Option StartRequest
  /-- `src_ans` stays at 'none yet' during this step. -/
  srcHold : Bool
  /-- `snk_ans` stays at 'none yet' during this step. -/
  snkHold : Bool
  deriving DecidableEq, Repr

/-- No request, and both ports answer. -/
abbrev PortInput.quiet : PortInput :=
  { reset := false, start := Option.none, srcHold := false, snkHold := false }

/-- A memory: pairs of an index and an entry, strictly rising, with no entry equal to what an
unlisted index reads as. At width 8 it is a list of `Host.Cell`. -/
abbrev Memory (w : Nat) := List (Nat × BitVec w)

/-- The block and its environment. -/
structure State where
  /-- `W` (R20). -/
  window : Memory 8
  /-- `dict_head` (R21). -/
  dictHead : Addr
  /-- `waiting_bytes` (R22). -/
  waitingBytes : Count
  /-- `hash` (R23). -/
  hash : Memory 13
  /-- `prev` (R24). -/
  prev : Memory 13
  /-- `next` (R24). -/
  next : Memory 13
  /-- `acc` (R25). -/
  acc : Byte
  /-- `nbits` (R25). -/
  nbits : BitVec 3
  /-- `out_len` (R26), unbounded (D26). -/
  outLen : Nat
  /-- `best_len` (R27). -/
  bestLen : Count
  /-- `best_addr` (R27). -/
  bestAddr : Addr
  /-- `remaining` (R27). -/
  remaining : Count
  /-- `phase` (R28). -/
  phase : Phase
  /-- `fault_code` (R29). -/
  faultCode : BitVec 2
  /-- Port `src_req` (R38). -/
  srcReq : Bool
  /-- Port `snk_req` (R38). -/
  snkReq : Bool
  /-- Port `snk_byte` (R38; log 12). -/
  snkByte : Byte
  /-- Environment: the bytes the source has still to deliver (R30). -/
  src : List Byte
  /-- Environment: the bytes pushed since START (R26). -/
  out : List Byte
  /-- Environment: OUT_CAP, absent by default (00_scope.md R4). -/
  outCap : Option Nat
  /-- Environment: what the input ports carry in the steps to come (log 9). -/
  inputs : List PortInput
  /-- The model's own: an operation word presented to the control lines (log 2). -/
  issue : Option Image
  /-- The model's own: the last answer of a directly issued operation (log 5). -/
  result : Result
  /-- The model's own: how many free values have been drawn (log 25). -/
  freeIndex : Nat
  deriving DecidableEq, Repr

/-- After power-on reset: `phase`, `fault_code`, `src_req` and `snk_req` as 70_reset_and_hazards.md
R150 says. Every other value is unspecified there and named by log 6, log 7, log 12, log 20, log 25. -/
def State.reset : State where
  window := []
  dictHead := 0
  waitingBytes := 0
  hash := []
  prev := []
  next := []
  acc := 0
  nbits := 0
  outLen := 0
  bestLen := 0
  bestAddr := 0
  remaining := 0
  phase := .idle
  faultCode := 0
  srcReq := false
  snkReq := false
  snkByte := 0
  src := []
  out := []
  outCap := Option.none
  inputs := []
  issue := Option.none
  result := .none
  freeIndex := 0

end Sys2Proof.Machine
end

