-- ==== Sys2Proof/Machine/Flags.lean ====
section
/-! DEFINITION. The status outputs (10_state.md R29) and the codes of `phase` (R28). No operation
writes a flag as a side effect: the flags are read off `phase`. -/

namespace Sys2Proof.Machine

/-- The 3-bit code of a phase (10_state.md R28). -/
def Phase.code : Phase → BitVec 3
  | .idle => 0
  | .prime => 1
  | .search => 2
  | .emit => 3
  | .maintain => 4
  | .terminate => 5
  | .done => 6
  | .fault => 7

/-- `busy` (R29). -/
def State.busy (s : State) : Bool :=
  match s.phase with
  | .prime | .search | .emit | .maintain | .terminate => true
  | .idle | .done | .fault => false

/-- `done` (R29). -/
def State.done (s : State) : Bool :=
  s.phase == .done

/-- `fault` (R29). -/
def State.fault (s : State) : Bool :=
  s.phase == .fault

end Sys2Proof.Machine
end

