-- ==== Sys2Proof/Machine/Operands.lean ====
section
/-! DEFINITION. Operand forms: window addresses, the length field, bits of a value. -/

namespace Sys2Proof.Machine

/-- `wrap(a) = a mod 8192` for every natural (00_scope.md R8). -/
def wrap (a : Nat) : Addr :=
  BitVec.ofNat 13 a

/-- The window address `a + i`, carry out of bit 12 dropped (20_memory.md R41; 43_encoder.md R124 (a)). -/
def slotAt (a : Addr) (i : Nat) : Addr :=
  wrap (a.toNat + i)

/-- The bit `b` placed below `nbits` bits already in a byte: `b << (7 - nbits)` (40_bitwriter.md R80). -/
def bitBelow (b : Bool) (nbits : BitVec 3) : Byte :=
  BitVec.ofNat 8 (b.toNat <<< (7 - nbits.toNat))

/-- The length field of a true length of 3 to 18 (30_encoding.md R64). -/
def lenFieldOf (len : Count) : LenField :=
  (len - 3).truncate 4

/-- The true length a length field stands for (30_encoding.md R64). -/
def trueLength (f : LenField) : Nat :=
  f.toNat + Config.minMatch

end Sys2Proof.Machine
end

