-- ==== Sys2Proof/Machine/Ops.lean ====
section
/-! DEFINITION. The operations the meanings share: the memories, the two ports, fault entry, and the
operations that other operations call. -/

namespace Sys2Proof.Machine

/-! ### Memories (20_memory.md R40, R50) -/

/-- What an unlisted entry reads as: 0, which START makes every entry (10_state.md R35), and which
the model also takes after power-on (log 7). -/
def Memory.unlisted (w : Nat) : BitVec w :=
  0

/-- Canonical form: indices strictly rising and below the number of entries, and no entry that reads
as an unlisted one does. -/
abbrev Memory.wf {w : Nat} (entries : Nat) (m : Memory w) : Prop :=
  m.Pairwise (fun c d => c.1 < d.1) ∧ ∀ c ∈ m, c.1 < entries ∧ c.2 ≠ Memory.unlisted w

/-- The entry at an index. -/
def Memory.read {w : Nat} : Memory w → Nat → BitVec w
  | [], _ => Memory.unlisted w
  | (k, v) :: rest, a => if k = a then v else Memory.read rest a

/-- The memory without an entry at the index. -/
def Memory.erase {w : Nat} (m : Memory w) (a : Nat) : Memory w :=
  m.filter fun c => c.1 != a

/-- The entry put before the first one with a larger index. -/
def Memory.place {w : Nat} : Memory w → Nat → BitVec w → Memory w
  | [], a, v => [(a, v)]
  | (k, x) :: rest, a, v =>
    if a < k then (a, v) :: (k, x) :: rest else (k, x) :: Memory.place rest a v

/-- The memory with `v` at the index, in canonical form. -/
def Memory.write {w : Nat} (m : Memory w) (a : Nat) (v : BitVec w) : Memory w :=
  if v = Memory.unlisted w then m.erase a else (m.erase a).place a v

/-- `W[a]`. -/
def State.readW (s : State) (a : Addr) : Byte :=
  s.window.read a.toNat

/-- `hash[k]`. -/
def State.readHash (s : State) (k : Key) : Addr :=
  s.hash.read k.toNat

/-- `prev[a]`. -/
def State.readPrev (s : State) (a : Addr) : Addr :=
  s.prev.read a.toNat

/-- `next[a]`. -/
def State.readNext (s : State) (a : Addr) : Addr :=
  s.next.read a.toNat

/-- `W[a] <- b`. -/
def State.writeW (s : State) (a : Addr) (b : Byte) : State :=
  { s with window := s.window.write a.toNat b }

/-- `hash[k] <- a`. -/
def State.writeHash (s : State) (k : Key) (a : Addr) : State :=
  { s with hash := s.hash.write k.toNat a }

/-- `prev[a] <- b`. -/
def State.writePrev (s : State) (a b : Addr) : State :=
  { s with prev := s.prev.write a.toNat b }

/-- `next[a] <- b`. -/
def State.writeNext (s : State) (a b : Addr) : State :=
  { s with next := s.next.write a.toNat b }

/-! ### Fault entry and free values -/

/-- `raise Fault(code)` (60_exceptions.md R135): the code and the phase, and nothing else. There is no
return from it: START and reset leave FAULT (R136). -/
def State.raiseFault (s : State) (code : BitVec 2) : State :=
  { s with faultCode := code, phase := .fault }

/-- The next free value's index is used up. -/
def State.drawFree (s : State) : State :=
  { s with freeIndex := s.freeIndex + 1 }

/-- How an operation that pushes ends: completed, or abandoned at a refused push (R135). -/
inductive Flow where
  | completed (s : State)
  | abandoned (s : State)

/-- What follows a completed part; an abandoned one is followed by nothing (R135). -/
def Flow.andThen (f : Flow) (k : State → Flow) : Flow :=
  match f with
  | .completed s => k s
  | .abandoned s => .abandoned s

/-- The state an operation leaves. -/
def Flow.state : Flow → State
  | .completed s => s
  | .abandoned s => s

/-- A step's outcome: a refused push is a next state too (R135). -/
def Flow.outcome (f : Flow) : Host.Outcome State Fault Refusal :=
  .next f.state

/-! ### Ports (20_memory.md R53) -/

/-- The sink refuses a byte when OUT_CAP bytes have been accepted (R53; log 13). -/
def State.sinkRefuses (s : State) : Bool :=
  match s.outCap with
  | none => false
  | some cap => decide (cap ≤ s.outLen)

/-- `push(b)` (40_bitwriter.md R84): the byte is offered and answered, the request is lowered. -/
def push (b : Byte) (s : State) : Flow :=
  let offered := { s with snkReq := false, snkByte := b }
  if s.sinkRefuses then .abandoned (offered.raiseFault Config.outExhausted)
  else .completed { offered with out := s.out ++ [b], outLen := s.outLen + 1 }

/-- `pull()` (41_window.md R93): the answer (`none` is EOI) and the state after it. -/
def pull (s : State) : Option Byte × State :=
  let answered := { s with srcReq := false }
  match s.src with
  | [] => (none, answered)
  | b :: rest => (some b, { answered with src := rest })

/-! ### BitWriter (40_bitwriter.md) -/

/-- WRITEBIT (R80). -/
def writeBit (b : Bool) (s : State) : Flow :=
  let t := { s with acc := s.acc ||| bitBelow b s.nbits }
  if s.nbits = 7 then (push t.acc t).andThen fun u => .completed { u with acc := 0, nbits := 0 }
  else .completed { t with nbits := s.nbits + 1 }

/-- WRITEBIT for each bit of a list, in order. -/
def writeStream : List Bool → State → Flow
  | [], s => .completed s
  | b :: bs, s => (writeBit b s).andThen (writeStream bs)

/-- WRITEBITS (R81): bits n-1 down to 0 of the value. -/
def writeField : Nat → Nat → State → Flow
  | 0, _, s => .completed s
  | n + 1, v, s => (writeBit (v.testBit n) s).andThen (writeField n v)

/-- FINISH (R82). -/
def flush (s : State) : Flow :=
  if s.nbits = 0 then .completed s
  else (push s.acc s).andThen fun u => .completed { u with acc := 0, nbits := 0 }

/-- The calls that write a literal entry (30_encoding.md R61). -/
def writeLiteral (b : Byte) (s : State) : Flow :=
  (writeBit true s).andThen (writeField 8 b.toNat)

/-- The calls that write an 18-bit entry (30_encoding.md R62, R63). -/
def writeLong (addr : Addr) (lenm3 : LenField) (s : State) : Flow :=
  ((writeBit false s).andThen (writeField 13 addr.toNat)).andThen (writeField 4 lenm3.toNat)

/-! ### DictionaryWindow and MatchIndex (41_window.md, 42_matchindex.md) -/

/-- BYTEAT (R91). -/
def State.byteAt (s : State) (addr : Nat) : Byte :=
  s.readW (wrap addr)

/-- KEYOF (R100): `{b1, b2} XOR (zext_16(b0) << 4)`. -/
def State.keyOf (s : State) (addr : Nat) : Key :=
  let b0 := s.byteAt addr
  let b1 := s.byteAt (addr + 1)
  let b2 := s.byteAt (addr + 2)
  (b1 ++ b2) ^^^ (b0.zeroExtend 16 <<< 4)

/-- INSERT (R101); the write of `prev` is suppressed when the bucket was empty (20_memory.md R54). -/
def State.insertAt (s : State) (key : Key) (addr : Addr) : State :=
  let old := s.readHash key
  let linked := (s.writeNext addr old).writePrev addr Config.null
  let back := if old = Config.null then linked else linked.writePrev old addr
  back.writeHash key addr

/-- REMOVE (R102; 92_eei_decisions.md D4). -/
def State.removeAt (s : State) (key : Key) (addr : Addr) : State :=
  let p := s.readPrev addr
  if p ≠ Config.null then s.writeNext p Config.null
  else if s.readHash key = addr then s.writeHash key Config.null
  else s

/-- The chain from `c` on, through `next`, ending before the first 0; `fuel` bounds it (D25). -/
def chainWalk (next : Memory 13) : Nat → Addr → List Addr
  | 0, _ => []
  | fuel + 1, c =>
    if c = Config.null then [] else c :: chainWalk next fuel (next.read c.toNat)

/-- CHAINFROM (R103): the members of the bucket, most recent first (log 19). -/
def State.chainFrom (s : State) (key : Key) : List Addr :=
  chainWalk s.next Config.chainFuel (s.readHash key)

/-- PRIME's loop (R90): `k` pulls left, `i` bytes stored so far. -/
def primeLoop : Nat → Nat → State → Nat × State
  | 0, i, s => (i, s)
  | k + 1, i, s =>
    match pull s with
    | (none, t) => (i, t)
    | (some b, t) => primeLoop k (i + 1) (t.writeW (slotAt s.dictHead i) b)

/-- PRIME (R90). -/
def prime (s : State) : State :=
  let r := primeLoop Config.maxMatch 0 s
  { r.2 with waitingBytes := BitVec.ofNat 5 r.1 }

/-- A 5-bit counter counted down; at 0, where the spec never performs it (43_encoder.md R124 (d), (e)),
the value is free within the counter's range 0 to 18 (log 15). -/
def countedDown (c : Count) (index : Nat) : Count :=
  if c = 0 then BitVec.ofNat 5 (Config.freeCount index).val else c - 1

/-- `waiting_bytes <- waiting_bytes - 1`. -/
def State.dropWaiting (s : State) : State :=
  let t := { s with waitingBytes := countedDown s.waitingBytes s.freeIndex }
  if s.waitingBytes = 0 then t.drawFree else t

/-- `remaining <- remaining - 1`. -/
def State.dropRemaining (s : State) : State :=
  let t := { s with remaining := countedDown s.remaining s.freeIndex }
  if s.remaining = 0 then t.drawFree else t

/-- The slot ADVANCE evicts and refills: 18 ahead of the cursor (70_reset_and_hazards.md R154). -/
def State.evicted (s : State) : Addr :=
  slotAt s.dictHead Config.maxMatch

/-- ADVANCE step 1: evict, the key taken before the refill (R92, R153), skipped at address 0 (R158). -/
def State.evict (s : State) : State :=
  if s.evicted = Config.null then s
  else s.removeAt (s.keyOf s.evicted.toNat) s.evicted

/-- ADVANCE steps 3 and 4: index the cursor unless it is 0 (R158), then move it. -/
def State.passCursor (s : State) : State :=
  let t :=
    if s.dictHead = Config.null then s else s.insertAt (s.keyOf s.dictHead.toNat) s.dictHead
  { t with dictHead := slotAt s.dictHead 1 }

/-- ADVANCE (R92): evict, refill, index, advance, count. -/
def advance (s : State) : State :=
  match pull s.evict with
  | (some b, t) => (t.writeW s.evicted b).passCursor
  | (none, t) => t.passCursor.dropWaiting

/-! ### Search (43_encoder.md) -/

/-- MATCHLEN's loop (R111): at most `k` more positions, from offset `i` on. -/
def prefixFrom (s : State) (c : Addr) : Nat → Nat → Nat
  | 0, _ => 0
  | k + 1, i =>
    if s.readW (slotAt s.dictHead i) = s.readW (slotAt c i) then prefixFrom s c k (i + 1) + 1
    else 0

/-- MATCHLEN (R111). -/
def State.matchLen (s : State) (c : Addr) : Count :=
  BitVec.ofNat 5 (prefixFrom s c s.waitingBytes.toNat 0)

/-- One candidate of SEARCH: a strictly greater length replaces the best (R112, R113). -/
def better (best : Count × Addr) (len : Count) (c : Addr) : Count × Addr :=
  if best.1 < len then (len, c) else best

/-- SEARCH's loop from candidate `c` on: the chain is walked only as far as the search asks (R103),
and the early exit comes after the update (R114). `fuel` bounds the walk (D25). -/
def scanFrom (s : State) : Nat → Addr → Count × Addr → Count × Addr
  | 0, _, best => best
  | fuel + 1, c, best =>
    if c = Config.null then best
    else
      let len := s.matchLen c
      if len = s.waitingBytes then better best len c
      else scanFrom s fuel (s.readNext c) (better best len c)

/-- SEARCH (R112). -/
def search (s : State) : State :=
  let first := s.readHash (s.keyOf s.dictHead.toNat)
  let best := scanFrom s Config.chainFuel first (0, Config.null)
  { s with bestLen := best.1, bestAddr := best.2, phase := .emit }

/-! ### Emission and start (43_encoder.md) -/

/-- The entry is written: its length is owed to the window (R116, R117). -/
def owe (n : Count) (s : State) : Flow :=
  .completed { s with remaining := n, phase := .maintain }

/-- EMITLIT (R116). -/
def emitLiteral (s : State) : Flow :=
  (writeLiteral (s.byteAt s.dictHead.toNat) s).andThen (owe 1)

/-- EMITMATCH (R117); the length field is free when `best_len` is below 3 (log 16). -/
def emitMatch (s : State) : Flow :=
  if s.bestLen < 3 then
    (writeLong s.bestAddr (Config.freeLenField s.freeIndex) s.drawFree).andThen (owe s.bestLen)
  else (writeLong s.bestAddr (lenFieldOf s.bestLen) s).andThen (owe s.bestLen)

/-- START is accepted in IDLE, DONE and FAULT (R110; 92_eei_decisions.md D12). -/
def State.acceptsStart (s : State) : Bool :=
  !s.busy

/-- The constructed state (R110; 10_state.md R35). -/
def construct (s : State) : State :=
  { s with
    window := []
    hash := []
    prev := []
    next := []
    dictHead := Config.headInit
    waitingBytes := 0
    acc := 0
    nbits := 0
    out := []
    outLen := 0
    bestLen := 0
    bestAddr := 0
    remaining := 0
    faultCode := 0
    phase := .prime }

end Sys2Proof.Machine
end

