-- ==== Sys2Proof/Machine/BitWriter.lean ====
section
/-! DEFINITION. The operations of the BitWriter (40_bitwriter.md). -/

namespace Sys2Proof.Machine

/-- WRITEBIT (R80). -/
def execWriteBit (b : Bool) (s : State) : Host.Outcome State Fault Refusal :=
  (writeBit b s).outcome

/-- WRITEBITS (R81), for counts of 0 to 16 (U12). -/
def execWriteBits (n : BitVec 5) (value : BitVec 16) (s : State) :
    Host.Outcome State Fault Refusal :=
  if n.toNat ≤ 16 then (writeField n.toNat value.toNat s).outcome else .refused .countOutOfRange

/-- FINISH (R82); the phase is the sequencer's. -/
def execFinish (s : State) : Host.Outcome State Fault Refusal :=
  (flush s).outcome

end Sys2Proof.Machine
end

