-- ==== Sys2Proof/Machine/Encoder.lean ====
section
/-! DEFINITION. The operations of the Encoder (43_encoder.md). -/

namespace Sys2Proof.Machine

/-- START (R110): in a busy phase it changes nothing (D12). -/
def execStart (s : State) : Host.Outcome State Fault Refusal :=
  if s.acceptsStart then .next (construct s) else .next s

/-- MATCHLEN (R111): the length is the answer (log 5). -/
def execMatchLen (c : Addr) (s : State) : Host.Outcome State Fault Refusal :=
  .next { s with result := .length (s.matchLen c) }

/-- SEARCH (R112). -/
def execSearch (s : State) : Host.Outcome State Fault Refusal :=
  .next (search s)

/-- EMITLIT (R116). -/
def execEmitLit (s : State) : Host.Outcome State Fault Refusal :=
  (emitLiteral s).outcome

/-- EMITMATCH (R117). -/
def execEmitMatch (s : State) : Host.Outcome State Fault Refusal :=
  (emitMatch s).outcome

/-- EMITTERM (R119): the 18 zero bits; FINISH and the phase follow in the sequencer. -/
def execEmitTerm (s : State) : Host.Outcome State Fault Refusal :=
  (writeLong 0 0 s).outcome

end Sys2Proof.Machine
end

