-- ==== Sys2Proof/Machine/Entries.lean ====
section
/-! DEFINITION. The wire entries (30_encoding.md R61 to R63) as instructions: performing one writes
its bits through the BitWriter (log 4). -/

namespace Sys2Proof.Machine

/-- LITERAL (R61): `writeBit(1)` then `writeBits(8, byte)`. -/
def execLiteral (b : Byte) (s : State) : Host.Outcome State Fault Refusal :=
  (writeLiteral b s).outcome

/-- MATCH (R62): `writeBit(0)`, the 13 address bits, the 4 length bits. Address 0 is never an entry
of this kind (R67). -/
def execMatchEntry (addr : Addr) (lenm3 : LenField) (s : State) :
    Host.Outcome State Fault Refusal :=
  if addr = Config.null then .refused .reservedEntry else (writeLong addr lenm3 s).outcome

/-- TERM (R63): 18 zero bits. -/
def execTerm (s : State) : Host.Outcome State Fault Refusal :=
  (writeLong 0 0 s).outcome

end Sys2Proof.Machine
end

