-- ==== Sys2Proof/Machine/MatchIndex.lean ====
section
/-! DEFINITION. The operations of the MatchIndex (42_matchindex.md). -/

namespace Sys2Proof.Machine

/-- KEYOF (R100): the key is the answer (log 5). -/
def execKeyOf (addr : BitVec 16) (s : State) : Host.Outcome State Fault Refusal :=
  .next { s with result := .key (s.keyOf addr.toNat) }

/-- INSERT (R101), of an address that is not 0. -/
def execInsert (key : Key) (addr : Addr) (s : State) : Host.Outcome State Fault Refusal :=
  if addr = Config.null then .refused .sentinelOperand else .next (s.insertAt key addr)

/-- REMOVE (R102), of an address that is not 0. -/
def execRemove (key : Key) (addr : Addr) (s : State) : Host.Outcome State Fault Refusal :=
  if addr = Config.null then .refused .sentinelOperand else .next (s.removeAt key addr)

/-- CHAINFROM (R103): the sequence is the answer (log 5). -/
def execChainFrom (key : Key) (s : State) : Host.Outcome State Fault Refusal :=
  .next { s with result := .chain (s.chainFrom key) }

end Sys2Proof.Machine
end

