-- ==== Sys2Proof/Machine/Window.lean ====
section
/-! DEFINITION. The operations of the DictionaryWindow (41_window.md). -/

namespace Sys2Proof.Machine

/-- PRIME (R90); the phase is the sequencer's. -/
def execPrime (s : State) : Host.Outcome State Fault Refusal :=
  .next (prime s)

/-- BYTEAT (R91): the byte is the answer (log 5). -/
def execByteAt (addr : BitVec 16) (s : State) : Host.Outcome State Fault Refusal :=
  .next { s with result := .byte (s.byteAt addr.toNat) }

/-- ADVANCE (R92); `remaining` and the phase are the sequencer's (R118). -/
def execAdvance (s : State) : Host.Outcome State Fault Refusal :=
  .next (advance s)

end Sys2Proof.Machine
end

