-- ==== Sys2Proof/Machine/Dispatch.lean ====
section
/-! DEFINITION. One arm for each instruction. -/

namespace Sys2Proof.Machine

def exec (i : Instr) (s : State) : Host.Outcome State Fault Refusal :=
  match i with
  -- wire entries
  | .literal b => Sys2Proof.Machine.execLiteral b s
  | .matchEntry addr lenm3 => Sys2Proof.Machine.execMatchEntry addr lenm3 s
  | .term => Sys2Proof.Machine.execTerm s
  -- operations 0 to 15
  | .start => Sys2Proof.Machine.execStart s
  | .prime => Sys2Proof.Machine.execPrime s
  | .byteAt addr => Sys2Proof.Machine.execByteAt addr s
  | .advance => Sys2Proof.Machine.execAdvance s
  | .keyOf addr => Sys2Proof.Machine.execKeyOf addr s
  | .insert key addr => Sys2Proof.Machine.execInsert key addr s
  | .remove key addr => Sys2Proof.Machine.execRemove key addr s
  | .chainFrom key => Sys2Proof.Machine.execChainFrom key s
  | .matchLen c => Sys2Proof.Machine.execMatchLen c s
  | .search => Sys2Proof.Machine.execSearch s
  | .writeBit b => Sys2Proof.Machine.execWriteBit b s
  | .writeBits n value => Sys2Proof.Machine.execWriteBits n value s
  | .finish => Sys2Proof.Machine.execFinish s
  | .emitLit => Sys2Proof.Machine.execEmitLit s
  | .emitMatch => Sys2Proof.Machine.execEmitMatch s
  | .emitTerm => Sys2Proof.Machine.execEmitTerm s

end Sys2Proof.Machine
end

