-- ==== Sys2Proof/Machine/Sequencer.lean ====
section
/-! DEFINITION. The sequencer: which operation a phase performs, what it adds around it, and what the
input ports do to a step (43_encoder.md R120; 60_exceptions.md R134, R140; 70_reset_and_hazards.md
R150). `step` only calls what stands here. -/

namespace Sys2Proof.Machine

/-- What the input ports carry in this step; with no entry left, no request and every answer given. -/
def State.input (s : State) : PortInput :=
  s.inputs.headD PortInput.quiet

/-- This step's input is used up. -/
def State.nextInput (s : State) : State :=
  { s with inputs := s.inputs.tail }

/-- The state after the port `reset` was asserted (R150): the values of `State.reset`, with the
environment's undelivered input and coming port values left as they are (log 8). -/
def powerOn (s : State) : State :=
  { State.reset with src := s.src, outCap := s.outCap, inputs := s.inputs, freeIndex := s.freeIndex }

/-- The operation the sequencer performs in a phase (10_state.md R28; 43_encoder.md R115, R120). -/
def State.sequenced (s : State) : Option Instr :=
  match s.phase with
  | .prime => some .prime
  | .search => some .search
  | .emit => if s.bestLen < 3 then some .emitLit else some .emitMatch
  | .maintain => some .advance
  | .terminate => some .emitTerm
  | .idle => none
  | .done => none
  | .fault => none

/-- Does the operation perform a pull? -/
def performsPull : Instr → Bool
  | .prime => true
  | .advance => true
  | .literal _ => false
  | .matchEntry _ _ => false
  | .term => false
  | .start => false
  | .byteAt _ => false
  | .keyOf _ => false
  | .insert _ _ => false
  | .remove _ _ => false
  | .chainFrom _ => false
  | .matchLen _ => false
  | .search => false
  | .writeBit _ => false
  | .writeBits _ _ => false
  | .finish => false
  | .emitLit => false
  | .emitMatch => false
  | .emitTerm => false

/-- How many bits the operation passes to WRITEBIT. -/
def bitsWritten : Instr → Nat
  | .literal _ => 9
  | .matchEntry _ _ => 18
  | .term => 18
  | .writeBit _ => 1
  | .writeBits n _ => n.toNat
  | .emitLit => 9
  | .emitMatch => 18
  | .emitTerm => 18
  | .start => 0
  | .prime => 0
  | .byteAt _ => 0
  | .advance => 0
  | .keyOf _ => 0
  | .insert _ _ => 0
  | .remove _ _ => 0
  | .chainFrom _ => 0
  | .matchLen _ => 0
  | .search => 0
  | .finish => 0

/-- Does the operation perform a push? A push comes with each eighth bit (20_memory.md R53 (c)), and
with FINISH when a partial byte is held (R82). -/
def State.pushes (s : State) (i : Instr) : Bool :=
  if i = .finish then decide (s.nbits ≠ 0) else decide (8 ≤ s.nbits.toNat + bitsWritten i)

/-- The first byte the operation will push: what `snk_byte` shows while the sink withholds its
answer (20_memory.md R53 (b); log 12). -/
def State.firstPushed (s : State) (i : Instr) : Byte :=
  match exec i { s with outCap := none } with
  | .next t => (t.out.drop s.out.length).headD s.acc
  | .fault _ => s.acc
  | .refused _ => s.acc

/-- The request a step raises instead of its operation when the answer it needs is withheld
(60_exceptions.md R140; log 11): nothing else changes. -/
def State.waiting (s : State) (inp : PortInput) (i : Instr) : Option State :=
  if performsPull i && inp.srcHold then some { s with srcReq := true }
  else if s.pushes i && inp.snkHold then
    some { s with snkReq := true, snkByte := s.firstPushed i }
  else none

/-- Where the loop goes when no ADVANCE is owed (R118, R120). -/
def State.loopPhase (s : State) : Phase :=
  if s.waitingBytes = 0 then .terminate else .search

/-- MAINTAIN after its ADVANCE (R118). -/
def afterAdvance (s : State) : State :=
  let t := s.dropRemaining
  { t with phase := if t.remaining = 0 then t.loopPhase else .maintain }

/-- TERMINATE after EMITTERM (R119): FINISH, then DONE, unless FINISH faulted. -/
def afterTerm (s : State) : Host.Outcome State Fault Refusal :=
  match exec .finish s with
  | .next t => .next (if t.phase = .fault then t else { t with phase := .done })
  | .fault r => .fault r
  | .refused r => .refused r

/-- What the sequencer adds once the operation of phase `p` left `t`: nothing after a fault (R135). -/
def afterOperation (p : Phase) (t : State) : Host.Outcome State Fault Refusal :=
  if t.phase = .fault then .next t
  else
    match p with
    | .prime => .next { t with phase := t.loopPhase }
    | .maintain => .next (afterAdvance t)
    | .terminate => afterTerm t
    | .search => .next t
    | .emit => .next t
    | .idle => .next t
    | .done => .next t
    | .fault => .next t

/-- One transition of R120 in a busy phase. -/
def performPhase (inp : PortInput) (i : Instr) (s : State) : Host.Outcome State Fault Refusal :=
  match s.waiting inp i with
  | some t => .next t
  | none =>
    match exec i s with
    | .next t => afterOperation s.phase t
    | .fault r => .fault r
    | .refused r => .refused r

/-- A quiescent phase (IDLE, DONE, FAULT): START if requested, with the encode's source and sink (R138);
otherwise the block stands still (R125). -/
def quiescent (inp : PortInput) (s : State) : Host.Outcome State Fault Refusal :=
  match inp.start with
  | none => .next s
  | some r => exec .start { s with src := r.src, outCap := r.outCap }

/-- The hardwired sequence (R120): a start request in a busy phase is ignored (R110). -/
def sequence (inp : PortInput) (s : State) : Host.Outcome State Fault Refusal :=
  match s.sequenced with
  | none => quiescent inp s
  | some i => performPhase inp i s

/-- An operation word presented to the control lines: decoded and performed alone, with nothing added
around it (log 2). -/
def issueDirect (inp : PortInput) (img : Image) (s : State) : Host.Outcome State Fault Refusal :=
  match decode img with
  | .error e => .refused (.undecodable e)
  | .ok i =>
    match s.waiting inp i with
    | some t => .next t
    | none => exec i { s with issue := none }

/-- One step: reset wins (R134, R150); then an issued word, if there is one; else the sequence. -/
def oneStep (s : State) : Host.Outcome State Fault Refusal :=
  let inp := s.input
  let t := s.nextInput
  if inp.reset then .next (powerOn t)
  else
    match t.issue with
    | some img => issueDirect inp img t
    | none => sequence inp t

/-- The state with a table row's word presented to the control lines, and ports that let the next
step perform it (log 2). -/
def State.present (s : State) (nbits w : Nat) : State :=
  { s with issue := some (tableImage nbits w), inputs := PortInput.quiet :: s.inputs }

end Sys2Proof.Machine
end

