-- ==== Sys2Proof/Machine/Step.lean ====
section
/-! DEFINITION. The step of the machine, and the word the host places for it. -/

namespace Sys2Proof.Machine

/-- One step of the block (00_scope.md R9). -/
def step (s : State) : Host.Outcome State Fault Refusal :=
  oneStep s

/-- The state whose next step performs exactly this word of spec/opcode_table.json (log 2, log 24). -/
def State.withFetchWord (s : State) (nbits w : Nat) : State :=
  s.present nbits w

end Sys2Proof.Machine
end

