-- ==== Sys2Proof/Safety.lean ====
section
/-! DEFINITION. The terms the claims use: what has been written, what an operation may change, what
holds between steps, and what a finished stream stands for. Nothing here is called by `step`. -/

namespace Sys2Proof.Machine

/-! ### The bit stream -/

/-- The bits of `acc` not yet written are 0 (10_state.md R25). -/
def State.accClean (s : State) : Prop :=
  s.acc.toNat % 2 ^ (8 - s.nbits.toNat) = 0

/-- The bits written since START: those of the pushed bytes, then the `nbits` in `acc` (40_bitwriter.md
R83). -/
def State.written (s : State) : List Bool :=
  bitsOfBytes s.out ++ (byteBits s.acc).take s.nbits.toNat

/-- The sink accepts `pushes` more bytes (20_memory.md R53); no pushes need no room. -/
def State.room (s : State) (pushes : Nat) : Prop :=
  pushes = 0 ∨ ∀ cap, s.outCap = some cap → s.outLen + pushes ≤ cap

/-- The pushes that `bits` more bits bring: one with each eighth bit. -/
def State.pushesFor (s : State) (bits : Nat) : Nat :=
  (s.nbits.toNat + bits) / 8

/-- The instructions performed one after the other, each by `exec` alone. -/
def runOps : List Instr → State → Host.Outcome State Fault Refusal
  | [], s => .next s
  | i :: is, s =>
    match exec i s with
    | .next t => runOps is t
    | .fault r => .fault r
    | .refused r => .refused r

/-! ### Frames -/

/-- Every entry of the four memories reads as before. -/
def SameMemories (s t : State) : Prop :=
  (∀ a, t.readW a = s.readW a) ∧ (∀ k, t.readHash k = s.readHash k) ∧
    (∀ a, t.readPrev a = s.readPrev a) ∧ ∀ a, t.readNext a = s.readNext a

/-- Nothing but the BitWriter's registers and the sink differs: `acc`, `nbits`, `out`, `out_len` and
the two sink ports. -/
def OnlyWriter (s t : State) : Prop :=
  t = { s with
    acc := t.acc, nbits := t.nbits, out := t.out, outLen := t.outLen
    snkReq := t.snkReq, snkByte := t.snkByte }

/-- As `OnlyWriter`, and the fault registers `phase` and `fault_code`. -/
def OnlyWriterAndFault (s t : State) : Prop :=
  t = { s with
    acc := t.acc, nbits := t.nbits, out := t.out, outLen := t.outLen
    snkReq := t.snkReq, snkByte := t.snkByte, phase := t.phase, faultCode := t.faultCode }

/-- The bits were written, and nothing but the BitWriter and the sink differs. -/
def Wrote (bits : List Bool) (s t : State) : Prop :=
  OnlyWriter s t ∧ t.accClean ∧ t.written = s.written ++ bits

/-- The sink refused a byte of the bits: FAULT, OUT_EXHAUSTED, and only bytes of the bits before the
refused one were accepted (60_exceptions.md R130, R135). -/
def Refused (bits : List Bool) (s t : State) : Prop :=
  OnlyWriterAndFault s t ∧ t.phase = .fault ∧ t.faultCode = Config.outExhausted ∧ ¬ t.room 1 ∧
    s.out <+: t.out ∧ bitsOfBytes t.out <+: s.written ++ bits

/-! ### Preconditions -/

/-- What the rule of an operation presupposes of the state in which it is performed (the
`precondition` lines of 41_window.md to 43_encoder.md). -/
def precondition : Instr → State → Bool
  | .start, s => s.acceptsStart
  | .prime, s => s.dictHead == 1
  | .advance, s => s.waitingBytes != 0
  | .search, s => s.waitingBytes != 0
  | .emitLit, s => decide (s.bestLen < 3) && s.waitingBytes != 0
  | .emitMatch, s =>
    decide (3 ≤ s.bestLen) && decide (s.bestLen ≤ s.waitingBytes) && s.bestAddr != 0
  | .emitTerm, s => s.waitingBytes == 0
  | .insert _ addr, _ => addr != 0
  | .remove _ addr, _ => addr != 0
  | .matchEntry addr _, _ => addr != 0
  | .writeBits n _, _ => decide (n.toNat ≤ 16)
  | .literal _, _ => true
  | .term, _ => true
  | .byteAt _, _ => true
  | .keyOf _, _ => true
  | .chainFrom _, _ => true
  | .matchLen _, _ => true
  | .writeBit _, _ => true
  | .finish, _ => true

/-! ### Invariants -/

/-- The four memories are in canonical form. -/
def State.memWf (s : State) : Prop :=
  s.window.wf Config.nDict ∧ s.hash.wf Config.nHash ∧ s.prev.wf Config.nDict ∧
    s.next.wf Config.nDict

/-- The source is used up unless the lookahead is full (41_window.md R95 (b)). -/
def State.exhausted (s : State) : Prop :=
  s.waitingBytes.toNat < Config.maxMatch → s.src = []

/-- What holds in each phase (43_encoder.md R115 to R120, R125; 41_window.md R94). -/
def State.phaseContract (s : State) : Prop :=
  match s.phase with
  | .idle => True
  | .prime =>
    s.dictHead = 1 ∧ s.waitingBytes = 0 ∧ s.remaining = 0 ∧ s.acc = 0 ∧ s.nbits = 0 ∧ s.out = []
  | .search => s.waitingBytes ≠ 0 ∧ s.remaining = 0 ∧ s.exhausted
  | .emit =>
    s.waitingBytes ≠ 0 ∧ s.remaining = 0 ∧ s.exhausted ∧ s.bestLen ≤ s.waitingBytes ∧
      (s.bestLen ≠ 0 → s.bestAddr ≠ 0)
  | .maintain => s.remaining ≠ 0 ∧ s.remaining ≤ s.waitingBytes ∧ s.exhausted
  | .terminate => s.waitingBytes = 0 ∧ s.remaining = 0 ∧ s.src = []
  | .done =>
    s.waitingBytes = 0 ∧ s.remaining = 0 ∧ s.src = [] ∧ s.acc = 0 ∧ s.nbits = 0
  | .fault => True

/-- What every step of the sequencer keeps, in any environment. -/
structure State.Inv (s : State) : Prop where
  /-- No operation word is presented to the control lines (log 2). -/
  noIssue : s.issue = none
  /-- Canonical memories. -/
  memories : s.memWf
  /-- Index 0 carries no link (20_memory.md R54; 10_state.md R32). -/
  sentinel : s.readPrev 0 = 0 ∧ s.readNext 0 = 0
  /-- The ranges of the counters (10_state.md R22, R27). -/
  ranges : s.waitingBytes.toNat ≤ 18 ∧ s.bestLen.toNat ≤ 18 ∧ s.remaining.toNat ≤ 18
  /-- `out_len = length(out)` (10_state.md R26). -/
  counted : s.outLen = s.out.length
  /-- No more bytes accepted than OUT_CAP (00_scope.md R4). -/
  capped : ∀ cap, s.outCap = some cap → s.outLen ≤ cap
  /-- The unwritten bits of `acc` are 0 (10_state.md R25), except where a push was refused. -/
  clean : s.phase ≠ .fault → s.accClean
  /-- `fault_code` is 1 in FAULT and 0 elsewhere (10_state.md R29). -/
  code : s.faultCode = if s.phase = .fault then Config.outExhausted else 0
  /-- A pull is requested only in PRIME and MAINTAIN, a push only in EMIT and TERMINATE; in the
  quiescent phases neither (43_encoder.md R125). -/
  requests : (s.srcReq = true → s.phase = .prime ∨ s.phase = .maintain) ∧
    (s.snkReq = true → s.phase = .emit ∨ s.phase = .terminate)
  /-- The contract of the phase. -/
  contract : s.phaseContract

/-- How many input bytes have been consumed, when the input has `n` bytes in all. -/
def State.consumed (n : Nat) (s : State) : Nat :=
  n - (s.waitingBytes.toNat + s.src.length)

/-- The window holds the input `x` as 41_window.md R95 says, with `t` bytes consumed: the cursor (a),
the undelivered rest, the lookahead (c), and the past of the last 8174 positions (d). -/
structure State.Tracks (x : List Byte) (s : State) : Prop where
  total : s.waitingBytes.toNat + s.src.length ≤ x.length
  begins : s.phase = .prime → s.src.length = x.length
  rest : s.src = x.drop (s.consumed x.length + s.waitingBytes.toNat)
  cursor : s.dictHead = wrap (1 + s.consumed x.length)
  lookahead : ∀ i, i < s.waitingBytes.toNat →
    x[s.consumed x.length + i]? = some (s.readW (slotAt s.dictHead i))
  past : ∀ d, 1 ≤ d → d ≤ min (s.consumed x.length) 8174 →
    x[s.consumed x.length - d]? = some (s.readW (slotAt s.dictHead (8192 - d)))

/-- `a` is a member, `d` positions behind the cursor, after `t` ADVANCE operations (10_state.md R33 (b)). -/
def State.memberAt (s : State) (t d : Nat) (a : Addr) : Prop :=
  1 ≤ d ∧ d ≤ min t 8174 ∧ a = slotAt s.dictHead (8192 - d) ∧ a ≠ 0

/-- The MatchIndex after `t` ADVANCE operations (10_state.md R23, R24, R33). -/
structure State.Indexed (t : Nat) (s : State) : Prop where
  /-- A bucket that is not empty names a member with that key and with no newer one. -/
  heads : ∀ k, s.readHash k ≠ 0 →
    (∃ d, s.memberAt t d (s.readHash k)) ∧ s.readPrev (s.readHash k) = 0 ∧
      s.keyOf (s.readHash k).toNat = k
  /-- A member's `next` is none or an older member with the same key, whose `prev` leads back. -/
  links : ∀ d a, s.memberAt t d a → s.readNext a ≠ 0 →
    (∃ e, d < e ∧ s.memberAt t e (s.readNext a)) ∧ s.readPrev (s.readNext a) = a ∧
      s.keyOf (s.readNext a).toNat = s.keyOf a.toNat
  /-- A member's `prev` is none, and then its bucket names it, or a newer member whose `next` leads back. -/
  backs : ∀ d a, s.memberAt t d a →
    (s.readPrev a = 0 ∧ s.readHash (s.keyOf a.toNat) = a) ∨
      ((∃ e, e < d ∧ s.memberAt t e (s.readPrev a)) ∧ s.readNext (s.readPrev a) = a)
  /-- In the first lap a slot never inserted has no `prev` (42_matchindex.md R102 (a)). -/
  fresh : t < 8174 → ∀ a, (∀ d, ¬ s.memberAt t d a) → s.readPrev a = 0

/-! ### Streams -/

/-- A literal or match entry with legal operands. -/
def isData (i : Instr) : Prop :=
  (∃ b, i = .literal b) ∨ ∃ addr lenm3, addr ≠ 0 ∧ i = .matchEntry addr lenm3

/-- The input bytes an entry covers (30_encoding.md R61, R64, R66). -/
def coveredBy : Instr → Nat
  | .literal _ => 1
  | .matchEntry _ lenm3 => trueLength lenm3
  | _ => 0

/-- The input bytes a list of entries covers. -/
def covered (es : List Instr) : Nat :=
  (es.map coveredBy).sum

/-- How many entries of a list are literals. -/
def literals (es : List Instr) : Nat :=
  es.countP fun i => match i with
    | .literal _ => true
    | _ => false

/-- The bits written so far are whole entries that cover `bytes` input bytes. -/
def State.holdsEntries (s : State) (bytes : Nat) : Prop :=
  ∃ es, (∀ e ∈ es, isData e) ∧ s.written = es.flatMap entryBits ∧ covered es = bytes

/-- The output is a complete stream for an input of `n` bytes (30_encoding.md R65, R66; 43_encoder.md
R122 (a), (b), (d), (e)). -/
def State.completeStream (s : State) (n : Nat) : Prop :=
  ∃ es pad, (∀ e ∈ es, isData e) ∧ pad < 8 ∧ covered es = n ∧
    bitsOfBytes s.out = es.flatMap entryBits ++ entryBits .term ++ List.replicate pad false ∧
    s.outLen = (9 * literals es + 18 * (es.length - literals es) + 18 + 7) / 8

/-- What an encode of `n` input bytes has written, phase by phase. -/
def State.Streams (n : Nat) (s : State) : Prop :=
  match s.phase with
  | .idle => True
  | .prime => s.src.length = n
  | .search => s.holdsEntries (s.consumed n) ∧ s.waitingBytes.toNat + s.src.length ≤ n
  | .emit => s.holdsEntries (s.consumed n) ∧ s.waitingBytes.toNat + s.src.length ≤ n
  | .maintain =>
    s.holdsEntries (s.consumed n + s.remaining.toNat) ∧ s.waitingBytes.toNat + s.src.length ≤ n
  | .terminate => s.holdsEntries n
  | .done => s.completeStream n
  | .fault => True

/-! ### Runs -/

/-- Ports that ask for nothing; they may still withhold answers. -/
def PortInput.asksNothing (p : PortInput) : Prop :=
  p.reset = false ∧ p.start = Option.none

/-- A block with a start request for input `x`, followed by port values that ask for nothing. -/
structure State.Requested (x : List Byte) (cap : Option Nat) (s : State) : Prop where
  inv : s.Inv
  accepts : s.acceptsStart = true
  request : ∃ h hs, s.inputs = h :: hs ∧ h.reset = false ∧ h.start = some ⟨x, cap⟩ ∧
    ∀ p ∈ hs, PortInput.asksNothing p

/-! ### The informative decoder (95_test_vectors.md section 6)

It is no part of the block (00_scope.md R3); claims use it to say what a stream stands for. -/

/-- One byte into the mirror window and out: the window, the cursor and the bytes so far. -/
def mirrorPut (m : Memory 8 × Addr × List Byte) (b : Byte) : Memory 8 × Addr × List Byte :=
  (m.1.write m.2.1.toNat b, slotAt m.2.1 1, m.2.2 ++ [b])

/-- A run of `n` bytes copied one by one from address `addr + i` on: it may overlap the cursor. -/
def mirrorCopy (addr : Addr) : Nat → Nat → Memory 8 × Addr × List Byte → Memory 8 × Addr × List Byte
  | 0, _, m => m
  | n + 1, i, m => mirrorCopy addr n (i + 1) (mirrorPut m (m.1.read (slotAt addr i).toNat))

/-- The entries replayed on a mirror window. -/
def mirrorRun : List Instr → Memory 8 × Addr × List Byte → Memory 8 × Addr × List Byte
  | [], m => m
  | .literal b :: es, m => mirrorRun es (mirrorPut m b)
  | .matchEntry addr lenm3 :: es, m => mirrorRun es (mirrorCopy addr (trueLength lenm3) 0 m)
  | _ :: _, m => m

/-- What a byte sequence decodes to: its entries up to the terminator, replayed on a window of zeros
with the cursor at 1. -/
def inflate (bytes : List Byte) : Option (List Byte) :=
  match decodeStream (8 * bytes.length) (bitsOfBytes bytes) with
  | .ok (es, _) => some (mirrorRun es ([], 1, [])).2.2
  | .error _ => none

end Sys2Proof.Machine
end

