-- ==== Sys2Proof/Certificates/Slice0/Obligations.lean ====
section
/-! DEFINITION. The statements for the provers. Each docstring names the rule it formalises, or the
log entry where it rests on a choice of the model. -/

open Sys2Proof Sys2Proof.Machine

/-! ### Images -/

/-- 30_encoding.md R61 to R63, R69: the examples of the wire format, and one word for each operation
(operand places: log 3). -/
def Obligations.SampleImagesDecode : Prop :=
  decode (.entry [true, false, true, false, false, false, false, false, true]) = .ok (.literal 0x41) ∧
  decode (.entry ([false] ++ List.replicate 12 false ++ [true] ++ [true, true, true, true])) =
    .ok (.matchEntry 1 15) ∧
  decode (.entry (List.replicate 18 false)) = .ok .term ∧
  decode (.op 0x00) = .ok .start ∧ decode (.op 0x01) = .ok .prime ∧
  decode (.op 0x200102) = .ok (.byteAt 0x2001) ∧ decode (.op 0x03) = .ok .advance ∧
  decode (.op 0x1FFF04) = .ok (.keyOf 0x1FFF) ∧ decode (.op 0x01455105) = .ok (.insert 0x4551 2) ∧
  decode (.op 0x00455106) = .ok (.remove 0x4551 1) ∧ decode (.op 0x647307) = .ok (.chainFrom 0x6473) ∧
  decode (.op 0x1FFF08) = .ok (.matchLen 8191) ∧ decode (.op 0x09) = .ok .search ∧
  decode (.op 0x010A) = .ok (.writeBit true) ∧ decode (.op 0x2468D0B) = .ok (.writeBits 13 0x1234) ∧
  decode (.op 0x0C) = .ok .finish ∧ decode (.op 0x0D) = .ok .emitLit ∧
  decode (.op 0x0E) = .ok .emitMatch ∧ decode (.op 0x0F) = .ok .emitTerm

/-- Decode and encode agree on every well-formed instruction, with every operand (the operand places of
the operation words: the model's choice, log 3). -/
def Obligations.DecodingAnEncodedInstructionGivesItBack : Prop :=
  ∀ i : Instr, i.wf = true → decode (encode i) = .ok i

/-- Each image has one meaning: what decodes is well formed, and its encoding is the image. For entries
this is R60 to R63; for operation words R69 gives the number only, and that bits 7 to 4 and the bits
outside the operand fields are refused when not 0 is the model's choice (log 3), as is the refusal of
operands outside an operation's domain (log 17). -/
def Obligations.EveryDecodedImageIsTheEncoding : Prop :=
  ∀ (img : Image) (i : Instr), decode img = .ok i → i.wf = true ∧ encode i = img

/-- 30_encoding.md R68: the first bit tells an entry's length, so an entry is read off the front of a
stream whatever follows. -/
def Obligations.EntriesAreReadFromTheFrontOfAStream : Prop :=
  ∀ (i : Instr) (rest : List Bool), (isData i ∨ i = .term) →
    decodeEntry (entryBits i ++ rest) = .ok (i, rest) ∧
      (entryBits i).length = (if (entryBits i).head? = some true then 9 else 18)

/-- 30_encoding.md R67 gives address field 0 with a length field other than 0 no meaning. That the decoder
REFUSES it is the model's choice (log 17): 93_implementation_defined.md U6 does not choose between
refusing it and reading it as the terminator, and R68 allows the latter. -/
def Obligations.ReservedEntryIsRefused : Prop :=
  ∀ (l : LenField) (rest : List Bool), l ≠ 0 →
    decodeEntry (matchBits 0 l ++ rest) = .error .reservedEntry

/-! ### Which instructions complete -/

/-- Every well-formed instruction has its effect in every state: nothing about the state makes it stop
(that the pseudocode runs outside its precondition too is the model's choice, log 14). -/
def Obligations.EveryWellFormedInstructionCompletes : Prop :=
  ∀ (i : Instr) (s : State), i.wf = true →
    ∃ t, exec i s = .next t ∧ t.inputs = s.inputs ∧ t.issue = s.issue ∧ t.outCap = s.outCap

/-- Operands outside an operation's domain are refused by name (log 17). -/
def Obligations.IllFormedInstructionsAreRefused : Prop :=
  ∀ (key : Key) (l : LenField) (n : BitVec 5) (v : BitVec 16) (s : State),
    exec (.matchEntry 0 l) s = .refused .reservedEntry ∧
    exec (.insert key 0) s = .refused .sentinelOperand ∧
    exec (.remove key 0) s = .refused .sentinelOperand ∧
    (16 < n.toNat → exec (.writeBits n v) s = .refused .countOutOfRange)

/-! ### BitWriter -/

/-- 40_bitwriter.md R80, with its frame. The model's choices in it: `snk_byte` keeps the pushed byte once
the request is lowered (log 12), and a refusal lowers the request and leaves the refused byte in `acc`
(log 22). -/
def Obligations.WritebitPlacesTheBitOrPushesTheByte : Prop :=
  ∀ (b : Bool) (s : State),
    let byte : Byte := s.acc ||| (BitVec.ofBool b).zeroExtend 8 <<< (7 - s.nbits.toNat)
    (s.nbits ≠ 7 →
      exec (.writeBit b) s = .next { s with acc := byte, nbits := s.nbits + 1 }) ∧
    (s.nbits = 7 → s.room 1 →
      exec (.writeBit b) s = .next { s with
        acc := 0, nbits := 0, out := s.out ++ [byte], outLen := s.outLen + 1
        snkReq := false, snkByte := byte }) ∧
    (s.nbits = 7 → ¬ s.room 1 →
      exec (.writeBit b) s = .next { s with
        acc := byte, phase := .fault, faultCode := 1, snkReq := false, snkByte := byte })

/-- 40_bitwriter.md R81: the low `n` bits, most significant first, or FAULT at the refused push. -/
def Obligations.WritebitsAppendsTheLowBits : Prop :=
  ∀ (n : BitVec 5) (value : BitVec 16) (s : State), n.toNat ≤ 16 → s.accClean →
    ∃ bits : List Bool, bits.length = n.toNat ∧
      (∀ i, i < n.toNat → bits[i]? = some (value.getLsbD (n.toNat - 1 - i))) ∧
      (s.room (s.pushesFor n.toNat) →
        ∃ t, exec (.writeBits n value) s = .next t ∧ Wrote bits s t) ∧
      (¬ s.room (s.pushesFor n.toNat) →
        ∃ t, exec (.writeBits n value) s = .next t ∧ Refused bits s t)

/-- 40_bitwriter.md R82. -/
def Obligations.FinishPadsThePartialByte : Prop :=
  ∀ s : State, s.accClean →
    (s.nbits = 0 → exec .finish s = .next s) ∧
    (s.nbits ≠ 0 → s.room 1 →
      ∃ t, exec .finish s = .next t ∧ OnlyWriter s t ∧ t.acc = 0 ∧ t.nbits = 0 ∧
        t.outLen = s.outLen + 1 ∧ t.out = s.out ++ [s.acc] ∧
        bitsOfBytes t.out = s.written ++ List.replicate (8 - s.nbits.toNat) false) ∧
    (s.nbits ≠ 0 → ¬ s.room 1 → ∃ t, exec .finish s = .next t ∧ Refused [] s t)

/-- 40_bitwriter.md R83, before and after FINISH. -/
def Obligations.PackingLaw : Prop :=
  ∀ (bits : List Bool) (s : State),
    s.out = [] → s.outLen = 0 → s.acc = 0 → s.nbits = 0 → s.outCap = none →
    ∃ u t, runOps (bits.map Instr.writeBit) s = .next u ∧
      runOps (bits.map Instr.writeBit ++ [.finish]) s = .next t ∧
      u.out.length = bits.length / 8 ∧ u.nbits.toNat = bits.length % 8 ∧ u.accClean ∧
      (∀ j, j < 8 * (bits.length / 8) →
        ∃ b, u.out[j / 8]? = some b ∧ bits[j]? = some (b.getLsbD (7 - j % 8))) ∧
      (∀ j, 8 * (bits.length / 8) ≤ j → j < bits.length →
        bits[j]? = some (u.acc.getLsbD (7 - j % 8))) ∧
      t.outLen = (bits.length + 7) / 8 ∧ t.out.length = t.outLen ∧
      ∀ j, j < 8 * t.outLen →
        ∃ b, t.out[j / 8]? = some b ∧ b.getLsbD (7 - j % 8) = bits.getD j false

/-- 30_encoding.md R61 to R63 and 43_encoder.md R119: LITERAL, MATCH, TERM and EMITTERM write exactly
the bits of their entry, or meet a refusing sink (that a wire entry is performed by writing it: log 4;
EMITTERM outside its precondition `waiting_bytes = 0`: log 14). -/
def Obligations.EntriesWriteTheirEncoding : Prop :=
  ∀ (i : Instr) (bits : List Bool) (s : State),
    ((isData i ∨ i = .term) ∧ bits = entryBits i ∨ i = .emitTerm ∧ bits = List.replicate 18 false) →
    s.accClean →
    (s.room (s.pushesFor bits.length) → ∃ t, exec i s = .next t ∧ Wrote bits s t) ∧
    (¬ s.room (s.pushesFor bits.length) → ∃ t, exec i s = .next t ∧ Refused bits s t)

/-- 43_encoder.md R116, also outside its precondition, where the model runs the same lines (log 14). -/
def Obligations.EmitlitWritesTheByteAtTheCursor : Prop :=
  ∀ s : State, s.accClean →
    (s.room (s.pushesFor 9) →
      ∃ t, exec .emitLit s = .next { t with remaining := 1, phase := .maintain } ∧
        Wrote (true :: byteBits (s.readW s.dictHead)) s t) ∧
    (¬ s.room (s.pushesFor 9) →
      ∃ t, exec .emitLit s = .next t ∧ Refused (true :: byteBits (s.readW s.dictHead)) s t)

/-- 43_encoder.md R117, for `3 <= best_len <= 18` and every address and lookahead (beyond the rule's
precondition the model runs the same lines, log 14). -/
def Obligations.EmitmatchWritesAddressAndLength : Prop :=
  ∀ s : State, s.accClean → 3 ≤ s.bestLen.toNat → s.bestLen.toNat ≤ 18 →
    let bits := false :: (msbBits 13 s.bestAddr.toNat ++ msbBits 4 (s.bestLen.toNat - 3))
    (s.room (s.pushesFor 18) →
      ∃ t, exec .emitMatch s = .next { t with remaining := s.bestLen, phase := .maintain } ∧
        Wrote bits s t) ∧
    (¬ s.room (s.pushesFor 18) → ∃ t, exec .emitMatch s = .next t ∧ Refused bits s t)

/-- The model's choice outside R117's precondition (log 16): with `best_len` below 3 every other effect
happens, and the length field is some value. -/
def Obligations.EmitmatchBelowTheMinimumStillRuns : Prop :=
  ∀ s : State, s.accClean → s.bestLen.toNat < 3 → s.room (s.pushesFor 18) →
    ∃ t, ∃ field : LenField,
      exec .emitMatch s = .next { t with
        remaining := s.bestLen, phase := .maintain, freeIndex := s.freeIndex + 1 } ∧
      Wrote (matchBits s.bestAddr field) s t

/-! ### DictionaryWindow -/

/-- 41_window.md R91: the slot of the address modulo 8192, and nothing else but the answer changes
(where the answer stands: log 5; operand width: log 18). -/
def Obligations.ByteatReadsTheWrappedSlot : Prop :=
  ∀ (addr : BitVec 16) (s : State), ∃ a : Addr, a.toNat = addr.toNat % 8192 ∧
    exec (.byteAt addr) s = .next { s with result := .byte (s.readW a) }

/-- 41_window.md R90, for a cursor anywhere (the rule performs it at cursor 1; elsewhere log 14). -/
def Obligations.PrimeFillsTheLookahead : Prop :=
  ∀ s : State, ∃ t, exec .prime s = .next t ∧
    t.waitingBytes.toNat = min 18 s.src.length ∧ t.src = s.src.drop 18 ∧
    (∀ i, i < min 18 s.src.length → s.src[i]? = some (t.readW (slotAt s.dictHead i))) ∧
    (∀ a, (∀ i, i < min 18 s.src.length → a ≠ slotAt s.dictHead i) → t.readW a = s.readW a) ∧
    t = { s with window := t.window, waitingBytes := t.waitingBytes, src := t.src, srcReq := false }

/-- 41_window.md R92: the five steps, the table updates being REMOVE and INSERT performed in that
order with the keys the window had before the refill. -/
def Obligations.AdvancePerformsItsFiveSteps : Prop :=
  ∀ s : State, s.waitingBytes ≠ 0 →
    let e := slotAt s.dictHead 18
    let h := s.dictHead
    ∃ t u, exec .advance s = .next t ∧
      runOps ((if e = 0 then [] else [Instr.remove (s.keyOf e.toNat) e]) ++
        if h = 0 then [] else [Instr.insert (s.keyOf h.toNat) h]) s = .next u ∧
      (∀ k, t.readHash k = u.readHash k) ∧ (∀ a, t.readPrev a = u.readPrev a) ∧
      (∀ a, t.readNext a = u.readNext a) ∧
      (∀ b rest, s.src = b :: rest →
        t.src = rest ∧ t.waitingBytes = s.waitingBytes ∧
        ∀ a, t.readW a = if a = e then b else s.readW a) ∧
      (s.src = [] →
        t.src = [] ∧ t.waitingBytes = s.waitingBytes - 1 ∧ ∀ a, t.readW a = s.readW a) ∧
      t.dictHead = slotAt s.dictHead 1 ∧
      t = { s with
        window := t.window, hash := t.hash, prev := t.prev, next := t.next
        dictHead := t.dictHead, waitingBytes := t.waitingBytes, src := t.src, srcReq := false }

/-- The model's choice outside R92's precondition (log 15): with `waiting_bytes` 0 and EOI the cursor
moves, the count is some value of its range, and the window and the source stay as they are. -/
def Obligations.AdvanceWithoutLookaheadStillRuns : Prop :=
  ∀ s : State, s.waitingBytes = 0 → s.src = [] →
    ∃ t, exec .advance s = .next t ∧ t.dictHead = slotAt s.dictHead 1 ∧
      t.waitingBytes.toNat ≤ 18 ∧ (∀ a, t.readW a = s.readW a) ∧
      t = { s with
        hash := t.hash, prev := t.prev, next := t.next, dictHead := t.dictHead
        waitingBytes := t.waitingBytes, srcReq := false, freeIndex := s.freeIndex + 1 }

/-! ### MatchIndex -/

/-- 42_matchindex.md R100, bit by bit and as the formula, with the three addresses wrapping
independently (where the answer stands: log 5; operand width: log 18). -/
def Obligations.KeyofMixesThreeWindowBytes : Prop :=
  ∀ (addr : BitVec 16) (s : State), ∃ (a0 a1 a2 : Addr) (key : Key),
    a0.toNat = addr.toNat % 8192 ∧ a1.toNat = (addr.toNat + 1) % 8192 ∧
    a2.toNat = (addr.toNat + 2) % 8192 ∧
    exec (.keyOf addr) s = .next { s with result := .key key } ∧
    key.extractLsb' 12 4 = (s.readW a1).extractLsb' 4 4 ∧
    key.extractLsb' 8 4 = (s.readW a1).extractLsb' 0 4 ^^^ (s.readW a0).extractLsb' 4 4 ∧
    key.extractLsb' 4 4 = (s.readW a2).extractLsb' 4 4 ^^^ (s.readW a0).extractLsb' 0 4 ∧
    key.extractLsb' 0 4 = (s.readW a2).extractLsb' 0 4 ∧
    key.toNat = (256 * (s.readW a1).toNat + (s.readW a2).toNat) ^^^ (16 * (s.readW a0).toNat)

/-- 42_matchindex.md R101, entry by entry, with the frame. -/
def Obligations.InsertLinksTheNewHead : Prop :=
  ∀ (key : Key) (addr : Addr) (s : State), addr ≠ 0 →
    ∃ t, exec (.insert key addr) s = .next t ∧
      (∀ k, t.readHash k = if k = key then addr else s.readHash k) ∧
      (∀ a, t.readNext a = if a = addr then s.readHash key else s.readNext a) ∧
      (∀ a, t.readPrev a =
        if s.readHash key ≠ 0 ∧ a = s.readHash key then addr
        else if a = addr then 0 else s.readPrev a) ∧
      t = { s with hash := t.hash, prev := t.prev, next := t.next }

/-- 42_matchindex.md R101: INSERT prepends to its chain and leaves every other chain alone, for an
address that is in none of them and chains below the bound of the walk (CHAIN_FUEL, log 19). -/
def Obligations.InsertPrependsToItsChain : Prop :=
  ∀ (key : Key) (addr : Addr) (s : State), addr ≠ 0 →
    (∀ k, addr ∉ s.chainFrom k) → (s.chainFrom key).length < 8191 →
    ∃ t, exec (.insert key addr) s = .next t ∧ t.chainFrom key = addr :: s.chainFrom key ∧
      ∀ k, k ≠ key → t.chainFrom k = s.chainFrom k

/-- 42_matchindex.md R102, its three branches, with the frame. -/
def Obligations.RemoveClearsTheOneLink : Prop :=
  ∀ (key : Key) (addr : Addr) (s : State), addr ≠ 0 →
    (s.readPrev addr ≠ 0 →
      ∃ t, exec (.remove key addr) s = .next t ∧
        (∀ a, t.readNext a = if a = s.readPrev addr then 0 else s.readNext a) ∧
        t = { s with next := t.next }) ∧
    (s.readPrev addr = 0 → s.readHash key = addr →
      ∃ t, exec (.remove key addr) s = .next t ∧
        (∀ k, t.readHash k = if k = key then 0 else s.readHash k) ∧ t = { s with hash := t.hash }) ∧
    (s.readPrev addr = 0 → s.readHash key ≠ addr → exec (.remove key addr) s = .next s)

/-- 42_matchindex.md R102: a member that is the tail of its chain leaves it, and its predecessor becomes
the tail; a sole member leaves the bucket empty. -/
def Obligations.RemoveDropsTheTail : Prop :=
  ∀ (key : Key) (addr : Addr) (front : List Addr) (s : State), addr ≠ 0 →
    s.chainFrom key = front ++ [addr] → (front ++ [addr]).Nodup →
    s.readPrev addr = front.getLastD 0 →
    ∃ t, exec (.remove key addr) s = .next t ∧ t.chainFrom key = front

/-- 42_matchindex.md R103: from the bucket along `next`, most recent first, ending before the first 0
unless the walk reached its bound (where the answer stands: log 5; the bound: log 19). -/
def Obligations.ChainfromFollowsTheLinks : Prop :=
  ∀ (key : Key) (s : State), ∃ cs : List Addr,
    exec (.chainFrom key) s = .next { s with result := .chain cs } ∧
    cs.head? = (if s.readHash key = 0 then none else some (s.readHash key)) ∧
    (∀ (i : Nat) (c d : Addr), cs[i]? = some c → cs[i + 1]? = some d → s.readNext c = d) ∧
    (0 : Addr) ∉ cs ∧ cs.length ≤ 8191 ∧
    (cs.length < 8191 → ∀ c, cs.getLast? = some c → s.readNext c = 0)

/-! ### Encoder -/

/-- 43_encoder.md R110: the constructed state, with the environment as it was; nothing in a busy phase. -/
def Obligations.StartConstructsTheState : Prop :=
  ∀ s : State, (s.busy = true → exec .start s = .next s) ∧
    ((s.phase = .idle ∨ s.phase = .done ∨ s.phase = .fault) →
    ∃ t, exec .start s = .next t ∧
      (∀ a, t.readW a = 0) ∧ (∀ k, t.readHash k = 0) ∧ (∀ a, t.readPrev a = 0) ∧
      (∀ a, t.readNext a = 0) ∧ t.dictHead = 1 ∧ t.waitingBytes = 0 ∧ t.acc = 0 ∧ t.nbits = 0 ∧
      t.out = [] ∧ t.outLen = 0 ∧ t.bestLen = 0 ∧ t.bestAddr = 0 ∧ t.remaining = 0 ∧
      t.faultCode = 0 ∧ t.phase = .prime ∧ t.busy = true ∧ t.done = false ∧ t.fault = false ∧
      t.src = s.src ∧ t.srcReq = s.srcReq ∧ t.snkReq = s.snkReq ∧ t.snkByte = s.snkByte ∧
      t.outCap = s.outCap ∧ t.inputs = s.inputs ∧ t.issue = s.issue ∧ t.result = s.result ∧
      t.freeIndex = s.freeIndex)

/-- 43_encoder.md R110: while an encode runs, a start request changes nothing about the step. -/
def Obligations.StartRequestWhileBusyIsIgnored : Prop :=
  ∀ (s : State) (r : Option StartRequest) (p : PortInput) (rest : List PortInput), s.busy = true →
    s.issue = none → s.inputs = p :: rest →
    step s = step { s with inputs := { p with start := r } :: rest }

/-- 43_encoder.md R111 (where the answer stands: log 5). -/
def Obligations.MatchlenIsTheCommonPrefix : Prop :=
  ∀ (c : Addr) (s : State), ∃ len : Count,
    exec (.matchLen c) s = .next { s with result := .length len } ∧
    len.toNat ≤ s.waitingBytes.toNat ∧
    (∀ i, i < len.toNat → s.readW (slotAt s.dictHead i) = s.readW (slotAt c i)) ∧
    (len.toNat < s.waitingBytes.toNat →
      s.readW (slotAt s.dictHead len.toNat) ≠ s.readW (slotAt c len.toNat))

/-- 43_encoder.md R112, R113: the greatest MATCHLEN over the whole chain of the cursor's key, and the
first address in chain order that reaches it (without a lookahead: log 14; the walk's bound: log 19). -/
def Obligations.SearchFindsTheMostRecentLongestMatch : Prop :=
  ∀ s : State, ∃ t, exec .search s = .next t ∧
    t = { s with bestLen := t.bestLen, bestAddr := t.bestAddr, phase := .emit } ∧
    (∀ c ∈ s.chainFrom (s.keyOf s.dictHead.toNat), s.matchLen c ≤ t.bestLen) ∧
    ((t.bestLen = 0 ∧ t.bestAddr = 0) ∨
      ∃ front back, s.chainFrom (s.keyOf s.dictHead.toNat) = front ++ t.bestAddr :: back ∧
        s.matchLen t.bestAddr = t.bestLen ∧ t.bestLen ≠ 0 ∧
        ∀ c ∈ front, s.matchLen c < t.bestLen)

/-! ### Frames of all instructions -/

/-- 20_memory.md R40, the columns "written by" (ADVANCE performs REMOVE and INSERT): every other
instruction leaves every entry of the memory as it was; an ADVANCE writes no window slot but the one 18
ahead of the cursor, a REMOVE no bucket but its key's and an INSERT none but its key's. -/
def Obligations.EachMemoryIsWrittenOnlyByItsOperations : Prop :=
  ∀ (i : Instr) (s t : State), exec i s = .next t →
    (i ≠ .start → i ≠ .prime → i ≠ .advance → ∀ a, t.readW a = s.readW a) ∧
    (i = .advance → ∀ a, a ≠ slotAt s.dictHead 18 → t.readW a = s.readW a) ∧
    (i ≠ .start → i ≠ .advance → (∀ k a, i ≠ .insert k a) → (∀ k a, i ≠ .remove k a) →
      (∀ k, t.readHash k = s.readHash k) ∧ ∀ a, t.readNext a = s.readNext a) ∧
    (i ≠ .start → i ≠ .advance → (∀ k a, i ≠ .insert k a) → ∀ a, t.readPrev a = s.readPrev a) ∧
    ∀ key addr, (i = .insert key addr ∨ i = .remove key addr) →
      ∀ k, k ≠ key → t.readHash k = s.readHash k

/-- 10_state.md R21, R22, R25 to R27, R39: each register is written by the operations its rule names
and by no other instruction. (A fault writes `phase` and `fault_code` from any of the writing ones;
the environment's registers and the model's own are in the last clauses.) -/
def Obligations.EachRegisterIsWrittenOnlyByItsOperations : Prop :=
  ∀ (i : Instr) (s t : State), exec i s = .next t →
    (i ≠ .start → i ≠ .advance → t.dictHead = s.dictHead) ∧
    (i ≠ .start → i ≠ .prime → i ≠ .advance → t.waitingBytes = s.waitingBytes) ∧
    (i ≠ .start → i ≠ .search → t.bestLen = s.bestLen ∧ t.bestAddr = s.bestAddr) ∧
    (i ≠ .start → i ≠ .emitLit → i ≠ .emitMatch → t.remaining = s.remaining) ∧
    (bitsWritten i = 0 → i ≠ .start → i ≠ .finish →
      t.acc = s.acc ∧ t.nbits = s.nbits ∧ t.out = s.out ∧ t.outLen = s.outLen ∧
        t.faultCode = s.faultCode ∧ t.snkReq = s.snkReq ∧ t.snkByte = s.snkByte) ∧
    (bitsWritten i = 0 → i ≠ .start → i ≠ .finish → i ≠ .search → t.phase = s.phase) ∧
    (i ≠ .prime → i ≠ .advance → t.src = s.src ∧ t.srcReq = s.srcReq) ∧
    (i ≠ .advance → i ≠ .emitMatch → t.freeIndex = s.freeIndex) ∧
    ((∀ a, i ≠ .byteAt a) → (∀ a, i ≠ .keyOf a) → (∀ k, i ≠ .chainFrom k) →
      (∀ c, i ≠ .matchLen c) → t.result = s.result) ∧
    t.outCap = s.outCap ∧ t.inputs = s.inputs ∧ t.issue = s.issue

/-! ### The step -/

/-- A step performs the operation whose word is presented, alone, when the ports answer (log 2). -/
def Obligations.IssuedWordIsPerformed : Prop :=
  ∀ (s : State) (img : Image) (i : Instr), s.issue = some img → decode img = .ok i →
    s.input.reset = false → s.input.srcHold = false → s.input.snkHold = false →
    step s = exec i { s with issue := none, inputs := s.inputs.tail }

/-- 43_encoder.md R120, row by row, when the ports answer. -/
def Obligations.EachPhasePerformsItsOperation : Prop :=
  ∀ s : State, s.issue = none → s.input.reset = false → s.input.srcHold = false →
    s.input.snkHold = false →
    let u := { s with inputs := s.inputs.tail }
    ((s.phase = .idle ∨ s.phase = .done ∨ s.phase = .fault) →
      (s.input.start = none → step s = .next u) ∧
      ∀ r, s.input.start = some r →
        ∃ t, step s = .next t ∧ exec .start { u with src := r.src, outCap := r.outCap } = .next t ∧
          t.phase = .prime) ∧
    (s.phase = .prime → ∃ t, exec .prime u = .next t ∧
      step s = .next { t with phase := if t.waitingBytes = 0 then .terminate else .search }) ∧
    (s.phase = .search → ∃ t, exec .search u = .next t ∧ step s = .next t ∧ t.phase = .emit) ∧
    (s.phase = .emit → s.bestLen < 3 → step s = exec .emitLit u) ∧
    (s.phase = .emit → 3 ≤ s.bestLen → step s = exec .emitMatch u) ∧
    (s.phase = .maintain → s.remaining ≠ 0 → ∃ t, exec .advance u = .next t ∧
      step s = .next { t with
        remaining := s.remaining - 1
        phase :=
          if s.remaining ≠ 1 then .maintain
          else if t.waitingBytes = 0 then .terminate else .search }) ∧
    (s.phase = .terminate → ∃ t, exec .emitTerm u = .next t ∧
      (t.phase = .fault → step s = .next t) ∧
      (t.phase ≠ .fault → ∃ v, exec .finish t = .next v ∧
        step s = .next (if v.phase = .fault then v else { v with phase := .done })))

/-- 43_encoder.md R120: the phase moves as the table says and in no other way, whatever the ports do
short of `reset`. -/
def Obligations.PhaseMovesOnlyAsTheTableSays : Prop :=
  ∀ s t : State, s.issue = none → s.input.reset = false → step s = .next t →
    ((s.phase = .idle ∨ s.phase = .done ∨ s.phase = .fault) →
      (t.phase = s.phase ∧ s.input.start = none) ∨ (t.phase = .prime ∧ s.input.start ≠ none)) ∧
    (s.phase = .prime →
      (t.phase = .search ∧ t.waitingBytes ≠ 0) ∨ (t.phase = .terminate ∧ t.waitingBytes = 0) ∨
        (t.phase = .prime ∧ s.input.srcHold = true)) ∧
    (s.phase = .search → t.phase = .emit) ∧
    (s.phase = .emit →
      t.phase = .maintain ∨ (t.phase = .fault ∧ t.faultCode = 1) ∨
        (t.phase = .emit ∧ s.input.snkHold = true)) ∧
    (s.phase = .maintain →
      (t.phase = .maintain ∧ t.remaining ≠ 0) ∨
        (t.phase = .search ∧ t.remaining = 0 ∧ t.waitingBytes ≠ 0) ∨
        (t.phase = .terminate ∧ t.remaining = 0 ∧ t.waitingBytes = 0) ∨
        (t.phase = .maintain ∧ s.input.srcHold = true)) ∧
    (s.phase = .terminate →
      t.phase = .done ∨ (t.phase = .fault ∧ t.faultCode = 1) ∨
        (t.phase = .terminate ∧ s.input.snkHold = true))

/-- 70_reset_and_hazards.md R150, 60_exceptions.md R134: `reset` wins over everything. -/
def Obligations.ResetWinsOverEverything : Prop :=
  ∀ s : State, s.input.reset = true →
    ∃ t, step s = .next t ∧ t.phase = .idle ∧ t.faultCode = 0 ∧ t.srcReq = false ∧
      t.snkReq = false ∧ t.busy = false ∧ t.done = false ∧ t.fault = false

/-- 60_exceptions.md R140 (when a step waits: log 11): while the answer an operation needs is withheld,
the step only raises the request, and `snk_byte` shows the byte that will be pushed first. -/
def Obligations.WithheldAnswerOnlyRaisesTheRequest : Prop :=
  ∀ s : State, s.issue = none → s.input.reset = false →
    let u := { s with inputs := s.inputs.tail }
    ((s.phase = .prime ∨ s.phase = .maintain) → s.input.srcHold = true →
      step s = .next { u with srcReq := true }) ∧
    (∀ i, s.sequenced = some i → (s.phase = .emit ∨ s.phase = .terminate) →
      s.input.snkHold = true →
      ∃ b, step s = .next { u with snkReq := true, snkByte := b } ∧
        ∀ t, exec i { u with outCap := none } = .next t → ∃ more, t.out = s.out ++ b :: more)

/-- 43_encoder.md R121: how long an answer takes changes nothing but when the step happens. -/
def Obligations.DelayDoesNotChangeTheStep : Prop :=
  ∀ (s : State) (p q : PortInput) (rest : List PortInput), s.issue = none →
    s.inputs = p :: q :: rest → p.reset = false → q.srcHold = false → q.snkHold = false →
    ((s.phase = .prime ∨ s.phase = .maintain) ∧ p.srcHold = true ∨
      (s.phase = .emit ∨ s.phase = .terminate) ∧ p.snkHold = true) →
    ∃ t, step s = .next t ∧ step t = step { s with inputs := q :: rest }

/-! ### Invariants -/

/-- Every step of every kind, reset and presented words included, keeps the memories canonical (the form
and the memories' contents after reset are the model's: log 7, log 8). -/
def Obligations.EveryStepKeepsTheMemoriesCanonical : Prop :=
  ∀ s t : State, s.memWf → step s = .next t → t.memWf

/-- The state after power-on reset meets the invariant. `phase`, `fault_code` and the requests are
70_reset_and_hazards.md R150's; the other registers and the memories are unspecified there, and that
they meet the invariant rests on the model's choice of 0 and empty (log 6, log 7). -/
def Obligations.ResetMeetsTheInvariant : Prop :=
  State.Inv State.reset

/-- Every step keeps the invariant: 10_state.md R22, R25 to R27, R29, R32; 20_memory.md R54;
41_window.md R94; 43_encoder.md R125. For a step with `reset` asserted, which leaves the rest unspecified
(70_reset_and_hazards.md R150), the ranges, the clean `acc`, the counted `out_len`, the sentinel links and
the canonical memories rest on the model's choice of the values of State.reset (log 8). -/
def Obligations.EveryStepKeepsTheInvariant : Prop :=
  ∀ s t : State, s.Inv → step s = .next t → t.Inv

/-- Under the invariant the sequencer issues each operation at its precondition, and never stops. -/
def Obligations.OperationsAreIssuedAtTheirPreconditions : Prop :=
  ∀ s : State, s.Inv →
    (∀ i, s.sequenced = some i → precondition i s = true) ∧ ∃ t, step s = .next t

/-- 41_window.md R95 (a) to (d): the cursor, the lookahead and the past, kept by every step of an
encode of `x`. -/
def Obligations.EveryStepKeepsTheWindowContent : Prop :=
  ∀ (x : List Byte) (s t : State), s.Inv → s.Tracks x → s.busy = true →
    s.input.reset = false → step s = .next t → t.Tracks x

/-- 10_state.md R33, 42_matchindex.md R104, R105: the doubly linked chains, kept by every step of an
encode of `x`. -/
def Obligations.EveryStepKeepsTheIndex : Prop :=
  ∀ (x : List Byte) (s t : State), s.Inv → s.Tracks x → s.Indexed (s.consumed x.length) →
    s.busy = true → s.input.reset = false → step s = .next t → t.Indexed (t.consumed x.length)

/-- 10_state.md R33 (a) to (d), (f); 42_matchindex.md R106: a chain holds members of its key only, each
member of that key, most recent first, none twice, at most 8174. -/
def Obligations.ChainsHoldTheMembersOfTheirKey : Prop :=
  ∀ (n : Nat) (s : State), s.Indexed n → ∀ k,
    (∀ a, a ∈ s.chainFrom k ↔ (∃ d, s.memberAt n d a) ∧ s.keyOf a.toNat = k) ∧
    (s.chainFrom k).Pairwise (fun a b => ∃ d e, d < e ∧ s.memberAt n d a ∧ s.memberAt n e b) ∧
    (s.chainFrom k).Nodup ∧ (s.chainFrom k).length ≤ 8174

/-- What an encode of `n` bytes has written is whole entries for the bytes consumed, and at the end a
complete stream, kept by every step. -/
def Obligations.EveryStepKeepsTheStream : Prop :=
  ∀ (n : Nat) (s t : State), s.Inv → s.Streams n → s.input.asksNothing → step s = .next t →
    t.Streams n

/-! ### Runs -/

/-- 43_encoder.md R121: an encode ends, in a number of steps bounded by its input and the steps in which
an answer may be withheld; without OUT_CAP it ends in DONE. -/
def Obligations.EveryEncodeEnds : Prop :=
  ∀ s : State, s.Inv → s.busy = true → (∀ p ∈ s.inputs, PortInput.asksNothing p) →
    ∃ t, Host.Core.run Sys2Proof.core
        (3 * (s.waitingBytes.toNat + s.src.length) + 3 + s.inputs.length) s = .next t ∧
      (t.phase = .done ∨ t.phase = .fault) ∧ (s.outCap = none → t.phase = .done)

/-- 43_encoder.md R122 (a), (b), (d), (e); 30_encoding.md R65, R66: every finished run emits literal and
match entries that cover the input, one terminator and at most 7 zero bits, and `out_len` counts it. -/
def Obligations.EveryFinishedRunIsACompleteStream : Prop :=
  ∀ (x : List Byte) (cap : Option Nat) (s t : State) (k : Nat), s.Requested x cap → 1 ≤ k →
    Host.Core.run Sys2Proof.core k s = .next t → t.phase = .done → t.completeStream x.length

/-- 43_encoder.md R123: decoding the stream of a finished run with the informative decoder of
95_test_vectors.md section 6 gives the input back. -/
def Obligations.DecodingAFinishedRunGivesTheInputBack : Prop :=
  ∀ (x : List Byte) (cap : Option Nat) (s t : State) (k : Nat), s.Requested x cap → 1 ≤ k →
    Host.Core.run Sys2Proof.core k s = .next t → t.phase = .done → inflate t.out = some x

/-- 43_encoder.md R121, 10_state.md R34: the result depends on the input and the sink's capacity alone,
neither on what the block did before nor on how long the answers take. -/
def Obligations.ResultDependsOnInputAndCapacityAlone : Prop :=
  ∀ (x : List Byte) (cap : Option Nat) (s s' t t' : State) (k k' : Nat),
    s.Requested x cap → s'.Requested x cap → 1 ≤ k → 1 ≤ k' →
    Host.Core.run Sys2Proof.core k s = .next t → Host.Core.run Sys2Proof.core k' s' = .next t' →
    (t.phase = .done ∨ t.phase = .fault) → (t'.phase = .done ∨ t'.phase = .fault) →
    t.phase = t'.phase ∧ t.out = t'.out ∧ t.outLen = t'.outLen
end

