-- ==== Sys2Proof/Laws/Bits.lean ====
section
/-! SUPPORT. Bit lists: the fields of entries and the bytes of the stream. -/

namespace Sys2Proof

@[simp] theorem length_msbBits (n v : Nat) : (msbBits n v).length = n := by
  induction n with
  | zero => rfl
  | succ n ih => simp [msbBits, ih]

theorem getElem?_msbBits {n v i : Nat} (h : i < n) :
    (msbBits n v)[i]? = some (v.testBit (n - 1 - i)) := by
  induction n generalizing i with
  | zero => omega
  | succ n ih =>
    cases i with
    | zero => simp [msbBits]
    | succ i =>
      have : n - (i + 1) = n - 1 - i := by omega
      simp [msbBits, ih (Nat.lt_of_succ_lt_succ h), this]

theorem bitsValue_lt (bs : List Bool) : bitsValue bs < 2 ^ bs.length := by
  induction bs with
  | nil => simp [bitsValue]
  | cons b bs ih =>
    simp only [bitsValue, List.length_cons, pow_succ]
    cases b <;> simp <;> omega

/-- A field read back from its bits. -/
theorem bitsValue_msbBits (n v : Nat) : bitsValue (msbBits n v) = v % 2 ^ n := by
  induction n with
  | zero => simp [msbBits, bitsValue, Nat.mod_one]
  | succ n ih =>
    have hb : v.testBit n = decide (v / 2 ^ n % 2 = 1) := Nat.testBit_eq_decide_div_mod_eq
    have hm : v % 2 ^ (n + 1) = v % 2 ^ n + 2 ^ n * (v / 2 ^ n % 2) := by
      rw [pow_succ, Nat.mod_mul]
    simp only [msbBits, bitsValue, length_msbBits, ih, hb, hm]
    rcases Nat.mod_two_eq_zero_or_one (v / 2 ^ n) with h | h <;> simp [h, Nat.add_comm]

/-- The bits of a number made from bits. -/
theorem msbBits_bitsValue (bs : List Bool) : msbBits bs.length (bitsValue bs) = bs := by
  have key : ∀ (bs : List Bool) (k : Nat), msbBits bs.length (bitsValue bs + k * 2 ^ bs.length) = bs := by
    intro bs
    induction bs with
    | nil => intro k; rfl
    | cons b bs ih =>
      intro k
      have hlt := bitsValue_lt bs
      have hpos : 0 < 2 ^ bs.length := by positivity
      have hsum : bitsValue (b :: bs) + k * 2 ^ (b :: bs).length =
          bitsValue bs + (b.toNat + 2 * k) * 2 ^ bs.length := by
        simp only [bitsValue, List.length_cons, pow_succ]; ring
      have htest : (bitsValue bs + (b.toNat + 2 * k) * 2 ^ bs.length).testBit bs.length = b := by
        rw [Nat.testBit_eq_decide_div_mod_eq, Nat.add_mul_div_right _ _ hpos, Nat.div_eq_of_lt hlt]
        cases b <;> simp
      rw [hsum]
      simp only [List.length_cons, msbBits, htest, ih]
  simpa using key bs 0

@[simp] theorem length_byteBits (b : Byte) : (byteBits b).length = 8 := length_msbBits 8 _

theorem getElem?_byteBits {b : Byte} {i : Nat} (h : i < 8) :
    (byteBits b)[i]? = some (b.getLsbD (7 - i)) := by
  simp [byteBits, getElem?_msbBits h, BitVec.testBit_toNat]

theorem length_bitsOfBytes (bytes : List Byte) : (bitsOfBytes bytes).length = 8 * bytes.length := by
  induction bytes with
  | nil => rfl
  | cons b bs ih =>
    simp only [bitsOfBytes, List.flatMap_cons, List.length_append, length_byteBits,
      List.length_cons] at ih ⊢
    omega

theorem bitsOfBytes_append (xs ys : List Byte) :
    bitsOfBytes (xs ++ ys) = bitsOfBytes xs ++ bitsOfBytes ys := by
  simp [bitsOfBytes]

namespace Machine

theorem State.accClean_iff (s : State) :
    s.accClean ↔ ∀ i, i < 8 - s.nbits.toNat → s.acc.getLsbD i = false := by
  unfold State.accClean
  constructor
  · intro h i hi
    have := Nat.testBit_mod_two_pow s.acc.toNat (8 - s.nbits.toNat) i
    rw [h] at this
    simpa [hi, BitVec.testBit_toNat] using this.symm
  · intro h
    apply Nat.eq_of_testBit_eq
    intro i
    rw [Nat.testBit_mod_two_pow]
    by_cases hi : i < 8 - s.nbits.toNat
    · simpa [hi, BitVec.testBit_toNat] using h i hi
    · simp [hi]

theorem getLsbD_bitBelow (b : Bool) (n : BitVec 3) (i : Nat) :
    (bitBelow b n).getLsbD i = (decide (i = 7 - n.toNat) && b) := by
  have hn := n.isLt
  unfold bitBelow
  cases b with
  | false => simp
  | true =>
    rw [BitVec.getLsbD_ofNat]
    simp only [Bool.toNat_true, Nat.one_shiftLeft, Nat.testBit_two_pow, Bool.and_true]
    by_cases h : 7 - n.toNat = i
    · simp [h]; omega
    · have : ¬ i = 7 - n.toNat := fun e => h e.symm
      simp [h, this]

/-- A bit lands right below the bits already placed (40_bitwriter.md R80). -/
theorem take_byteBits_bitBelow {s : State} (h : s.accClean) (b : Bool) :
    (byteBits (s.acc ||| bitBelow b s.nbits)).take (s.nbits.toNat + 1) =
      (byteBits s.acc).take s.nbits.toNat ++ [b] := by
  have hn := s.nbits.isLt
  have hc := (s.accClean_iff).1 h
  apply List.ext_getElem?
  intro i
  rcases Nat.lt_trichotomy i s.nbits.toNat with hi | rfl | hi
  · rw [List.getElem?_take_of_lt (by omega), List.getElem?_append_left (by simp; omega),
      List.getElem?_take_of_lt hi, getElem?_byteBits (by omega), getElem?_byteBits (by omega),
      BitVec.getLsbD_or, getLsbD_bitBelow]
    have : ¬ 7 - i = 7 - s.nbits.toNat := by omega
    simp [this]
  · rw [List.getElem?_take_of_lt (by omega), List.getElem?_append_right (by simp),
      getElem?_byteBits (by omega), BitVec.getLsbD_or, getLsbD_bitBelow, hc _ (by omega)]
    have : min s.nbits.toNat 8 = s.nbits.toNat := by omega
    simp [this]
  · rw [List.getElem?_eq_none (by simp; omega), List.getElem?_eq_none (by simp; omega)]

end Machine

end Sys2Proof
end

