-- ==== Sys2Proof/Laws/State.lean ====
section
/-! SUPPORT. Each named update of State, field by field: true by unfolding, so that no proof unfolds
a record update. -/

namespace Sys2Proof.Machine

/-! ### writeW -/
@[simp] theorem State.writeW_window (s : State) (a : Addr) (b : Byte) :
    (s.writeW a b).window = s.window.write a.toNat b := rfl
@[simp] theorem State.writeW_dictHead (s : State) (a : Addr) (b : Byte) :
    (s.writeW a b).dictHead = s.dictHead := rfl
@[simp] theorem State.writeW_waitingBytes (s : State) (a : Addr) (b : Byte) :
    (s.writeW a b).waitingBytes = s.waitingBytes := rfl
@[simp] theorem State.writeW_hash (s : State) (a : Addr) (b : Byte) :
    (s.writeW a b).hash = s.hash := rfl
@[simp] theorem State.writeW_prev (s : State) (a : Addr) (b : Byte) :
    (s.writeW a b).prev = s.prev := rfl
@[simp] theorem State.writeW_next (s : State) (a : Addr) (b : Byte) :
    (s.writeW a b).next = s.next := rfl
@[simp] theorem State.writeW_acc (s : State) (a : Addr) (b : Byte) :
    (s.writeW a b).acc = s.acc := rfl
@[simp] theorem State.writeW_nbits (s : State) (a : Addr) (b : Byte) :
    (s.writeW a b).nbits = s.nbits := rfl
@[simp] theorem State.writeW_outLen (s : State) (a : Addr) (b : Byte) :
    (s.writeW a b).outLen = s.outLen := rfl
@[simp] theorem State.writeW_bestLen (s : State) (a : Addr) (b : Byte) :
    (s.writeW a b).bestLen = s.bestLen := rfl
@[simp] theorem State.writeW_bestAddr (s : State) (a : Addr) (b : Byte) :
    (s.writeW a b).bestAddr = s.bestAddr := rfl
@[simp] theorem State.writeW_remaining (s : State) (a : Addr) (b : Byte) :
    (s.writeW a b).remaining = s.remaining := rfl
@[simp] theorem State.writeW_phase (s : State) (a : Addr) (b : Byte) :
    (s.writeW a b).phase = s.phase := rfl
@[simp] theorem State.writeW_faultCode (s : State) (a : Addr) (b : Byte) :
    (s.writeW a b).faultCode = s.faultCode := rfl
@[simp] theorem State.writeW_srcReq (s : State) (a : Addr) (b : Byte) :
    (s.writeW a b).srcReq = s.srcReq := rfl
@[simp] theorem State.writeW_snkReq (s : State) (a : Addr) (b : Byte) :
    (s.writeW a b).snkReq = s.snkReq := rfl
@[simp] theorem State.writeW_snkByte (s : State) (a : Addr) (b : Byte) :
    (s.writeW a b).snkByte = s.snkByte := rfl
@[simp] theorem State.writeW_src (s : State) (a : Addr) (b : Byte) :
    (s.writeW a b).src = s.src := rfl
@[simp] theorem State.writeW_out (s : State) (a : Addr) (b : Byte) :
    (s.writeW a b).out = s.out := rfl
@[simp] theorem State.writeW_outCap (s : State) (a : Addr) (b : Byte) :
    (s.writeW a b).outCap = s.outCap := rfl
@[simp] theorem State.writeW_inputs (s : State) (a : Addr) (b : Byte) :
    (s.writeW a b).inputs = s.inputs := rfl
@[simp] theorem State.writeW_issue (s : State) (a : Addr) (b : Byte) :
    (s.writeW a b).issue = s.issue := rfl
@[simp] theorem State.writeW_result (s : State) (a : Addr) (b : Byte) :
    (s.writeW a b).result = s.result := rfl
@[simp] theorem State.writeW_freeIndex (s : State) (a : Addr) (b : Byte) :
    (s.writeW a b).freeIndex = s.freeIndex := rfl

/-! ### writeHash -/
@[simp] theorem State.writeHash_window (s : State) (k : Key) (a : Addr) :
    (s.writeHash k a).window = s.window := rfl
@[simp] theorem State.writeHash_dictHead (s : State) (k : Key) (a : Addr) :
    (s.writeHash k a).dictHead = s.dictHead := rfl
@[simp] theorem State.writeHash_waitingBytes (s : State) (k : Key) (a : Addr) :
    (s.writeHash k a).waitingBytes = s.waitingBytes := rfl
@[simp] theorem State.writeHash_hash (s : State) (k : Key) (a : Addr) :
    (s.writeHash k a).hash = s.hash.write k.toNat a := rfl
@[simp] theorem State.writeHash_prev (s : State) (k : Key) (a : Addr) :
    (s.writeHash k a).prev = s.prev := rfl
@[simp] theorem State.writeHash_next (s : State) (k : Key) (a : Addr) :
    (s.writeHash k a).next = s.next := rfl
@[simp] theorem State.writeHash_acc (s : State) (k : Key) (a : Addr) :
    (s.writeHash k a).acc = s.acc := rfl
@[simp] theorem State.writeHash_nbits (s : State) (k : Key) (a : Addr) :
    (s.writeHash k a).nbits = s.nbits := rfl
@[simp] theorem State.writeHash_outLen (s : State) (k : Key) (a : Addr) :
    (s.writeHash k a).outLen = s.outLen := rfl
@[simp] theorem State.writeHash_bestLen (s : State) (k : Key) (a : Addr) :
    (s.writeHash k a).bestLen = s.bestLen := rfl
@[simp] theorem State.writeHash_bestAddr (s : State) (k : Key) (a : Addr) :
    (s.writeHash k a).bestAddr = s.bestAddr := rfl
@[simp] theorem State.writeHash_remaining (s : State) (k : Key) (a : Addr) :
    (s.writeHash k a).remaining = s.remaining := rfl
@[simp] theorem State.writeHash_phase (s : State) (k : Key) (a : Addr) :
    (s.writeHash k a).phase = s.phase := rfl
@[simp] theorem State.writeHash_faultCode (s : State) (k : Key) (a : Addr) :
    (s.writeHash k a).faultCode = s.faultCode := rfl
@[simp] theorem State.writeHash_srcReq (s : State) (k : Key) (a : Addr) :
    (s.writeHash k a).srcReq = s.srcReq := rfl
@[simp] theorem State.writeHash_snkReq (s : State) (k : Key) (a : Addr) :
    (s.writeHash k a).snkReq = s.snkReq := rfl
@[simp] theorem State.writeHash_snkByte (s : State) (k : Key) (a : Addr) :
    (s.writeHash k a).snkByte = s.snkByte := rfl
@[simp] theorem State.writeHash_src (s : State) (k : Key) (a : Addr) :
    (s.writeHash k a).src = s.src := rfl
@[simp] theorem State.writeHash_out (s : State) (k : Key) (a : Addr) :
    (s.writeHash k a).out = s.out := rfl
@[simp] theorem State.writeHash_outCap (s : State) (k : Key) (a : Addr) :
    (s.writeHash k a).outCap = s.outCap := rfl
@[simp] theorem State.writeHash_inputs (s : State) (k : Key) (a : Addr) :
    (s.writeHash k a).inputs = s.inputs := rfl
@[simp] theorem State.writeHash_issue (s : State) (k : Key) (a : Addr) :
    (s.writeHash k a).issue = s.issue := rfl
@[simp] theorem State.writeHash_result (s : State) (k : Key) (a : Addr) :
    (s.writeHash k a).result = s.result := rfl
@[simp] theorem State.writeHash_freeIndex (s : State) (k : Key) (a : Addr) :
    (s.writeHash k a).freeIndex = s.freeIndex := rfl

/-! ### writePrev -/
@[simp] theorem State.writePrev_window (s : State) (a b : Addr) :
    (s.writePrev a b).window = s.window := rfl
@[simp] theorem State.writePrev_dictHead (s : State) (a b : Addr) :
    (s.writePrev a b).dictHead = s.dictHead := rfl
@[simp] theorem State.writePrev_waitingBytes (s : State) (a b : Addr) :
    (s.writePrev a b).waitingBytes = s.waitingBytes := rfl
@[simp] theorem State.writePrev_hash (s : State) (a b : Addr) :
    (s.writePrev a b).hash = s.hash := rfl
@[simp] theorem State.writePrev_prev (s : State) (a b : Addr) :
    (s.writePrev a b).prev = s.prev.write a.toNat b := rfl
@[simp] theorem State.writePrev_next (s : State) (a b : Addr) :
    (s.writePrev a b).next = s.next := rfl
@[simp] theorem State.writePrev_acc (s : State) (a b : Addr) :
    (s.writePrev a b).acc = s.acc := rfl
@[simp] theorem State.writePrev_nbits (s : State) (a b : Addr) :
    (s.writePrev a b).nbits = s.nbits := rfl
@[simp] theorem State.writePrev_outLen (s : State) (a b : Addr) :
    (s.writePrev a b).outLen = s.outLen := rfl
@[simp] theorem State.writePrev_bestLen (s : State) (a b : Addr) :
    (s.writePrev a b).bestLen = s.bestLen := rfl
@[simp] theorem State.writePrev_bestAddr (s : State) (a b : Addr) :
    (s.writePrev a b).bestAddr = s.bestAddr := rfl
@[simp] theorem State.writePrev_remaining (s : State) (a b : Addr) :
    (s.writePrev a b).remaining = s.remaining := rfl
@[simp] theorem State.writePrev_phase (s : State) (a b : Addr) :
    (s.writePrev a b).phase = s.phase := rfl
@[simp] theorem State.writePrev_faultCode (s : State) (a b : Addr) :
    (s.writePrev a b).faultCode = s.faultCode := rfl
@[simp] theorem State.writePrev_srcReq (s : State) (a b : Addr) :
    (s.writePrev a b).srcReq = s.srcReq := rfl
@[simp] theorem State.writePrev_snkReq (s : State) (a b : Addr) :
    (s.writePrev a b).snkReq = s.snkReq := rfl
@[simp] theorem State.writePrev_snkByte (s : State) (a b : Addr) :
    (s.writePrev a b).snkByte = s.snkByte := rfl
@[simp] theorem State.writePrev_src (s : State) (a b : Addr) :
    (s.writePrev a b).src = s.src := rfl
@[simp] theorem State.writePrev_out (s : State) (a b : Addr) :
    (s.writePrev a b).out = s.out := rfl
@[simp] theorem State.writePrev_outCap (s : State) (a b : Addr) :
    (s.writePrev a b).outCap = s.outCap := rfl
@[simp] theorem State.writePrev_inputs (s : State) (a b : Addr) :
    (s.writePrev a b).inputs = s.inputs := rfl
@[simp] theorem State.writePrev_issue (s : State) (a b : Addr) :
    (s.writePrev a b).issue = s.issue := rfl
@[simp] theorem State.writePrev_result (s : State) (a b : Addr) :
    (s.writePrev a b).result = s.result := rfl
@[simp] theorem State.writePrev_freeIndex (s : State) (a b : Addr) :
    (s.writePrev a b).freeIndex = s.freeIndex := rfl

/-! ### writeNext -/
@[simp] theorem State.writeNext_window (s : State) (a b : Addr) :
    (s.writeNext a b).window = s.window := rfl
@[simp] theorem State.writeNext_dictHead (s : State) (a b : Addr) :
    (s.writeNext a b).dictHead = s.dictHead := rfl
@[simp] theorem State.writeNext_waitingBytes (s : State) (a b : Addr) :
    (s.writeNext a b).waitingBytes = s.waitingBytes := rfl
@[simp] theorem State.writeNext_hash (s : State) (a b : Addr) :
    (s.writeNext a b).hash = s.hash := rfl
@[simp] theorem State.writeNext_prev (s : State) (a b : Addr) :
    (s.writeNext a b).prev = s.prev := rfl
@[simp] theorem State.writeNext_next (s : State) (a b : Addr) :
    (s.writeNext a b).next = s.next.write a.toNat b := rfl
@[simp] theorem State.writeNext_acc (s : State) (a b : Addr) :
    (s.writeNext a b).acc = s.acc := rfl
@[simp] theorem State.writeNext_nbits (s : State) (a b : Addr) :
    (s.writeNext a b).nbits = s.nbits := rfl
@[simp] theorem State.writeNext_outLen (s : State) (a b : Addr) :
    (s.writeNext a b).outLen = s.outLen := rfl
@[simp] theorem State.writeNext_bestLen (s : State) (a b : Addr) :
    (s.writeNext a b).bestLen = s.bestLen := rfl
@[simp] theorem State.writeNext_bestAddr (s : State) (a b : Addr) :
    (s.writeNext a b).bestAddr = s.bestAddr := rfl
@[simp] theorem State.writeNext_remaining (s : State) (a b : Addr) :
    (s.writeNext a b).remaining = s.remaining := rfl
@[simp] theorem State.writeNext_phase (s : State) (a b : Addr) :
    (s.writeNext a b).phase = s.phase := rfl
@[simp] theorem State.writeNext_faultCode (s : State) (a b : Addr) :
    (s.writeNext a b).faultCode = s.faultCode := rfl
@[simp] theorem State.writeNext_srcReq (s : State) (a b : Addr) :
    (s.writeNext a b).srcReq = s.srcReq := rfl
@[simp] theorem State.writeNext_snkReq (s : State) (a b : Addr) :
    (s.writeNext a b).snkReq = s.snkReq := rfl
@[simp] theorem State.writeNext_snkByte (s : State) (a b : Addr) :
    (s.writeNext a b).snkByte = s.snkByte := rfl
@[simp] theorem State.writeNext_src (s : State) (a b : Addr) :
    (s.writeNext a b).src = s.src := rfl
@[simp] theorem State.writeNext_out (s : State) (a b : Addr) :
    (s.writeNext a b).out = s.out := rfl
@[simp] theorem State.writeNext_outCap (s : State) (a b : Addr) :
    (s.writeNext a b).outCap = s.outCap := rfl
@[simp] theorem State.writeNext_inputs (s : State) (a b : Addr) :
    (s.writeNext a b).inputs = s.inputs := rfl
@[simp] theorem State.writeNext_issue (s : State) (a b : Addr) :
    (s.writeNext a b).issue = s.issue := rfl
@[simp] theorem State.writeNext_result (s : State) (a b : Addr) :
    (s.writeNext a b).result = s.result := rfl
@[simp] theorem State.writeNext_freeIndex (s : State) (a b : Addr) :
    (s.writeNext a b).freeIndex = s.freeIndex := rfl

/-! ### raiseFault -/
@[simp] theorem State.raiseFault_window (s : State) (c : BitVec 2) :
    (s.raiseFault c).window = s.window := rfl
@[simp] theorem State.raiseFault_dictHead (s : State) (c : BitVec 2) :
    (s.raiseFault c).dictHead = s.dictHead := rfl
@[simp] theorem State.raiseFault_waitingBytes (s : State) (c : BitVec 2) :
    (s.raiseFault c).waitingBytes = s.waitingBytes := rfl
@[simp] theorem State.raiseFault_hash (s : State) (c : BitVec 2) :
    (s.raiseFault c).hash = s.hash := rfl
@[simp] theorem State.raiseFault_prev (s : State) (c : BitVec 2) :
    (s.raiseFault c).prev = s.prev := rfl
@[simp] theorem State.raiseFault_next (s : State) (c : BitVec 2) :
    (s.raiseFault c).next = s.next := rfl
@[simp] theorem State.raiseFault_acc (s : State) (c : BitVec 2) :
    (s.raiseFault c).acc = s.acc := rfl
@[simp] theorem State.raiseFault_nbits (s : State) (c : BitVec 2) :
    (s.raiseFault c).nbits = s.nbits := rfl
@[simp] theorem State.raiseFault_outLen (s : State) (c : BitVec 2) :
    (s.raiseFault c).outLen = s.outLen := rfl
@[simp] theorem State.raiseFault_bestLen (s : State) (c : BitVec 2) :
    (s.raiseFault c).bestLen = s.bestLen := rfl
@[simp] theorem State.raiseFault_bestAddr (s : State) (c : BitVec 2) :
    (s.raiseFault c).bestAddr = s.bestAddr := rfl
@[simp] theorem State.raiseFault_remaining (s : State) (c : BitVec 2) :
    (s.raiseFault c).remaining = s.remaining := rfl
@[simp] theorem State.raiseFault_phase (s : State) (c : BitVec 2) :
    (s.raiseFault c).phase = .fault := rfl
@[simp] theorem State.raiseFault_faultCode (s : State) (c : BitVec 2) :
    (s.raiseFault c).faultCode = c := rfl
@[simp] theorem State.raiseFault_srcReq (s : State) (c : BitVec 2) :
    (s.raiseFault c).srcReq = s.srcReq := rfl
@[simp] theorem State.raiseFault_snkReq (s : State) (c : BitVec 2) :
    (s.raiseFault c).snkReq = s.snkReq := rfl
@[simp] theorem State.raiseFault_snkByte (s : State) (c : BitVec 2) :
    (s.raiseFault c).snkByte = s.snkByte := rfl
@[simp] theorem State.raiseFault_src (s : State) (c : BitVec 2) :
    (s.raiseFault c).src = s.src := rfl
@[simp] theorem State.raiseFault_out (s : State) (c : BitVec 2) :
    (s.raiseFault c).out = s.out := rfl
@[simp] theorem State.raiseFault_outCap (s : State) (c : BitVec 2) :
    (s.raiseFault c).outCap = s.outCap := rfl
@[simp] theorem State.raiseFault_inputs (s : State) (c : BitVec 2) :
    (s.raiseFault c).inputs = s.inputs := rfl
@[simp] theorem State.raiseFault_issue (s : State) (c : BitVec 2) :
    (s.raiseFault c).issue = s.issue := rfl
@[simp] theorem State.raiseFault_result (s : State) (c : BitVec 2) :
    (s.raiseFault c).result = s.result := rfl
@[simp] theorem State.raiseFault_freeIndex (s : State) (c : BitVec 2) :
    (s.raiseFault c).freeIndex = s.freeIndex := rfl

/-! ### drawFree -/
@[simp] theorem State.drawFree_window (s : State) :
    (s.drawFree).window = s.window := rfl
@[simp] theorem State.drawFree_dictHead (s : State) :
    (s.drawFree).dictHead = s.dictHead := rfl
@[simp] theorem State.drawFree_waitingBytes (s : State) :
    (s.drawFree).waitingBytes = s.waitingBytes := rfl
@[simp] theorem State.drawFree_hash (s : State) :
    (s.drawFree).hash = s.hash := rfl
@[simp] theorem State.drawFree_prev (s : State) :
    (s.drawFree).prev = s.prev := rfl
@[simp] theorem State.drawFree_next (s : State) :
    (s.drawFree).next = s.next := rfl
@[simp] theorem State.drawFree_acc (s : State) :
    (s.drawFree).acc = s.acc := rfl
@[simp] theorem State.drawFree_nbits (s : State) :
    (s.drawFree).nbits = s.nbits := rfl
@[simp] theorem State.drawFree_outLen (s : State) :
    (s.drawFree).outLen = s.outLen := rfl
@[simp] theorem State.drawFree_bestLen (s : State) :
    (s.drawFree).bestLen = s.bestLen := rfl
@[simp] theorem State.drawFree_bestAddr (s : State) :
    (s.drawFree).bestAddr = s.bestAddr := rfl
@[simp] theorem State.drawFree_remaining (s : State) :
    (s.drawFree).remaining = s.remaining := rfl
@[simp] theorem State.drawFree_phase (s : State) :
    (s.drawFree).phase = s.phase := rfl
@[simp] theorem State.drawFree_faultCode (s : State) :
    (s.drawFree).faultCode = s.faultCode := rfl
@[simp] theorem State.drawFree_srcReq (s : State) :
    (s.drawFree).srcReq = s.srcReq := rfl
@[simp] theorem State.drawFree_snkReq (s : State) :
    (s.drawFree).snkReq = s.snkReq := rfl
@[simp] theorem State.drawFree_snkByte (s : State) :
    (s.drawFree).snkByte = s.snkByte := rfl
@[simp] theorem State.drawFree_src (s : State) :
    (s.drawFree).src = s.src := rfl
@[simp] theorem State.drawFree_out (s : State) :
    (s.drawFree).out = s.out := rfl
@[simp] theorem State.drawFree_outCap (s : State) :
    (s.drawFree).outCap = s.outCap := rfl
@[simp] theorem State.drawFree_inputs (s : State) :
    (s.drawFree).inputs = s.inputs := rfl
@[simp] theorem State.drawFree_issue (s : State) :
    (s.drawFree).issue = s.issue := rfl
@[simp] theorem State.drawFree_result (s : State) :
    (s.drawFree).result = s.result := rfl
@[simp] theorem State.drawFree_freeIndex (s : State) :
    (s.drawFree).freeIndex = s.freeIndex + 1 := rfl

/-! ### nextInput -/
@[simp] theorem State.nextInput_window (s : State) :
    (s.nextInput).window = s.window := rfl
@[simp] theorem State.nextInput_dictHead (s : State) :
    (s.nextInput).dictHead = s.dictHead := rfl
@[simp] theorem State.nextInput_waitingBytes (s : State) :
    (s.nextInput).waitingBytes = s.waitingBytes := rfl
@[simp] theorem State.nextInput_hash (s : State) :
    (s.nextInput).hash = s.hash := rfl
@[simp] theorem State.nextInput_prev (s : State) :
    (s.nextInput).prev = s.prev := rfl
@[simp] theorem State.nextInput_next (s : State) :
    (s.nextInput).next = s.next := rfl
@[simp] theorem State.nextInput_acc (s : State) :
    (s.nextInput).acc = s.acc := rfl
@[simp] theorem State.nextInput_nbits (s : State) :
    (s.nextInput).nbits = s.nbits := rfl
@[simp] theorem State.nextInput_outLen (s : State) :
    (s.nextInput).outLen = s.outLen := rfl
@[simp] theorem State.nextInput_bestLen (s : State) :
    (s.nextInput).bestLen = s.bestLen := rfl
@[simp] theorem State.nextInput_bestAddr (s : State) :
    (s.nextInput).bestAddr = s.bestAddr := rfl
@[simp] theorem State.nextInput_remaining (s : State) :
    (s.nextInput).remaining = s.remaining := rfl
@[simp] theorem State.nextInput_phase (s : State) :
    (s.nextInput).phase = s.phase := rfl
@[simp] theorem State.nextInput_faultCode (s : State) :
    (s.nextInput).faultCode = s.faultCode := rfl
@[simp] theorem State.nextInput_srcReq (s : State) :
    (s.nextInput).srcReq = s.srcReq := rfl
@[simp] theorem State.nextInput_snkReq (s : State) :
    (s.nextInput).snkReq = s.snkReq := rfl
@[simp] theorem State.nextInput_snkByte (s : State) :
    (s.nextInput).snkByte = s.snkByte := rfl
@[simp] theorem State.nextInput_src (s : State) :
    (s.nextInput).src = s.src := rfl
@[simp] theorem State.nextInput_out (s : State) :
    (s.nextInput).out = s.out := rfl
@[simp] theorem State.nextInput_outCap (s : State) :
    (s.nextInput).outCap = s.outCap := rfl
@[simp] theorem State.nextInput_inputs (s : State) :
    (s.nextInput).inputs = s.inputs.tail := rfl
@[simp] theorem State.nextInput_issue (s : State) :
    (s.nextInput).issue = s.issue := rfl
@[simp] theorem State.nextInput_result (s : State) :
    (s.nextInput).result = s.result := rfl
@[simp] theorem State.nextInput_freeIndex (s : State) :
    (s.nextInput).freeIndex = s.freeIndex := rfl

end Sys2Proof.Machine
end

