-- ==== Sys2Proof/Laws/Memory.lean ====
section
/-! SUPPORT. The memories: read after write, other entries untouched, canonical form kept. The read
laws need no canonical form. -/

namespace Sys2Proof.Machine

/-- At width 8 a memory is a list of the host's cells. -/
theorem memory_eight_is_cells : Memory 8 = List Host.Cell := rfl

namespace Memory

variable {w : Nat}

@[simp] theorem read_nil (a : Nat) : Memory.read ([] : Memory w) a = 0 := rfl

theorem read_erase (m : Memory w) (a b : Nat) :
    (m.erase a).read b = if b = a then 0 else m.read b := by
  induction m with
  | nil => simp [erase]
  | cons c rest ih =>
    obtain ⟨k, x⟩ := c
    by_cases hk : k = a
    · have : Memory.erase ((k, x) :: rest) a = Memory.erase rest a := by simp [erase, hk]
      rw [this, ih]
      by_cases hb : b = a
      · simp [hb]
      · have : ¬ k = b := fun h => hb (h ▸ hk)
        simp [hb, read, this]
    · have : Memory.erase ((k, x) :: rest) a = (k, x) :: Memory.erase rest a := by
        simp [erase, hk]
      rw [this]
      by_cases hkb : k = b
      · have : ¬ b = a := fun h => hk (hkb.trans h)
        simp [read, hkb, this]
      · simp [read, hkb, ih]

theorem read_place (m : Memory w) (a b : Nat) (v : BitVec w) (hm : ∀ c ∈ m, c.1 ≠ a) :
    (m.place a v).read b = if b = a then v else m.read b := by
  induction m with
  | nil =>
    by_cases hb : b = a
    · simp [place, read, hb]
    · simp [place, read, hb, Ne.symm hb]
  | cons c rest ih =>
    obtain ⟨k, x⟩ := c
    have hka : k ≠ a := hm (k, x) (by simp)
    have ih := ih fun c hc => hm c (by simp [hc])
    by_cases hlt : a < k
    · by_cases hb : b = a
      · simp [place, hlt, read, hb]
      · simp [place, hlt, read, hb, Ne.symm hb]
    · by_cases hkb : k = b
      · subst hkb
        simp [place, hlt, read, hka]
      · simp [place, hlt, read, hkb, ih]

theorem erase_ne (m : Memory w) (a : Nat) : ∀ c ∈ m.erase a, c.1 ≠ a := by
  intro c hc
  simpa [erase] using (List.mem_filter.1 hc).2

/-- Read after write. -/
theorem read_write (m : Memory w) (a b : Nat) (v : BitVec w) :
    (m.write a v).read b = if b = a then v else m.read b := by
  unfold write
  split
  · next h => rw [read_erase, h]; rfl
  · rw [read_place _ _ _ _ (erase_ne m a), read_erase]
    split <;> simp_all

theorem mem_place {m : Memory w} {a : Nat} {v : BitVec w} {c : Nat × BitVec w} :
    c ∈ m.place a v ↔ c = (a, v) ∨ c ∈ m := by
  induction m with
  | nil => simp [place]
  | cons d rest ih =>
    obtain ⟨k, x⟩ := d
    by_cases hlt : a < k
    · simp [place, hlt]
    · simp only [place, hlt, if_false, List.mem_cons, ih]
      tauto

theorem erase_wf {n : Nat} {m : Memory w} (h : m.wf n) (a : Nat) : (m.erase a).wf n :=
  ⟨h.1.filter _, fun c hc => h.2 c (List.mem_filter.1 hc).1⟩

theorem place_sorted {m : Memory w} (h : m.Pairwise (fun c d => c.1 < d.1)) (a : Nat)
    (v : BitVec w) (hm : ∀ c ∈ m, c.1 ≠ a) :
    (m.place a v).Pairwise (fun c d => c.1 < d.1) := by
  induction m with
  | nil => simp [place]
  | cons c rest ih =>
    obtain ⟨k, x⟩ := c
    have hka : k ≠ a := hm (k, x) (by simp)
    have hr := List.pairwise_cons.1 h
    by_cases hlt : a < k
    · simp only [place, hlt, if_true]
      refine List.pairwise_cons.2 ⟨fun d hd => ?_, h⟩
      rcases List.mem_cons.1 hd with rfl | hd
      · exact hlt
      · exact Nat.lt_trans hlt (hr.1 d hd)
    · simp only [place, hlt, if_false]
      refine List.pairwise_cons.2 ⟨fun d hd => ?_, ih hr.2 fun c hc => hm c (by simp [hc])⟩
      rcases mem_place.1 hd with rfl | hd
      · show k < a
        omega
      · exact hr.1 d hd

/-- A write keeps the canonical form. -/
theorem write_wf {n : Nat} {m : Memory w} (h : m.wf n) {a : Nat} (ha : a < n) (v : BitVec w) :
    (m.write a v).wf n := by
  unfold write
  split
  · exact erase_wf h a
  · next hv =>
    have he := erase_wf h a
    refine ⟨place_sorted he.1 a v (erase_ne m a), fun c hc => ?_⟩
    rcases mem_place.1 hc with rfl | hc
    · exact ⟨ha, hv⟩
    · exact he.2 c hc

theorem nil_wf (n : Nat) : Memory.wf n ([] : Memory w) := by
  simp [wf]

end Memory

/-! ### The four memories of the block -/

variable (s : State)

theorem State.readW_writeW (a b : Addr) (x : Byte) :
    (s.writeW a x).readW b = if b = a then x else s.readW b := by
  simp [readW, Memory.read_write, BitVec.toNat_inj]

theorem State.readHash_writeHash (k l : Key) (a : Addr) :
    (s.writeHash k a).readHash l = if l = k then a else s.readHash l := by
  simp [readHash, Memory.read_write, BitVec.toNat_inj]

theorem State.readPrev_writePrev (a b x : Addr) :
    (s.writePrev a x).readPrev b = if b = a then x else s.readPrev b := by
  simp [readPrev, Memory.read_write, BitVec.toNat_inj]

theorem State.readNext_writeNext (a b x : Addr) :
    (s.writeNext a x).readNext b = if b = a then x else s.readNext b := by
  simp [readNext, Memory.read_write, BitVec.toNat_inj]

@[simp] theorem State.readW_writeHash (k : Key) (a b : Addr) :
    (s.writeHash k a).readW b = s.readW b := rfl

@[simp] theorem State.readW_writePrev (a x b : Addr) :
    (s.writePrev a x).readW b = s.readW b := rfl

@[simp] theorem State.readW_writeNext (a x b : Addr) :
    (s.writeNext a x).readW b = s.readW b := rfl

@[simp] theorem State.readHash_writeW (a : Addr) (x : Byte) (k : Key) :
    (s.writeW a x).readHash k = s.readHash k := rfl

@[simp] theorem State.readHash_writePrev (a x : Addr) (k : Key) :
    (s.writePrev a x).readHash k = s.readHash k := rfl

@[simp] theorem State.readHash_writeNext (a x : Addr) (k : Key) :
    (s.writeNext a x).readHash k = s.readHash k := rfl

@[simp] theorem State.readPrev_writeW (a : Addr) (x : Byte) (b : Addr) :
    (s.writeW a x).readPrev b = s.readPrev b := rfl

@[simp] theorem State.readPrev_writeHash (k : Key) (a b : Addr) :
    (s.writeHash k a).readPrev b = s.readPrev b := rfl

@[simp] theorem State.readPrev_writeNext (a x b : Addr) :
    (s.writeNext a x).readPrev b = s.readPrev b := rfl

@[simp] theorem State.readNext_writeW (a : Addr) (x : Byte) (b : Addr) :
    (s.writeW a x).readNext b = s.readNext b := rfl

@[simp] theorem State.readNext_writeHash (k : Key) (a b : Addr) :
    (s.writeHash k a).readNext b = s.readNext b := rfl

@[simp] theorem State.readNext_writePrev (a x b : Addr) :
    (s.writePrev a x).readNext b = s.readNext b := rfl

end Sys2Proof.Machine
end

