-- ==== Sys2Proof/Laws/Index.lean ====
section
/-! SUPPORT. Window addresses, the links of the MatchIndex, and the chain walk. -/

namespace Sys2Proof.Machine

@[simp] theorem toNat_wrap (a : Nat) : (wrap a).toNat = a % 8192 := by
  simp [wrap]

@[simp] theorem toNat_slotAt (a : Addr) (i : Nat) : (slotAt a i).toNat = (a.toNat + i) % 8192 := by
  simp [slotAt]

theorem wrap_toNat (a : Addr) : wrap a.toNat = a := by
  simp [wrap]

theorem slotAt_eq_iff (a b : Addr) (i j : Nat) :
    slotAt a i = slotAt b j ↔ (a.toNat + i) % 8192 = (b.toNat + j) % 8192 := by
  rw [← BitVec.toNat_inj]
  simp

theorem slotAt_slotAt (a : Addr) (i j : Nat) : slotAt (slotAt a i) j = slotAt a (i + j) := by
  rw [slotAt_eq_iff]
  simp
  omega

theorem State.byteAt_toNat_add (s : State) (a : Addr) (i : Nat) :
    s.byteAt (a.toNat + i) = s.readW (slotAt a i) := rfl

/-- The key reads three slots and nothing else of the state (42_matchindex.md R100). -/
theorem State.keyOf_congr {s t : State} {a : Addr}
    (h : ∀ i, i < 3 → t.readW (slotAt a i) = s.readW (slotAt a i)) :
    t.keyOf a.toNat = s.keyOf a.toNat := by
  have h0 := h 0 (by omega)
  have h1 := h 1 (by omega)
  have h2 := h 2 (by omega)
  simp only [slotAt, Nat.add_zero] at h0 h1 h2
  simp only [State.keyOf, State.byteAt, h0, h1, h2]

/-! ### Single writes keep the memories canonical -/

theorem State.writeW_memWf {s : State} (h : s.memWf) (a : Addr) (b : Byte) : (s.writeW a b).memWf :=
  ⟨by simpa using Memory.write_wf h.1 (show a.toNat < Config.nDict from a.isLt) b, h.2⟩

theorem State.writeHash_memWf {s : State} (h : s.memWf) (k : Key) (a : Addr) :
    (s.writeHash k a).memWf :=
  ⟨h.1, by simpa using Memory.write_wf h.2.1 (show k.toNat < Config.nHash from k.isLt) a, h.2.2⟩

theorem State.writePrev_memWf {s : State} (h : s.memWf) (a b : Addr) : (s.writePrev a b).memWf :=
  ⟨h.1, h.2.1, by simpa using Memory.write_wf h.2.2.1 (show a.toNat < Config.nDict from a.isLt) b,
    h.2.2.2⟩

theorem State.writeNext_memWf {s : State} (h : s.memWf) (a b : Addr) : (s.writeNext a b).memWf :=
  ⟨h.1, h.2.1, h.2.2.1,
    by simpa using Memory.write_wf h.2.2.2 (show a.toNat < Config.nDict from a.isLt) b⟩

/-! ### INSERT -/

variable (s : State)

theorem State.insertAt_frame (k : Key) (a : Addr) :
    s.insertAt k a = { s with
      hash := (s.insertAt k a).hash, prev := (s.insertAt k a).prev, next := (s.insertAt k a).next } := by
  simp only [State.insertAt]
  split <;> rfl

theorem State.readHash_insertAt (k l : Key) (a : Addr) :
    (s.insertAt k a).readHash l = if l = k then a else s.readHash l := by
  simp only [State.insertAt, State.readHash_writeHash]
  split
  · rfl
  · split <;> rfl

theorem State.readNext_insertAt (k : Key) (a b : Addr) :
    (s.insertAt k a).readNext b = if b = a then s.readHash k else s.readNext b := by
  simp only [State.insertAt]
  split <;> simp [State.readNext_writeNext]

theorem State.readPrev_insertAt (k : Key) (a b : Addr) :
    (s.insertAt k a).readPrev b =
      if s.readHash k ≠ 0 ∧ b = s.readHash k then a else if b = a then 0 else s.readPrev b := by
  simp only [State.insertAt]
  split
  · next h => simp_all [State.readPrev_writePrev, Config.null]
  · next h => simp_all [State.readPrev_writePrev, Config.null]

theorem State.insertAt_memWf {s : State} (h : s.memWf) (k : Key) (a : Addr) :
    (s.insertAt k a).memWf := by
  have linked := State.writePrev_memWf (State.writeNext_memWf h a (s.readHash k)) a Config.null
  simp only [State.insertAt]
  split
  · exact State.writeHash_memWf linked k a
  · exact State.writeHash_memWf (State.writePrev_memWf linked _ a) k a

/-! ### REMOVE -/

/-- REMOVE clears the one link to the address, or changes nothing (R102). -/
theorem State.removeAt_cases (k : Key) (a : Addr) :
    (s.readPrev a ≠ 0 ∧ s.removeAt k a = s.writeNext (s.readPrev a) 0) ∨
    (s.readPrev a = 0 ∧ s.readHash k = a ∧ s.removeAt k a = s.writeHash k 0) ∨
    (s.readPrev a = 0 ∧ s.readHash k ≠ a ∧ s.removeAt k a = s) := by
  by_cases hp : s.readPrev a = 0
  · right
    by_cases hk : s.readHash k = a
    · left; exact ⟨hp, hk, by simp [State.removeAt, hp, hk, Config.null]⟩
    · right; exact ⟨hp, hk, by simp [State.removeAt, hp, hk, Config.null]⟩
  · left; exact ⟨hp, by simp only [State.removeAt]; rw [if_pos hp]⟩

theorem State.removeAt_frame (k : Key) (a : Addr) :
    s.removeAt k a = { s with hash := (s.removeAt k a).hash, next := (s.removeAt k a).next } := by
  rcases s.removeAt_cases k a with ⟨_, h⟩ | ⟨_, _, h⟩ | ⟨_, _, h⟩ <;> rw [h] <;> rfl

theorem State.removeAt_memWf {s : State} (h : s.memWf) (k : Key) (a : Addr) :
    (s.removeAt k a).memWf := by
  rcases s.removeAt_cases k a with ⟨_, e⟩ | ⟨_, _, e⟩ | ⟨_, _, e⟩ <;> rw [e]
  · exact State.writeNext_memWf h _ _
  · exact State.writeHash_memWf h _ _
  · exact h

/-! ### Chains -/

theorem chainWalk_succ (m : Memory 13) (fuel : Nat) (c : Addr) :
    chainWalk m (fuel + 1) c = if c = 0 then [] else c :: chainWalk m fuel (m.read c.toNat) := rfl

/-- A chain never holds the sentinel (R103; 10_state.md R32). -/
theorem ne_zero_of_mem_chainWalk {m : Memory 13} {fuel : Nat} {c d : Addr}
    (h : d ∈ chainWalk m fuel c) : d ≠ 0 := by
  induction fuel generalizing c with
  | zero => simp [chainWalk] at h
  | succ n ih =>
    rw [chainWalk_succ] at h
    split at h
    · simp at h
    · next hc =>
      rcases List.mem_cons.1 h with rfl | h
      · exact hc
      · exact ih h

theorem length_chainWalk_le (m : Memory 13) (fuel : Nat) (c : Addr) :
    (chainWalk m fuel c).length ≤ fuel := by
  induction fuel generalizing c with
  | zero => simp [chainWalk]
  | succ n ih =>
    rw [chainWalk_succ]
    split
    · simp
    · simpa using ih _

end Sys2Proof.Machine
end

