-- ==== Sys2Proof/Laws/PerInstr.lean ====
section
/-! SUPPORT. For each instruction: its image has the bits that are fixed in its row of
spec/opcode_table.json (30_encoding.md R60, R69, R72). -/

namespace Sys2Proof.Laws.TableBits

/-- The fixed bits of an entry: its length and the bits at its front. -/
def entryFixed (i : Instr) (width : Nat) (front : List Bool) : Prop :=
  (entryBits i).length = width ∧ front <+: entryBits i

/-- The fixed bits of an operation word: the number in bits 3 to 0, zeros in bits 7 to 4. -/
def opFixed (i : Instr) (number : Nat) : Prop :=
  ∃ word, encode i = .op word ∧ word.toNat % 256 = number

/-- The image has its row's fixed bits. -/
def Statement (i : Instr) : Prop :=
  match i with
  | .literal _ => entryFixed i 9 [true]
  | .matchEntry _ _ => entryFixed i 18 [false]
  | .term => entryFixed i 18 (List.replicate 18 false)
  | .start => opFixed i 0
  | .prime => opFixed i 1
  | .byteAt _ => opFixed i 2
  | .advance => opFixed i 3
  | .keyOf _ => opFixed i 4
  | .insert _ _ => opFixed i 5
  | .remove _ _ => opFixed i 6
  | .chainFrom _ => opFixed i 7
  | .matchLen _ => opFixed i 8
  | .search => opFixed i 9
  | .writeBit _ => opFixed i 10
  | .writeBits _ _ => opFixed i 11
  | .finish => opFixed i 12
  | .emitLit => opFixed i 13
  | .emitMatch => opFixed i 14
  | .emitTerm => opFixed i 15

/-- A word made of a number below 16 and operand bits has the number in its low byte. -/
theorem opWord_low (number x : Nat) (h : number < 256) : (opWord number x).toNat % 256 = number := by
  simp only [opWord, BitVec.toNat_ofNat]
  omega

theorem literal (b : Byte) : Statement (.literal b) :=
  ⟨by simp [entryBits, encode, literalBits, length_msbBits], _, rfl⟩

theorem matchEntry (addr : Addr) (lenm3 : LenField) : Statement (.matchEntry addr lenm3) :=
  ⟨by simp [entryBits, encode, matchBits, length_msbBits], _, rfl⟩

theorem term : Statement .term :=
  ⟨rfl, [], rfl⟩

theorem start : Statement .start :=
  ⟨_, rfl, opWord_low 0 _ (by decide)⟩

theorem prime : Statement .prime :=
  ⟨_, rfl, opWord_low 1 _ (by decide)⟩

theorem byteAt (addr : BitVec 16) : Statement (.byteAt addr) :=
  ⟨_, rfl, opWord_low 2 _ (by decide)⟩

theorem advance : Statement .advance :=
  ⟨_, rfl, opWord_low 3 _ (by decide)⟩

theorem keyOf (addr : BitVec 16) : Statement (.keyOf addr) :=
  ⟨_, rfl, opWord_low 4 _ (by decide)⟩

theorem insert (key : Key) (addr : Addr) : Statement (.insert key addr) :=
  ⟨_, rfl, opWord_low 5 _ (by decide)⟩

theorem remove (key : Key) (addr : Addr) : Statement (.remove key addr) :=
  ⟨_, rfl, opWord_low 6 _ (by decide)⟩

theorem chainFrom (key : Key) : Statement (.chainFrom key) :=
  ⟨_, rfl, opWord_low 7 _ (by decide)⟩

theorem matchLen (c : Addr) : Statement (.matchLen c) :=
  ⟨_, rfl, opWord_low 8 _ (by decide)⟩

theorem search : Statement .search :=
  ⟨_, rfl, opWord_low 9 _ (by decide)⟩

theorem writeBit (b : Bool) : Statement (.writeBit b) :=
  ⟨_, rfl, opWord_low 10 _ (by decide)⟩

theorem writeBits (n : BitVec 5) (value : BitVec 16) : Statement (.writeBits n value) :=
  ⟨_, rfl, opWord_low 11 _ (by decide)⟩

theorem finish : Statement .finish :=
  ⟨_, rfl, opWord_low 12 _ (by decide)⟩

theorem emitLit : Statement .emitLit :=
  ⟨_, rfl, opWord_low 13 _ (by decide)⟩

theorem emitMatch : Statement .emitMatch :=
  ⟨_, rfl, opWord_low 14 _ (by decide)⟩

theorem emitTerm : Statement .emitTerm :=
  ⟨_, rfl, opWord_low 15 _ (by decide)⟩

end Sys2Proof.Laws.TableBits
end

