-- ==== Sys2Proof/Laws/Writer.lean ====
section
/-! SUPPORT. The ports and the BitWriter: what each shared operation can do, said once. -/

namespace Sys2Proof.Machine

@[simp] theorem Flow.andThen_completed (s : State) (k : State → Flow) :
    (Flow.completed s).andThen k = k s := rfl

@[simp] theorem Flow.andThen_abandoned (s : State) (k : State → Flow) :
    (Flow.abandoned s).andThen k = .abandoned s := rfl

@[simp] theorem Flow.state_completed (s : State) : (Flow.completed s).state = s := rfl

@[simp] theorem Flow.state_abandoned (s : State) : (Flow.abandoned s).state = s := rfl

theorem Flow.andThen_assoc (f : Flow) (k l : State → Flow) :
    (f.andThen k).andThen l = f.andThen fun s => (k s).andThen l := by
  cases f <;> rfl

/-! ### Frames -/

theorem OnlyWriterAndFault.refl (s : State) : OnlyWriterAndFault s s := rfl

theorem OnlyWriter.refl (s : State) : OnlyWriter s s := rfl

theorem OnlyWriterAndFault.trans {s t u : State} (h : OnlyWriterAndFault s t)
    (k : OnlyWriterAndFault t u) : OnlyWriterAndFault s u := by
  unfold OnlyWriterAndFault at *
  rw [k, h]

theorem OnlyWriter.trans {s t u : State} (h : OnlyWriter s t) (k : OnlyWriter t u) :
    OnlyWriter s u := by
  unfold OnlyWriter at *
  rw [k, h]

theorem OnlyWriter.andFault {s t : State} (h : OnlyWriter s t) : OnlyWriterAndFault s t := by
  unfold OnlyWriterAndFault
  rw [h]

theorem OnlyWriterAndFault.memories {s t : State} (h : OnlyWriterAndFault s t) :
    SameMemories s t := by
  rw [h]
  exact ⟨fun _ => rfl, fun _ => rfl, fun _ => rfl, fun _ => rfl⟩

/-! ### The ports -/

theorem State.sinkRefuses_iff (s : State) :
    s.sinkRefuses = true ↔ ∃ cap, s.outCap = some cap ∧ cap ≤ s.outLen := by
  unfold State.sinkRefuses
  cases s.outCap <;> simp

theorem State.room_one_iff (s : State) : s.room 1 ↔ s.sinkRefuses = false := by
  rw [← Bool.not_eq_true, s.sinkRefuses_iff]
  constructor
  · rintro (h | h) ⟨cap, hcap, hle⟩
    · omega
    · have := h cap hcap
      omega
  · intro h
    right
    intro cap hcap
    by_contra hc
    exact h ⟨cap, hcap, by omega⟩

/-- A push is accepted and appends the byte, or is refused and enters FAULT (R84, R135). -/
theorem push_cases (b : Byte) (s : State) :
    (s.sinkRefuses = false ∧ push b s = .completed
      { s with snkReq := false, snkByte := b, out := s.out ++ [b], outLen := s.outLen + 1 }) ∨
    (s.sinkRefuses = true ∧ push b s = .abandoned
      { s with snkReq := false, snkByte := b, faultCode := 1, phase := .fault }) := by
  cases h : s.sinkRefuses
  · left; simp [push, h]
  · right; simp [push, h, State.raiseFault]

/-- A pull answers the next byte or EOI, and lowers the request (R93). -/
theorem pull_cases (s : State) :
    (s.src = [] ∧ pull s = (none, { s with srcReq := false })) ∨
    ∃ b rest, s.src = b :: rest ∧ pull s = (some b, { s with srcReq := false, src := rest }) := by
  cases h : s.src with
  | nil => left; simp [pull, h]
  | cons b rest => right; exact ⟨b, rest, rfl, by simp [pull, h]⟩

/-! ### WRITEBIT and FINISH -/

/-- WRITEBIT places the bit; the eighth pushes the byte or meets a refusing sink (R80). -/
theorem writeBit_cases (b : Bool) (s : State) :
    (s.nbits ≠ 7 ∧ writeBit b s = .completed
      { s with acc := s.acc ||| bitBelow b s.nbits, nbits := s.nbits + 1 }) ∨
    (s.nbits = 7 ∧ s.sinkRefuses = false ∧ writeBit b s = .completed
      { s with acc := 0, nbits := 0, snkReq := false, snkByte := s.acc ||| bitBelow b s.nbits,
               out := s.out ++ [s.acc ||| bitBelow b s.nbits], outLen := s.outLen + 1 }) ∨
    (s.nbits = 7 ∧ s.sinkRefuses = true ∧ writeBit b s = .abandoned
      { s with acc := s.acc ||| bitBelow b s.nbits, snkReq := false,
               snkByte := s.acc ||| bitBelow b s.nbits, faultCode := 1, phase := .fault }) := by
  by_cases hn : s.nbits = 7
  · right
    rcases push_cases (s.acc ||| bitBelow b s.nbits) { s with acc := s.acc ||| bitBelow b s.nbits }
      with ⟨hr, hp⟩ | ⟨hr, hp⟩
    · left; exact ⟨hn, hr, by simp only [writeBit]; rw [if_pos hn, hp]; rfl⟩
    · right; exact ⟨hn, hr, by simp only [writeBit]; rw [if_pos hn, hp]; rfl⟩
  · left; exact ⟨hn, by simp only [writeBit]; rw [if_neg hn]⟩

/-- FINISH pushes a partial byte, if there is one (R82). -/
theorem flush_cases (s : State) :
    (s.nbits = 0 ∧ flush s = .completed s) ∨
    (s.nbits ≠ 0 ∧ s.sinkRefuses = false ∧ flush s = .completed
      { s with acc := 0, nbits := 0, snkReq := false, snkByte := s.acc,
               out := s.out ++ [s.acc], outLen := s.outLen + 1 }) ∨
    (s.nbits ≠ 0 ∧ s.sinkRefuses = true ∧ flush s = .abandoned
      { s with snkReq := false, snkByte := s.acc, faultCode := 1, phase := .fault }) := by
  by_cases hn : s.nbits = 0
  · left; exact ⟨hn, by rw [flush, if_pos hn]⟩
  · right
    rcases push_cases s.acc s with ⟨hr, hp⟩ | ⟨hr, hp⟩
    · left; exact ⟨hn, hr, by rw [flush, if_neg hn, hp]; rfl⟩
    · right; exact ⟨hn, hr, by rw [flush, if_neg hn, hp]; rfl⟩

/-! ### Streams of bits -/

theorem writeStream_append (xs ys : List Bool) (s : State) :
    writeStream (xs ++ ys) s = (writeStream xs s).andThen (writeStream ys) := by
  induction xs generalizing s with
  | nil => rfl
  | cons b bs ih =>
    simp only [List.cons_append, writeStream, Flow.andThen_assoc]
    exact congrArg _ (funext fun t => ih t)

/-- WRITEBITS writes the low bits of the value, most significant first (R81). -/
theorem writeField_eq (n v : Nat) (s : State) : writeField n v s = writeStream (msbBits n v) s := by
  induction n generalizing s with
  | zero => rfl
  | succ n ih =>
    simp only [writeField, msbBits, writeStream]
    exact congrArg _ (funext fun t => ih t)

/-- The calls for a literal write its bits (30_encoding.md R61). -/
theorem writeLiteral_eq (b : Byte) (s : State) : writeLiteral b s = writeStream (literalBits b) s := by
  simp only [writeLiteral, literalBits, writeStream]
  exact congrArg _ (funext fun t => writeField_eq 8 _ t)

/-- The calls for an 18-bit entry write its bits (30_encoding.md R62, R63). -/
theorem writeLong_eq (a : Addr) (l : LenField) (s : State) :
    writeLong a l s = writeStream (matchBits a l) s := by
  simp only [writeLong, matchBits, writeStream, Flow.andThen_assoc]
  refine congrArg _ (funext fun t => ?_)
  rw [writeStream_append, writeField_eq]
  exact congrArg _ (funext fun u => writeField_eq 4 _ u)

/-- What a stream of bits leaves when the sink has room: all of it is written, and a push has lowered
the request if there was one. -/
structure WroteAll (bs : List Bool) (s t : State) : Prop where
  frame : OnlyWriter s t
  clean : t.accClean
  written : t.written = s.written ++ bs
  nbits : t.nbits.toNat = (s.nbits.toNat + bs.length) % 8
  outLen : t.outLen = s.outLen + s.pushesFor bs.length
  out : ∃ pushed, t.out = s.out ++ pushed ∧ pushed.length = s.pushesFor bs.length
  request : t.snkReq = if s.pushesFor bs.length = 0 then s.snkReq else false
  room : s.room (s.pushesFor bs.length)

/-- What it leaves when the sink refuses a byte: FAULT, with the bits up to the refused byte. -/
structure WroteSome (bs : List Bool) (s t : State) : Prop where
  frame : OnlyWriterAndFault s t
  phase : t.phase = .fault
  code : t.faultCode = 1
  nbits : t.nbits = 7
  request : t.snkReq = false
  full : t.sinkRefuses = true
  outLen : t.outLen < s.outLen + s.pushesFor bs.length
  out : ∃ pushed, t.out = s.out ++ pushed ∧ t.outLen = s.outLen + pushed.length
  written : bitsOfBytes t.out <+: s.written ++ bs
  room : ¬ s.room (s.pushesFor bs.length)

theorem State.length_written (s : State) :
    s.written.length = 8 * s.out.length + s.nbits.toNat := by
  have := s.nbits.isLt
  simp [State.written, length_bitsOfBytes]
  omega

theorem State.pushesFor_succ (s : State) (n : Nat) (h : s.nbits ≠ 7) (t : State)
    (ht : t.nbits = s.nbits + 1) : s.pushesFor (n + 1) = t.pushesFor n := by
  have h8 := s.nbits.isLt
  have h7 : s.nbits.toNat ≠ 7 := fun e => h (by apply BitVec.eq_of_toNat_eq; simpa using e)
  have : t.nbits.toNat = s.nbits.toNat + 1 := by
    rw [ht, BitVec.toNat_add]
    simp
    omega
  unfold State.pushesFor
  rw [this]
  congr 1
  omega

theorem State.toNat_nbits_succ (s : State) (h : s.nbits ≠ 7) :
    (s.nbits + 1).toNat = s.nbits.toNat + 1 := by
  have h8 := s.nbits.isLt
  have h7 : s.nbits.toNat ≠ 7 := fun e => h (by apply BitVec.eq_of_toNat_eq; simpa using e)
  rw [BitVec.toNat_add]
  simp
  omega

/-- A stream of bits is written whole, or the sink refuses a byte of it. -/
theorem writeStream_cases (bs : List Bool) (s : State) (hc : s.accClean) :
    (∃ t, writeStream bs s = .completed t ∧ WroteAll bs s t) ∨
    (∃ t, writeStream bs s = .abandoned t ∧ WroteSome bs s t) := by
  induction bs generalizing s with
  | nil =>
    left
    have := s.nbits.isLt
    have h0 : s.pushesFor 0 = 0 := by simp only [State.pushesFor]; omega
    refine ⟨s, rfl, ⟨OnlyWriter.refl s, hc, by simp, by simp; omega, ?_, ⟨[], by simp, ?_⟩, ?_, ?_⟩⟩
    · simp [h0]
    · simp [h0]
    · simp [h0]
    · left; simp [h0]
  | cons b bs ih =>
    rcases writeBit_cases b s with ⟨hn, hw⟩ | ⟨hn, hr, hw⟩ | ⟨hn, hr, hw⟩
    · -- the bit is placed in `acc`
      set u : State := { s with acc := s.acc ||| bitBelow b s.nbits, nbits := s.nbits + 1 } with hu
      have hsucc := s.toNat_nbits_succ hn
      have huc : u.accClean := by
        rw [State.accClean_iff]
        intro i hi
        have hi' : i < 8 - (s.nbits.toNat + 1) := by
          have := hi
          simp only [hu, hsucc] at this
          exact this
        simp only [hu, BitVec.getLsbD_or, getLsbD_bitBelow]
        have : ¬ i = 7 - s.nbits.toNat := by omega
        simp [this, (s.accClean_iff).1 hc i (by omega)]
      have huw : u.written = s.written ++ [b] := by
        simp only [State.written, hu, hsucc, take_byteBits_bitBelow hc]
        simp
      have hp : s.pushesFor (bs.length + 1) = u.pushesFor bs.length :=
        s.pushesFor_succ _ hn u rfl
      rcases ih u huc with ⟨t, hs, h⟩ | ⟨t, hs, h⟩
      · left
        refine ⟨t, by simp [writeStream, hw, hs], ⟨?_, h.clean, ?_, ?_, ?_, ?_, ?_, ?_⟩⟩
        · exact OnlyWriter.trans (show OnlyWriter s u from rfl) h.frame
        · rw [h.written, huw]; simp
        · rw [h.nbits]; simp only [hu, hsucc, List.length_cons]; congr 1; omega
        · rw [h.outLen, List.length_cons, hp]
        · rw [List.length_cons, hp]; exact h.out
        · rw [List.length_cons, hp]; exact h.request
        · rw [List.length_cons, hp]; exact h.room
      · right
        refine ⟨t, by simp [writeStream, hw, hs], ⟨?_, h.phase, h.code, h.nbits, h.request, h.full, ?_, ?_, ?_, ?_⟩⟩
        · exact OnlyWriterAndFault.trans (show OnlyWriterAndFault s u from rfl) h.frame
        · rw [List.length_cons, hp]; exact h.outLen
        · exact h.out
        · have := h.written; rw [huw] at this; simpa using this
        · rw [List.length_cons, hp]; exact h.room
    · -- the byte is pushed
      set u : State := { s with
        acc := 0, nbits := 0, snkReq := false, snkByte := s.acc ||| bitBelow b s.nbits
        out := s.out ++ [s.acc ||| bitBelow b s.nbits], outLen := s.outLen + 1 } with hu
      have h7 : s.nbits.toNat = 7 := by rw [hn]; rfl
      have huc : u.accClean := by simp [State.accClean, hu]
      have huw : u.written = s.written ++ [b] := by
        have := take_byteBits_bitBelow hc b
        rw [h7, List.take_of_length_le (by simp)] at this
        simp only [State.written, hu, bitsOfBytes_append, h7]
        simp [bitsOfBytes, this]
      have hp : s.pushesFor (bs.length + 1) = u.pushesFor bs.length + 1 := by
        simp only [State.pushesFor, hu, h7]
        simp
        omega
      rcases ih u huc with ⟨t, hs, h⟩ | ⟨t, hs, h⟩
      · left
        refine ⟨t, by simp [writeStream, hw, hs], ⟨?_, h.clean, ?_, ?_, ?_, ?_, ?_, ?_⟩⟩
        · exact OnlyWriter.trans (show OnlyWriter s u from rfl) h.frame
        · rw [h.written, huw]; simp
        · rw [h.nbits]; simp [hu, h7]; omega
        · rw [h.outLen, List.length_cons, hp]; simp only [hu]; omega
        · obtain ⟨pushed, ho, hl⟩ := h.out
          refine ⟨(s.acc ||| bitBelow b s.nbits) :: pushed, by rw [ho]; simp [hu], ?_⟩
          rw [List.length_cons, List.length_cons, hp, hl]
        · rw [List.length_cons, hp, h.request]; simp [hu]
        · right
          intro cap hcap
          have h1 := ((s.room_one_iff).2 hr).resolve_left (by omega) cap hcap
          rw [List.length_cons, hp]
          rcases h.room with h0 | hroom
          · omega
          · have h2 := hroom cap hcap
            have hl : u.outLen = s.outLen + 1 := rfl
            omega
      · right
        refine ⟨t, by simp [writeStream, hw, hs], ⟨?_, h.phase, h.code, h.nbits, h.request, h.full, ?_, ?_, ?_, ?_⟩⟩
        · exact OnlyWriterAndFault.trans (show OnlyWriterAndFault s u from rfl) h.frame
        · have := h.outLen
          have hl : u.outLen = s.outLen + 1 := rfl
          rw [List.length_cons, hp]
          omega
        · obtain ⟨pushed, ho, hl⟩ := h.out
          refine ⟨(s.acc ||| bitBelow b s.nbits) :: pushed, by rw [ho]; simp [hu], ?_⟩
          rw [hl, List.length_cons]; simp only [hu]; omega
        · have := h.written; rw [huw] at this; simpa using this
        · intro hroom
          apply h.room
          rw [List.length_cons, hp] at hroom
          right
          intro cap hcap
          have h1 := hroom.resolve_left (by omega) cap hcap
          have hl : u.outLen = s.outLen + 1 := rfl
          omega
    · -- the sink refuses the byte
      right
      have h7 : s.nbits.toNat = 7 := by rw [hn]; rfl
      set u : State := { s with
        acc := s.acc ||| bitBelow b s.nbits, snkReq := false
        snkByte := s.acc ||| bitBelow b s.nbits, faultCode := 1, phase := .fault } with hu
      refine ⟨u, by rw [writeStream, hw]; rfl,
        ⟨show OnlyWriterAndFault s u from rfl, rfl, rfl, hn, rfl, hr, ?_, ⟨[], by simp [hu]⟩, ?_, ?_⟩⟩
      · have hl : u.outLen = s.outLen := rfl
        simp only [State.pushesFor, h7, List.length_cons]
        omega
      · have ho : u.out = s.out := rfl
        simp [State.written, ho]
      · intro hroom
        obtain ⟨cap, hcap, hle⟩ := s.sinkRefuses_iff.1 hr
        have hp : 1 ≤ s.pushesFor (b :: bs).length := by
          simp only [State.pushesFor, h7, List.length_cons]
          omega
        have := hroom.resolve_left (by omega) cap hcap
        omega

end Sys2Proof.Machine
end

