-- ==== Sys2Proof/Laws/Window.lean ====
section
/-! SUPPORT. PRIME, ADVANCE and SEARCH: what each can change, and that the memories stay canonical. -/

namespace Sys2Proof.Machine

/-! ### PRIME -/

theorem primeLoop_frame (k i : Nat) (s : State) :
    (primeLoop k i s).2 = { s with
      window := (primeLoop k i s).2.window, src := (primeLoop k i s).2.src
      srcReq := (primeLoop k i s).2.srcReq } := by
  induction k generalizing i s with
  | zero => rfl
  | succ k ih =>
    rcases pull_cases s with ⟨_, h⟩ | ⟨b, rest, _, h⟩
    · simp only [primeLoop, h]
    · simp only [primeLoop, h]
      rw [ih]
      rfl

theorem primeLoop_memWf (k i : Nat) {s : State} (h : s.memWf) : (primeLoop k i s).2.memWf := by
  induction k generalizing i s with
  | zero => exact h
  | succ k ih =>
    rcases pull_cases s with ⟨_, e⟩ | ⟨b, rest, _, e⟩
    · simp only [primeLoop, e]; exact h
    · simp only [primeLoop, e]; exact ih _ (State.writeW_memWf h _ _)

/-- PRIME's count, and what is left of the source (R90). -/
theorem primeLoop_count (k i : Nat) (s : State) :
    (primeLoop k i s).1 = i + min k s.src.length ∧
      (primeLoop k i s).2.src = s.src.drop k ∧ (1 ≤ k → (primeLoop k i s).2.srcReq = false) := by
  induction k generalizing i s with
  | zero => simp [primeLoop]
  | succ k ih =>
    rcases pull_cases s with ⟨hs, e⟩ | ⟨b, rest, hs, e⟩
    · simp [primeLoop, e, hs]
    · simp only [primeLoop, e, hs]
      have := ih (i + 1)
        (State.writeW { s with srcReq := false, src := rest } (slotAt s.dictHead i) b)
      refine ⟨by rw [this.1]; simp; omega, by rw [this.2.1]; simp, fun _ => ?_⟩
      cases k with
      | zero => rfl
      | succ k => exact this.2.2 (by omega)

/-! ### ADVANCE -/

theorem State.evict_frame (s : State) :
    s.evict = { s with hash := s.evict.hash, next := s.evict.next } := by
  unfold State.evict
  split
  · rfl
  · exact s.removeAt_frame _ _

theorem State.passCursor_frame (s : State) :
    s.passCursor = { s with
      hash := s.passCursor.hash, prev := s.passCursor.prev, next := s.passCursor.next
      dictHead := slotAt s.dictHead 1 } := by
  unfold State.passCursor
  split
  · rfl
  · rw [s.insertAt_frame]

theorem State.dropWaiting_frame (s : State) :
    s.dropWaiting = { s with
      waitingBytes := s.dropWaiting.waitingBytes, freeIndex := s.dropWaiting.freeIndex } := by
  unfold State.dropWaiting
  split <;> rfl

theorem State.dropRemaining_frame (s : State) :
    s.dropRemaining = { s with
      remaining := s.dropRemaining.remaining, freeIndex := s.dropRemaining.freeIndex } := by
  unfold State.dropRemaining
  split <;> rfl

/-- A count-down is minus 1 above 0, and within the range 0 to 18 at 0 (log 15). -/
theorem countedDown_cases (c : Count) (n : Nat) :
    (c ≠ 0 ∧ (countedDown c n).toNat = c.toNat - 1) ∨ (c = 0 ∧ (countedDown c n).toNat ≤ 18) := by
  have hc := c.isLt
  by_cases h : c = 0
  · right
    have hf := (Config.freeCount n).isLt
    refine ⟨h, ?_⟩
    simp only [countedDown, h, if_true, BitVec.toNat_ofNat]
    omega
  · left
    have h0 : c.toNat ≠ 0 := fun e => h (BitVec.eq_of_toNat_eq (by simpa using e))
    refine ⟨h, ?_⟩
    rw [countedDown, if_neg h, BitVec.toNat_sub]
    simp
    omega

theorem State.dropWaiting_waiting (s : State) :
    s.dropWaiting.waitingBytes = countedDown s.waitingBytes s.freeIndex := by
  unfold State.dropWaiting
  split <;> rfl

theorem State.dropRemaining_remaining (s : State) :
    s.dropRemaining.remaining = countedDown s.remaining s.freeIndex := by
  unfold State.dropRemaining
  split <;> rfl

/-- ADVANCE with a byte from the source, or with EOI (R92). -/
theorem advance_cases (s : State) :
    (s.src = [] ∧ advance s =
      (State.passCursor { s.evict with srcReq := false }).dropWaiting) ∨
    ∃ b rest, s.src = b :: rest ∧ advance s =
      (State.writeW { s.evict with srcReq := false, src := rest } s.evicted b).passCursor := by
  have hsrc : s.evict.src = s.src := by rw [s.evict_frame]
  rcases pull_cases s.evict with ⟨h, e⟩ | ⟨b, rest, h, e⟩
  · left; exact ⟨hsrc ▸ h, by simp only [advance, e]⟩
  · right; exact ⟨b, rest, hsrc ▸ h, by simp only [advance, e]⟩

theorem State.evict_memWf {s : State} (h : s.memWf) : s.evict.memWf := by
  unfold State.evict
  split
  · exact h
  · exact State.removeAt_memWf h _ _

theorem State.passCursor_memWf {s : State} (h : s.memWf) : s.passCursor.memWf := by
  unfold State.passCursor
  split
  · exact h
  · exact State.insertAt_memWf h _ _

theorem State.dropWaiting_memWf {s : State} (h : s.memWf) : s.dropWaiting.memWf := by
  rw [s.dropWaiting_frame]
  exact h

theorem advance_memWf {s : State} (h : s.memWf) : (advance s).memWf := by
  have he : s.evict.memWf := State.evict_memWf h
  rcases advance_cases s with ⟨_, e⟩ | ⟨b, rest, _, e⟩ <;> rw [e]
  · exact State.dropWaiting_memWf (State.passCursor_memWf he)
  · exact State.passCursor_memWf (State.writeW_memWf he _ _)

/-! ### SEARCH -/

theorem search_frame (s : State) :
    search s = { s with
      bestLen := (search s).bestLen, bestAddr := (search s).bestAddr, phase := .emit } := rfl

theorem prefixFrom_le (s : State) (c : Addr) (k i : Nat) : prefixFrom s c k i ≤ k := by
  induction k generalizing i with
  | zero => simp [prefixFrom]
  | succ k ih =>
    simp only [prefixFrom]
    split
    · exact Nat.succ_le_succ (ih _)
    · omega

/-- MATCHLEN is bounded by `waiting_bytes` (R111). -/
theorem State.matchLen_toNat (s : State) (c : Addr) :
    (s.matchLen c).toNat = prefixFrom s c s.waitingBytes.toNat 0 := by
  have h := prefixFrom_le s c s.waitingBytes.toNat 0
  have := s.waitingBytes.isLt
  simp [State.matchLen]
  omega

theorem State.matchLen_le (s : State) (c : Addr) :
    (s.matchLen c).toNat ≤ s.waitingBytes.toNat := by
  rw [s.matchLen_toNat]
  exact prefixFrom_le _ _ _ _

end Sys2Proof.Machine
end

