-- ==== Sys2Proof/Tests/Slice0.lean ====
section
/-! SUPPORT. Tests: well-formedness, decoding of words written out from the spec's encodings, one step
of each instruction on the vectors of 95_test_vectors.md, and a witness for the hypotheses of each
statement. Every expected value is the spec's. -/

namespace Sys2Proof.Tests

open Sys2Proof.Machine

/-! ### Helpers -/

/-- The next state of an outcome; the given state when there is none. -/
def nextOr (s : State) : Host.Outcome State Fault Refusal → State
  | .next t => t
  | .fault _ => s
  | .refused _ => s

/-- The refusal of an outcome. -/
def refusal : Host.Outcome State Fault Refusal → Option Refusal
  | .next _ => none
  | .fault _ => none
  | .refused r => some r

/-- The state an instruction leaves. -/
def after (i : Instr) (s : State) : State :=
  nextOr s (exec i s)

/-- The state several instructions leave. -/
def afterAll (is : List Instr) (s : State) : State :=
  is.foldl (fun t i => after i t) s

/-- The block after START, with this input. -/
def started (src : List Byte) : State :=
  { State.reset with src := src, dictHead := 1, phase := .prime }

/-- "AAAA". -/
def aaaa : List Byte :=
  [0x41, 0x41, 0x41, 0x41]

/-- The window with bytes from slot 1 on. -/
def filled (bytes : List Byte) : Memory 8 :=
  bytes.zipIdx.map fun c => (c.2 + 1, c.1)

/-- "AAAA" after PRIME (program P1). -/
def primed : State :=
  { started aaaa with
    src := [], window := filled aaaa, waitingBytes := 4, phase := .search }

/-- "AAAA" at cursor 2: the literal is written and its byte is indexed (program P1). -/
def atTwo : State :=
  { primed with
    dictHead := 2, waitingBytes := 3, hash := [(0x4551, 1)], acc := 0x80, nbits := 1
    out := [0xA0], outLen := 1 }

/-- The chain 3, 2, 1 of key 0x4551 (T-I3). -/
def chained : State :=
  { State.reset with
    hash := [(0x4551, 3)], next := [(2, 1), (3, 2)], prev := [(1, 2), (2, 3)] }

/-! ### WellFormed: an ill-formed term for each check -/

theorem test_wf_match_address : (Instr.matchEntry 0 5).wf = false := by decide

theorem test_wf_insert_address : (Instr.insert 0x4551 0).wf = false := by decide

theorem test_wf_remove_address : (Instr.remove 0x4551 0).wf = false := by decide

theorem test_wf_writebits_count : (Instr.writeBits 17 0).wf = false := by decide

theorem test_wf_admits_the_boundaries :
    (Instr.matchEntry 8191 15).wf ∧ (Instr.insert 0xFFFF 8191).wf ∧ (Instr.remove 0 1).wf ∧
      (Instr.writeBits 16 0xFFFF).wf ∧ (Instr.writeBits 0 1).wf := by decide

/-! ### Decoding: words written out from 30_encoding.md R61 to R63, R69 (operand places: log 3) -/

/-- R61: `1` and the byte 0x41 = 01000001. -/
theorem test_decode_literal :
    decode (.entry [true, false, true, false, false, false, false, false, true]) =
      .ok (.literal 0x41) := by decide

/-- R62 and T-B5: `0`, 0x1ABC = 1101010111100, 5 = 0101. -/
theorem test_decode_match :
    decode (.entry [false, true, true, false, true, false, true, false, true, true, true, true,
      false, false, false, true, false, true]) = .ok (.matchEntry 0x1ABC 5) := by decide

/-- R63: 18 zeros. -/
theorem test_decode_term :
    decode (.entry [false, false, false, false, false, false, false, false, false, false, false,
      false, false, false, false, false, false, false]) = .ok .term := by decide

/-- DictionaryWindow: 0001, 0010, 0011. -/
theorem test_decode_window :
    decode (.op 0b0001) = .ok .prime ∧ decode (.op 0b0011) = .ok .advance ∧
      decode (.op 0b0010000000000001_0000_0010) = .ok (.byteAt 0x2001) := by decide

/-- MatchIndex: 0100 to 0111. The address of INSERT and REMOVE is stored minus 1. -/
theorem test_decode_index :
    decode (.op 0b0001111111111111_0000_0100) = .ok (.keyOf 0x1FFF) ∧
      decode (.op 0b0000000000001_0100010101010001_0000_0101) = .ok (.insert 0x4551 2) ∧
      decode (.op 0b1111111111110_0100010101010001_0000_0110) = .ok (.remove 0x4551 8191) ∧
      decode (.op 0b0110010001110011_0000_0111) = .ok (.chainFrom 0x6473) := by decide

/-- BitWriter: 1010 to 1100. -/
theorem test_decode_writer :
    decode (.op 0b1_0000_1010) = .ok (.writeBit true) ∧
      decode (.op 0b0001001000110100_01101_0000_1011) = .ok (.writeBits 13 0x1234) ∧
      decode (.op 0b1100) = .ok .finish := by decide

/-- Encoder: 0000, 1000, 1001, 1101 to 1111. -/
theorem test_decode_encoder :
    decode (.op 0b0000) = .ok .start ∧ decode (.op 0b1111111111111_0000_1000) = .ok (.matchLen 8191) ∧
      decode (.op 0b1001) = .ok .search ∧ decode (.op 0b1101) = .ok .emitLit ∧
      decode (.op 0b1110) = .ok .emitMatch ∧ decode (.op 0b1111) = .ok .emitTerm := by decide

/-- What has no meaning is refused by name: R67, truncated and overlong entries, log 3. -/
theorem test_decode_refuses :
    decode (.entry (List.replicate 17 false ++ [true])) = .error .reservedEntry ∧
      decode (.entry (List.replicate 8 true)) = .error .truncated ∧
      decode (.entry (List.replicate 10 true)) = .error .trailingBits ∧
      decode (.op 0x10) = .error .reservedBits ∧ decode (.op 0x0100) = .error .strayOperand ∧
      decode (.op 0x1FFF455105) = .error .sentinelAddress ∧
      decode (.op 0x110B) = .error .countOutOfRange := by decide

/-- R72: the table's numbers of the rows, in whole bytes. -/
theorem test_table_words :
    decodeTableWord 16 0x141 = some (.literal 0x41) ∧ decodeTableWord 24 0x1F = some (.matchEntry 1 15) ∧
      decodeTableWord 24 0 = some .term ∧ decodeTableWord 8 0xD = some .emitLit := by decide

/-! ### One step of each instruction -/

/-- T-B3 as an entry. -/
theorem test_literal :
    let t := after (.literal 0x41) State.reset
    t.out = [0xA0] ∧ t.acc = 0x80 ∧ t.nbits = 1 ∧ t.outLen = 1 := by decide

/-- T-B5 as an entry. -/
theorem test_match :
    let t := after (.matchEntry 0x1ABC 5) State.reset
    t.out = [0x6A, 0xF1] ∧ t.acc = 0x40 ∧ t.nbits = 2 := by decide

/-- T-B8: the terminator behind `MATCH 8191, 18`. -/
theorem test_term :
    let t := afterAll [.matchEntry 8191 15, .term] State.reset
    t.out = [0x7F, 0xFF, 0xC0, 0x00] ∧ t.acc = 0 ∧ t.nbits = 4 := by decide

/-- R110, from a block that has run. -/
theorem test_start :
    let t := after .start { atTwo with phase := .fault, faultCode := 1, bestLen := 3, remaining := 2 }
    t.dictHead = 1 ∧ t.phase = .prime ∧ t.faultCode = 0 ∧ t.waitingBytes = 0 ∧ t.out = [] ∧
      t.window = [] ∧ t.hash = [] ∧ t.bestLen = 0 ∧ t.remaining = 0 := by decide

/-- P1: five pulls, four bytes. -/
theorem test_prime :
    let t := after .prime (started aaaa)
    t.waitingBytes = 4 ∧ t.window = [(1, 0x41), (2, 0x41), (3, 0x41), (4, 0x41)] ∧ t.src = [] := by
  decide

/-- T-W5: at most 18 bytes are pulled. -/
theorem test_prime_stops_at_18 :
    let t := after .prime (started (List.replicate 19 7))
    t.waitingBytes = 18 ∧ t.src = [7] ∧ t.readW 18 = 7 ∧ t.readW 19 = 0 := by decide

/-- T-W7, T-W8. -/
theorem test_byteat_wraps :
    let s := { State.reset with window := [(0, 0xAA), (1, 0xBB)] }
    (after (.byteAt 8192) s).result = .byte 0xAA ∧ (after (.byteAt 8193) s).result = .byte 0xBB := by
  decide

/-- T-A1. -/
theorem test_advance_at_end_of_input :
    let t := after .advance primed
    t.hash = [(0x4551, 1)] ∧ t.next = [] ∧ t.prev = [] ∧ t.dictHead = 2 ∧ t.waitingBytes = 3 := by
  decide

/-- T-A5: the sole member of a bucket is evicted under the key it had before the refill. -/
theorem test_advance_evicts_before_refill :
    let t := after .advance
      { State.reset with
        window := [(1, 0x01)], hash := [(0, 8174), (0x10, 1)], prev := [], dictHead := 8175
        waitingBytes := 18, src := [0] }
    t.readHash 0x10 = 0 ∧ t.readW 1 = 0 ∧ t.readHash 0 = 8175 ∧ t.readNext 8175 = 8174 ∧
      t.dictHead = 8176 ∧ t.waitingBytes = 18 := by decide

/-- T-K2, T-K8. -/
theorem test_keyof :
    (after (.keyOf 1) { State.reset with window := filled [0x61, 0x62, 0x63] }).result = .key 0x6473 ∧
      (after (.keyOf 8191) { State.reset with window := [(0, 0xAA)] }).result = .key 0xAA00 := by decide

/-- T-I1 to T-I3. -/
theorem test_insert :
    let t := afterAll [.insert 0x4551 1, .insert 0x4551 2, .insert 0x4551 3] State.reset
    t = chained := by decide

/-- T-I4: links left by an earlier membership are overwritten. -/
theorem test_insert_over_stale_links :
    let t := afterAll [.remove 0x4551 1, .insert 0x4551 1] chained
    t.readHash 0x4551 = 1 ∧ t.next = [(1, 3), (3, 2)] ∧ t.prev = [(2, 3), (3, 1)] := by decide

/-- T-R1, T-R2. -/
theorem test_remove :
    after (.remove 0x4551 1) chained = { chained with next := [(3, 2)] } ∧
      (afterAll [.insert 0x4551 1, .remove 0x4551 1] State.reset).hash = [] := by decide

/-- T-R3a: a slot that was never inserted leaves the bucket alone. -/
theorem test_remove_of_a_stranger :
    after (.remove 0x4551 19) (after (.insert 0x4551 1) State.reset) =
      after (.insert 0x4551 1) State.reset := by decide

/-- T-I3. -/
theorem test_chainfrom :
    (after (.chainFrom 0x4551) chained).result = .chain [3, 2, 1] ∧
      (after (.chainFrom 0) chained).result = .chain [] := by decide

/-- T-S2, T-S1: the bound by `waiting_bytes`, over a candidate that runs into the lookahead. -/
theorem test_matchlen :
    (after (.matchLen 1) atTwo).result = .length 3 ∧
      (after (.matchLen 1) { atTwo with waitingBytes := 2 }).result = .length 2 := by decide

/-- T-S2. -/
theorem test_search :
    let t := after .search atTwo
    t.bestLen = 3 ∧ t.bestAddr = 1 ∧ t.phase = .emit := by decide

/-- T-S4: a strictly longer older candidate replaces. -/
theorem test_search_replaces :
    let t := after .search
      { State.reset with
        window := filled [0x61, 0x62, 0x63, 0x64, 0x58, 0x61, 0x62, 0x63, 0x59, 0x61, 0x62, 0x63,
          0x64, 0x51]
        dictHead := 10, waitingBytes := 5, hash := [(0x6473, 6)], next := [(6, 1)], prev := [(1, 6)] }
    t.bestLen = 4 ∧ t.bestAddr = 1 := by decide

/-- T-B1. -/
theorem test_writebit :
    let t := after (.writeBit true) State.reset
    t.acc = 0x80 ∧ t.nbits = 1 ∧ t.out = [] := by decide

/-- T-F4: the refused push leaves the eighth bit in `acc`. -/
theorem test_writebit_refused :
    let t := after (.writeBit false) { State.reset with acc := 0xA0, nbits := 7, outCap := some 0 }
    t.phase = .fault ∧ t.faultCode = 1 ∧ t.acc = 0xA0 ∧ t.nbits = 7 ∧ t.out = [] := by decide

/-- T-B6, T-B10. -/
theorem test_writebits :
    (after (.writeBits 4 0x1F) State.reset).acc = 0xF0 ∧ (after (.writeBits 4 0x1F) State.reset).nbits = 4 ∧
      after (.writeBits 0 0x1234) State.reset = State.reset := by decide

/-- T-F3: `WRITEBITS(13, 1)` stops at the bit whose byte is refused. -/
theorem test_writebits_refused :
    let t := after (.writeBits 13 1)
      { State.reset with acc := 0x80, nbits := 3, out := [0xA0, 0xD0], outLen := 2, outCap := some 3 }
    t.phase = .fault ∧ t.out = [0xA0, 0xD0, 0x80] ∧ t.acc = 0x01 ∧ t.nbits = 7 := by decide

/-- R82's example, and a whole number of bytes (T-B2). -/
theorem test_finish :
    (after .finish { State.reset with nbits := 2, out := [0, 0], outLen := 2 }).out = [0, 0, 0] ∧
      (after .finish { State.reset with nbits := 2, out := [0, 0], outLen := 2 }).nbits = 0 ∧
      after .finish State.reset = State.reset := by decide

/-- P1 at cursor 1. -/
theorem test_emitlit :
    let t := after .emitLit { primed with phase := .emit }
    t.out = [0xA0] ∧ t.acc = 0x80 ∧ t.nbits = 1 ∧ t.remaining = 1 ∧ t.phase = .maintain := by decide

/-- P1 at cursor 2. -/
theorem test_emitmatch :
    let t := after .emitMatch { atTwo with bestLen := 3, bestAddr := 1, phase := .emit }
    t.out = [0xA0, 0x80, 0x02] ∧ t.acc = 0 ∧ t.nbits = 3 ∧ t.remaining = 3 ∧ t.phase = .maintain := by
  decide

/-- S2: the terminator of an empty input, before FINISH. -/
theorem test_emitterm :
    let t := after .emitTerm { started [] with phase := .terminate }
    t.out = [0, 0] ∧ t.acc = 0 ∧ t.nbits = 2 ∧ t.phase = .terminate := by decide

/-! ### Steps -/

/-- A presented word is decoded and performed as the first step after reset. -/
theorem test_step_performs_a_presented_word :
    nextOr State.reset (step (State.reset.withFetchWord 16 0x141)) = after (.literal 0x41) State.reset ∧
      (nextOr State.reset (step (State.reset.withFetchWord 8 1))).waitingBytes = 0 := by decide

/-- TERMINATE: EMITTERM, FINISH and DONE in one step (S2). -/
theorem test_step_terminate :
    let t := nextOr State.reset (step { started [] with phase := .terminate })
    t.out = [0, 0, 0] ∧ t.outLen = 3 ∧ t.phase = .done ∧ t.done = true ∧ t.busy = false := by decide

/-- MAINTAIN, last ADVANCE of a literal (P1). -/
theorem test_step_maintain :
    let t := nextOr State.reset (step { primed with phase := .maintain, remaining := 1 })
    t.remaining = 0 ∧ t.phase = .search ∧ t.dictHead = 2 ∧ t.waitingBytes = 3 := by decide

/-! ### Witnesses: states and operands that meet the hypotheses of the statements, clause by clause -/

theorem witness_wellFormed :
    ∀ i ∈ [Instr.matchEntry 1 0, .matchEntry 8191 15, .insert 0xFFFF 8191, .remove 0 1,
      .writeBits 16 0xFFFF, .writeBits 0 0, .literal 0xFF, .term, .emitTerm], i.wf = true := by decide

/-- For EveryDecodedImageIsTheEncoding. -/
theorem witness_decodedImages :
    decode (.op 0x1FFE455106) = .ok (.remove 0x4551 8191) ∧
      decode (.entry (List.replicate 9 true)) = .ok (.literal 0xFF) := by decide

/-- For EntriesAreReadFromTheFrontOfAStream. -/
theorem witness_entries :
    isData (.literal 0) ∧ isData (.matchEntry 1 0) ∧ isData (.matchEntry 8191 15) :=
  ⟨.inl ⟨0, rfl⟩, .inr ⟨1, 0, by decide, rfl⟩, .inr ⟨8191, 15, by decide, rfl⟩⟩

/-- For ReservedEntryIsRefused and IllFormedInstructionsAreRefused. -/
theorem witness_outsideTheDomain : (1 : LenField) ≠ 0 ∧ (15 : LenField) ≠ 0 ∧ 16 < (17 : BitVec 5).toNat := by
  decide

/-- A clean accumulator with one bit, with six, with seven. -/
def bits (n : BitVec 3) : State :=
  { State.reset with acc := 0x80, nbits := n }

theorem room_of_cap {s : State} {c n : Nat} (h : s.outCap = some c) (hn : s.outLen + n ≤ c) : s.room n :=
  .inr fun cap e => by rw [h] at e; cases e; exact hn

theorem room_of_none {s : State} (h : s.outCap = none) (n : Nat) : s.room n :=
  .inr fun cap e => by rw [h] at e; cases e

theorem not_room_of_cap {s : State} {c n : Nat} (h : s.outCap = some c) (hn : c < s.outLen + n)
    (h0 : n ≠ 0) : ¬ s.room n := by
  rintro (e | e)
  · exact h0 e
  · have := e c h; omega

/-- The sink with room for one more byte, and with none. -/
theorem witness_room :
    ({ bits 7 with outCap := some 1 } : State).room 1 ∧ ¬ ({ bits 7 with outCap := some 0 } : State).room 1 ∧
      (bits 7).room 1 ∧ (bits 7).nbits = 7 ∧ (bits 6).nbits ≠ 7 ∧ (bits 0).nbits ≠ 7 :=
  ⟨room_of_cap (c := 1) rfl (by decide), not_room_of_cap (c := 0) rfl (by decide) (by decide),
    room_of_none rfl 1, by decide, by decide, by decide⟩

/-- For the statements about WRITEBITS, FINISH, EMITLIT, EMITMATCH and the entries. -/
theorem witness_writers :
    (bits 1).accClean ∧ (bits 7).accClean ∧ (bits 7).nbits ≠ 0 ∧ State.reset.accClean ∧
      State.reset.nbits = 0 ∧
      (16 : BitVec 5).toNat ≤ 16 ∧ (0 : BitVec 5).toNat ≤ 16 ∧
      ({ bits 7 with outCap := some 2 } : State).room ((bits 7).pushesFor 16) ∧
      ¬ ({ bits 7 with outCap := some 1 } : State).room ((bits 7).pushesFor 16) ∧
      ({ bits 7 with outCap := some 2 } : State).room ((bits 7).pushesFor 9) ∧
      ¬ ({ bits 7 with outCap := some 1 } : State).room ((bits 7).pushesFor 9) ∧
      ({ bits 7 with outCap := some 3 } : State).room ((bits 7).pushesFor 18) ∧
      ¬ ({ bits 7 with outCap := some 2 } : State).room ((bits 7).pushesFor 18) ∧
      ({ bits 1 with outCap := some 0 } : State).room ((bits 1).pushesFor 6) := by
  refine ⟨by unfold State.accClean; decide, by unfold State.accClean; decide, by decide,
    by unfold State.accClean; decide, by decide, by decide, by decide,
    room_of_cap (c := 2) rfl (by decide), not_room_of_cap (c := 1) rfl (by decide) (by decide),
    room_of_cap (c := 2) rfl (by decide), not_room_of_cap (c := 1) rfl (by decide) (by decide),
    room_of_cap (c := 3) rfl (by decide), not_room_of_cap (c := 2) rfl (by decide) (by decide),
    .inl (by decide)⟩

/-- For PackingLaw. -/
theorem witness_packing :
    State.reset.out = [] ∧ State.reset.outLen = 0 ∧ State.reset.acc = 0 ∧ State.reset.nbits = 0 ∧
      State.reset.outCap = none := by decide

/-- For the two statements about EMITMATCH: lengths 3 and 18, and 2 and 0. -/
theorem witness_emitmatch :
    let at_ := fun n : Count => { bits 1 with bestLen := n, bestAddr := 8191 }
    (at_ 3).accClean ∧ 3 ≤ (at_ 3).bestLen.toNat ∧ (at_ 3).bestLen.toNat ≤ 18 ∧
      (at_ 18).accClean ∧ 3 ≤ (at_ 18).bestLen.toNat ∧ (at_ 18).bestLen.toNat ≤ 18 ∧
      (at_ 2).accClean ∧ (at_ 2).bestLen.toNat < 3 ∧ (at_ 2).room ((at_ 2).pushesFor 18) ∧
      (at_ 0).accClean ∧ (at_ 0).bestLen.toNat < 3 ∧ (at_ 0).room ((at_ 0).pushesFor 18) := by
  refine ⟨by unfold State.accClean; decide, by decide, by decide, by unfold State.accClean; decide,
    by decide, by decide, by unfold State.accClean; decide, by decide, room_of_none rfl _,
    by unfold State.accClean; decide, by decide, room_of_none rfl _⟩

/-- For the two statements about ADVANCE: an ordinary cursor, the evicted slot 0, the cursor 0, each with
a byte and without; and no lookahead. -/
theorem witness_advance :
    primed.waitingBytes ≠ 0 ∧ primed.src = [] ∧
      ({ primed with dictHead := 8174, src := [1] }).waitingBytes ≠ 0 ∧
      slotAt ({ primed with dictHead := 8174 }).dictHead 18 = 0 ∧
      ({ primed with dictHead := 0, src := [1] }).src = 1 :: [] ∧
      State.reset.waitingBytes = 0 ∧ State.reset.src = [] := by decide

/-- For InsertLinksTheNewHead and RemoveClearsTheOneLink, its three branches. -/
theorem witness_index :
    (1 : Addr) ≠ 0 ∧ (8191 : Addr) ≠ 0 ∧ chained.readPrev 1 ≠ 0 ∧
      (chained.readPrev 3 = 0 ∧ chained.readHash 0x4551 = 3) ∧
      chained.readPrev 19 = 0 ∧ chained.readHash 0x4551 ≠ 19 := by decide

/-- Every chain of `atTwo` is empty but the one of key 0x4551. -/
theorem chain_atTwo (k : Key) : atTwo.chainFrom k = if k = 0x4551 then [1] else [] := by
  have h : atTwo.readHash k = if k = 0x4551 then 1 else 0 := by
    by_cases e : k = 0x4551
    · subst e; rfl
    · have : ¬ 17745 = k.toNat := fun h => e (BitVec.eq_of_toNat_eq h.symm)
      rw [if_neg e]
      simp [State.readHash, atTwo, Memory.read, Memory.unlisted, this]
  unfold State.chainFrom
  rw [h]
  split <;> rfl

/-- For InsertPrependsToItsChain: a chain that is not empty, and an empty one. -/
theorem witness_insertPrepends :
    (2 : Addr) ≠ 0 ∧ (∀ k, (2 : Addr) ∉ atTwo.chainFrom k) ∧ (atTwo.chainFrom 0x4551).length < 8191 ∧
      (atTwo.chainFrom 0).length < 8191 := by
  refine ⟨by decide, fun k => ?_, by decide, by decide⟩
  rw [chain_atTwo]
  split <;> decide

/-- For RemoveDropsTheTail: the tail of a longer chain, and a sole member. -/
theorem witness_removeDropsTheTail :
    (chained.chainFrom 0x4551 = [3, 2] ++ [1] ∧ ([3, 2] ++ [1] : List Addr).Nodup ∧
        chained.readPrev 1 = [3, 2].getLastD 0) ∧
      (atTwo.chainFrom 0x4551 = [] ++ [1] ∧ ([] ++ [1] : List Addr).Nodup ∧
        atTwo.readPrev 1 = [].getLastD 0) := by decide

/-- For the two statements about START. -/
theorem witness_start :
    State.reset.phase = .idle ∧ ({ atTwo with phase := .done }).phase = .done ∧
      ({ atTwo with phase := .fault }).phase = .fault ∧ atTwo.busy = true ∧ atTwo.issue = none := by decide

/-! ### Witnesses for the step -/

/-- An operation word on the control lines. -/
theorem witness_issuedWord :
    let s := State.reset.withFetchWord 8 9
    s.issue = some (.op 9) ∧ decode (.op 9) = .ok .search ∧ s.input.reset = false ∧
      s.input.srcHold = false ∧ s.input.snkHold = false := by decide

/-- A start request, and the same with `reset`, with the source and with the sink withholding. -/
def asking : PortInput :=
  { reset := false, start := some ⟨aaaa, none⟩, srcHold := false, snkHold := false }

theorem witness_phases :
    atTwo.input.reset = false ∧ atTwo.input.srcHold = false ∧ atTwo.input.snkHold = false ∧
      State.reset.input.start = none ∧
      ({ State.reset with inputs := [asking] }).input.start = some ⟨aaaa, none⟩ ∧
      ({ primed with phase := .emit, bestLen := 2 }).bestLen < 3 ∧
      3 ≤ ({ atTwo with phase := .emit, bestLen := 3 }).bestLen ∧
      ({ atTwo with phase := .maintain, remaining := 1 }).remaining ≠ 0 ∧
      (after .emitTerm { started [] with phase := .terminate }).phase ≠ .fault ∧
      (after .emitTerm { started [] with phase := .terminate, outCap := some 1 }).phase = .fault ∧
      (after .finish (after .emitTerm { started [] with phase := .terminate, outCap := some 2 })).phase =
        .fault := by decide

/-- For ResetWinsOverEverything. -/
theorem witness_reset :
    ({ atTwo with inputs := [{ PortInput.quiet with reset := true }] }).input.reset = true := by decide

/-- A phase, with a first step in which both ports withhold their answer and a second in which they
answer. -/
def delayed (p : Phase) : State :=
  { atTwo with
    phase := p, remaining := 1, bestLen := 3, bestAddr := 1
    inputs := [{ PortInput.quiet with srcHold := true, snkHold := true }, .quiet] }

/-- For WithheldAnswerOnlyRaisesTheRequest, in its four phases and with both entries. -/
theorem witness_withheld :
    (∀ p ∈ [Phase.prime, .maintain, .emit, .terminate],
      (delayed p).issue = none ∧ (delayed p).input.reset = false ∧ (delayed p).phase = p ∧
        (delayed p).input.srcHold = true ∧ (delayed p).input.snkHold = true) ∧
      (delayed .emit).sequenced = some .emitMatch ∧
      ({ delayed .emit with bestLen := 2 }).sequenced = some .emitLit ∧
      (delayed .terminate).sequenced = some .emitTerm := by decide

/-- For DelayDoesNotChangeTheStep, in its four phases. -/
theorem witness_delay :
    let p : PortInput := { PortInput.quiet with srcHold := true, snkHold := true }
    ∀ f ∈ [Phase.prime, .maintain, .emit, .terminate],
      (delayed f).issue = none ∧ (delayed f).inputs = p :: .quiet :: [] ∧ p.reset = false ∧
        PortInput.quiet.srcHold = false ∧ PortInput.quiet.snkHold = false ∧
        (((delayed f).phase = .prime ∨ (delayed f).phase = .maintain) ∧ p.srcHold = true ∨
          ((delayed f).phase = .emit ∨ (delayed f).phase = .terminate) ∧ p.snkHold = true) := by decide

/-- For StartRequestWhileBusyIsIgnored, in each busy phase. -/
theorem witness_startWhileBusy :
    ∀ f ∈ [Phase.prime, .search, .emit, .maintain, .terminate],
      ({ atTwo with phase := f, inputs := [asking] }).busy = true ∧
        ({ atTwo with phase := f, inputs := [asking] }).issue = none ∧
        ({ atTwo with phase := f, inputs := [asking] }).inputs = asking :: [] := by decide

/-- For the two statements about what an instruction does not write: each instruction answers a next
state, and the clauses about ADVANCE, INSERT and REMOVE have a slot and a bucket to speak of. -/
theorem witness_frames :
    (∃ t, exec (.writeBits 16 0xFFFF) atTwo = .next t) ∧ (∃ t, exec .advance atTwo = .next t) ∧
      (∃ t, exec (.insert 0x4551 2) atTwo = .next t) ∧ (∃ t, exec (.remove 0x4551 1) atTwo = .next t) ∧
      (1 : Addr) ≠ slotAt atTwo.dictHead 18 ∧ (0x4510 : Key) ≠ 0x4551 :=
  ⟨⟨_, rfl⟩, ⟨_, rfl⟩, ⟨_, rfl⟩, ⟨_, rfl⟩, by decide, by decide⟩

/-- For PhaseMovesOnlyAsTheTableSays and the statements about every step: a step from each phase. -/
theorem witness_steps :
    ∀ p ∈ [Phase.idle, .prime, .search, .emit, .maintain, .terminate, .done, .fault],
      ∃ t, step { atTwo with phase := p } = .next t := by
  intro p hp
  fin_cases hp <;> exact ⟨_, rfl⟩

/-! ### Witnesses for the invariants -/

theorem atTwo_memWf : atTwo.memWf := by
  unfold State.memWf; decide

/-- For EveryStepKeepsTheMemoriesCanonical. -/
theorem witness_memWf : atTwo.memWf ∧ ∃ t, step atTwo = .next t :=
  ⟨atTwo_memWf, _, rfl⟩

theorem atTwo_inv : atTwo.Inv where
  noIssue := rfl
  memories := atTwo_memWf
  sentinel := by decide
  ranges := by decide
  counted := rfl
  capped := fun _ h => by cases h
  clean := fun _ => by unfold State.accClean; decide
  code := by decide
  requests := by decide
  contract := ⟨by decide, by decide, fun _ => rfl⟩

theorem atTwo_tracks : atTwo.Tracks aaaa where
  total := by decide
  begins := fun h => by cases h
  rest := by decide
  cursor := by decide
  lookahead := by decide
  past := fun d h1 h2 => by
    have : d = 1 := by
      have : min (atTwo.consumed aaaa.length) 8174 = 1 := by decide
      omega
    subst this
    decide

theorem memberAt_atTwo {d : Nat} {a : Addr} : atTwo.memberAt 1 d a ↔ d = 1 ∧ a = 1 := by
  constructor
  · rintro ⟨h1, h2, h3, -⟩
    have : d = 1 := by omega
    subst this
    exact ⟨rfl, h3⟩
  · rintro ⟨rfl, rfl⟩
    exact ⟨by decide, by decide, by decide, by decide⟩

theorem readHash_atTwo {k : Key} (h : atTwo.readHash k ≠ 0) : k = 0x4551 := by
  by_contra e
  apply h
  have : ¬ 17745 = k.toNat := fun h => e (BitVec.eq_of_toNat_eq h.symm)
  simp [State.readHash, atTwo, Memory.read, Memory.unlisted, this]

theorem atTwo_indexed : atTwo.Indexed 1 where
  heads := fun k h => by
    cases readHash_atTwo h
    exact ⟨⟨1, memberAt_atTwo.2 (by decide)⟩, by decide, by decide⟩
  links := fun d a h hn => absurd rfl hn
  backs := fun d a h => by
    obtain ⟨rfl, rfl⟩ := memberAt_atTwo.1 h
    exact .inl (by decide)
  fresh := fun _ _ _ => rfl

theorem atTwo_streams : atTwo.Streams 4 :=
  ⟨⟨[.literal 0x41], fun e he => .inl ⟨0x41, List.mem_singleton.1 he⟩, by decide, by decide⟩, by decide⟩

/-- For the statements about the steps of an encode, and about chains. -/
theorem witness_encode :
    atTwo.Inv ∧ atTwo.Tracks aaaa ∧ atTwo.Indexed (atTwo.consumed aaaa.length) ∧ atTwo.Streams 4 ∧
      atTwo.busy = true ∧ atTwo.input.reset = false ∧ atTwo.input.asksNothing ∧
      (∀ p ∈ atTwo.inputs, PortInput.asksNothing p) ∧ atTwo.sequenced = some .search ∧
      atTwo.outCap = none ∧ ∃ t, step atTwo = .next t :=
  ⟨atTwo_inv, atTwo_tracks, atTwo_indexed, atTwo_streams, rfl, rfl, ⟨rfl, rfl⟩,
    (fun _ h => by cases h), rfl, rfl, _, rfl⟩

/-- A block with a start request for one byte, and an answer withheld on the way. -/
def requested (cap : Option Nat) (hold : Bool) : State :=
  { State.reset with
    inputs := [{ asking with start := some ⟨[0x41], cap⟩ }, { PortInput.quiet with srcHold := hold }] }

theorem requested_requested (cap : Option Nat) (hold : Bool) :
    (requested cap hold).Requested [0x41] cap where
  inv :=
    { noIssue := rfl
      memories :=
        ⟨⟨.nil, nofun⟩, ⟨.nil, nofun⟩, ⟨.nil, nofun⟩, ⟨.nil, nofun⟩⟩
      sentinel := ⟨rfl, rfl⟩
      ranges := by simp [requested, State.reset]
      counted := rfl
      capped := fun _ h => by cases h
      clean := fun _ => rfl
      code := rfl
      requests := ⟨nofun, nofun⟩
      contract := trivial }
  accepts := rfl
  request := ⟨_, _, rfl, rfl, rfl, fun p hp => by
    cases hp with
    | head => exact ⟨rfl, rfl⟩
    | tail _ h => cases h⟩

/-- The end of a run of the core. -/
def ranTo (k : Nat) (s : State) : State :=
  nextOr s (Host.Core.run Sys2Proof.core k s)

/-- For the statements about finished runs, on T-E2: a run that ends in DONE, one that waits on the way,
and one that ends in FAULT. -/
theorem witness_runs :
    (∃ t, Host.Core.run Sys2Proof.core 6 (requested none false) = .next t ∧ t.phase = .done ∧
        t.out = [0xA0, 0x80, 0, 0]) ∧
      (∃ t, Host.Core.run Sys2Proof.core 7 (requested none true) = .next t ∧ t.phase = .done) ∧
      ∃ t, Host.Core.run Sys2Proof.core 6 (requested (some 1) false) = .next t ∧ t.phase = .fault :=
  ⟨⟨_, rfl, rfl, rfl⟩, ⟨_, rfl, rfl⟩, _, rfl, rfl⟩

end Sys2Proof.Tests
end

section
/-! PROOFS. The linked chains of the MatchIndex over any set of members: REMOVE of the oldest, INSERT
of the newest, and which addresses are members after an ADVANCE (10_state.md R33; 42_matchindex.md). -/

namespace Sys2Proof.Machine

/-! ### The index operations leave keys and other links alone -/

@[simp] theorem State.keyOf_insertAt (s : State) (k : Key) (a : Addr) (n : Nat) :
    (s.insertAt k a).keyOf n = s.keyOf n := by
  rw [s.insertAt_frame]; rfl

@[simp] theorem State.keyOf_removeAt (s : State) (k : Key) (a : Addr) (n : Nat) :
    (s.removeAt k a).keyOf n = s.keyOf n := by
  rw [s.removeAt_frame]; rfl

@[simp] theorem State.readPrev_removeAt (s : State) (k : Key) (a b : Addr) :
    (s.removeAt k a).readPrev b = s.readPrev b := by
  rw [s.removeAt_frame]; rfl

/-! ### The linked chains over a set of members -/

/-- The doubly linked chains of 10_state.md R33 over any set of members, where `M d a` says that `a` is
a member of age `d`. `State.Indexed` is this predicate of `memberAt`, with `fresh` (`indexed_iff`). -/
structure State.Linked (M : Nat → Addr → Prop) (s : State) : Prop where
  heads : ∀ k, s.readHash k ≠ 0 →
    (∃ d, M d (s.readHash k)) ∧ s.readPrev (s.readHash k) = 0 ∧ s.keyOf (s.readHash k).toNat = k
  links : ∀ d a, M d a → s.readNext a ≠ 0 →
    (∃ e, d < e ∧ M e (s.readNext a)) ∧ s.readPrev (s.readNext a) = a ∧
      s.keyOf (s.readNext a).toNat = s.keyOf a.toNat
  backs : ∀ d a, M d a →
    (s.readPrev a = 0 ∧ s.readHash (s.keyOf a.toNat) = a) ∨
      ((∃ e, e < d ∧ M e (s.readPrev a)) ∧ s.readNext (s.readPrev a) = a)

theorem State.indexed_iff {s : State} {n : Nat} :
    s.Indexed n ↔ s.Linked (s.memberAt n) ∧
      (n < 8174 → ∀ a, (∀ d, ¬ s.memberAt n d a) → s.readPrev a = 0) :=
  ⟨fun h => ⟨⟨h.heads, h.links, h.backs⟩, h.fresh⟩,
    fun ⟨h, fresh⟩ => ⟨h.heads, h.links, h.backs, fresh⟩⟩

namespace State.Linked

variable {M N : Nat → Addr → Prop} {s t : State}

/-- The chains are a matter of the three tables and the keys of the members. -/
theorem congr (h : s.Linked M) (hash : ∀ k, t.readHash k = s.readHash k)
    (prev : ∀ a, t.readPrev a = s.readPrev a) (next : ∀ a, t.readNext a = s.readNext a)
    (key : ∀ d a, M d a → t.keyOf a.toNat = s.keyOf a.toNat) : t.Linked M where
  heads k hk := by
    rw [hash] at hk ⊢
    obtain ⟨⟨d, hd⟩, hprev, hkey⟩ := h.heads k hk
    exact ⟨⟨d, hd⟩, by rw [prev, hprev], by rw [key d _ hd, hkey]⟩
  links d a ha hn := by
    rw [next] at hn ⊢
    obtain ⟨⟨e, hlt, he⟩, hprev, hkey⟩ := h.links d a ha hn
    exact ⟨⟨e, hlt, he⟩, by rw [prev, hprev], by rw [key e _ he, key d a ha, hkey]⟩
  backs d a ha := by
    rw [prev, hash, next, key d a ha]
    exact h.backs d a ha

/-- All members grow one position older. -/
theorem aged (h : s.Linked M) (hN : ∀ d a, N d a ↔ ∃ e, d = e + 1 ∧ M e a) : s.Linked N where
  heads k hk := by
    obtain ⟨⟨d, hd⟩, hprev⟩ := h.heads k hk
    exact ⟨⟨d + 1, (hN _ _).2 ⟨d, rfl, hd⟩⟩, hprev⟩
  links d a ha hn := by
    obtain ⟨d, rfl, hd⟩ := (hN d a).1 ha
    obtain ⟨⟨e, hlt, he⟩, hprev⟩ := h.links d a hd hn
    exact ⟨⟨e + 1, by omega, (hN _ _).2 ⟨e, rfl, he⟩⟩, hprev⟩
  backs d a ha := by
    obtain ⟨d, rfl, hd⟩ := (hN d a).1 ha
    refine (h.backs d a hd).imp_right ?_
    rintro ⟨⟨e, hlt, he⟩, hnext⟩
    exact ⟨⟨e + 1, by omega, (hN _ _).2 ⟨e, rfl, he⟩⟩, hnext⟩

/-- The oldest member leaves when every bucket and every `next` that named it is cleared. -/
theorem drop_oldest (h : s.Linked M) {e : Addr}
    (oldest : ∀ d d' a, M d e → M d' a → d' ≤ d)
    (hash : ∀ k, t.readHash k = if s.readHash k = e then 0 else s.readHash k)
    (prev : ∀ a, t.readPrev a = s.readPrev a)
    (next : ∀ d a, M d a → t.readNext a = if s.readNext a = e then 0 else s.readNext a)
    (key : ∀ n, t.keyOf n = s.keyOf n) :
    t.Linked fun d a => M d a ∧ a ≠ e where
  heads k hk := by
    have hne : s.readHash k ≠ e := fun he => hk (by rw [hash, if_pos he])
    rw [hash, if_neg hne] at hk ⊢
    obtain ⟨⟨d, hd⟩, hprev, hkey⟩ := h.heads k hk
    exact ⟨⟨d, hd, hne⟩, by rw [prev, hprev], by rw [key, hkey]⟩
  links d a ha hn := by
    have hne : s.readNext a ≠ e := fun he => hn (by rw [next d a ha.1, if_pos he])
    rw [next d a ha.1, if_neg hne] at hn ⊢
    obtain ⟨⟨d', hlt, hd'⟩, hprev, hkey⟩ := h.links d a ha.1 hn
    exact ⟨⟨d', hlt, hd', hne⟩, by rw [prev, hprev], by rw [key, key, hkey]⟩
  backs d a ha := by
    obtain ⟨hd, hne⟩ := ha
    rw [prev, key]
    rcases h.backs d a hd with ⟨hprev, hhead⟩ | ⟨⟨d', hlt, hd'⟩, hnext⟩
    · exact .inl ⟨hprev, by rw [hash, hhead, if_neg hne]⟩
    · have hpe : s.readPrev a ≠ e := fun he => by
        have := oldest d' d a (he ▸ hd') hd
        omega
      exact .inr ⟨⟨d', hlt, hd', hpe⟩, by rw [next d' _ hd', hnext, if_neg hne]⟩

/-- REMOVE takes the oldest member out; of an address that is no member, and has no `prev`, it changes
nothing (42_matchindex.md R102, R105). -/
theorem removeAt (h : s.Linked M) (nonzero : ∀ d a, M d a → a ≠ 0) {e : Addr} (he : e ≠ 0)
    (oldest : ∀ d d' a, M d e → M d' a → d' ≤ d)
    (fresh : (∀ d, ¬ M d e) → s.readPrev e = 0) :
    (s.removeAt (s.keyOf e.toNat) e).Linked fun d a => M d a ∧ a ≠ e := by
  have head_names : ∀ k, s.readHash k = e → s.readPrev e = 0 ∧ s.keyOf e.toNat = k := by
    rintro k rfl
    exact (h.heads k he).2
  have next_names : ∀ d a, M d a → s.readNext a = e → s.readPrev e = a := by
    rintro d a ha rfl
    exact (h.links d a ha he).2.1
  refine h.drop_oldest oldest ?hash (by simp) ?next (by simp)
  case hash =>
    intro k
    rcases s.removeAt_cases (s.keyOf e.toNat) e with ⟨hp, hr⟩ | ⟨hp, hk, hr⟩ | ⟨hp, hk, hr⟩
    · rw [hr, State.readHash_writeNext, if_neg fun hh => hp (head_names k hh).1]
    · have : s.readHash k = e ↔ k = s.keyOf e.toNat :=
        ⟨fun hh => (head_names k hh).2.symm, fun hh => hh ▸ hk⟩
      rw [hr, State.readHash_writeHash, if_congr this rfl rfl]
    · rw [hr, if_neg fun hh => hk ((head_names k hh).2 ▸ hh)]
  case next =>
    intro d a ha
    rcases s.removeAt_cases (s.keyOf e.toNat) e with ⟨hp, hr⟩ | ⟨hp, hk, hr⟩ | ⟨hp, hk, hr⟩
    · obtain ⟨d', hd'⟩ : ∃ d, M d e := by
        by_contra hno
        exact hp (fresh fun d hd => hno ⟨d, hd⟩)
      have hnext : s.readNext (s.readPrev e) = e :=
        ((h.backs d' e hd').resolve_left fun hh => hp hh.1).2
      have : s.readNext a = e ↔ a = s.readPrev e :=
        ⟨fun hh => (next_names d a ha hh).symm, fun hh => hh ▸ hnext⟩
      rw [hr, State.readNext_writeNext, if_congr this rfl rfl]
    · rw [hr, State.readNext_writeHash,
        if_neg fun hh => nonzero d a ha ((next_names d a ha hh).symm.trans hp)]
    · rw [hr, if_neg fun hh => nonzero d a ha ((next_names d a ha hh).symm.trans hp)]

/-- INSERT of an address that is no member puts it before the members of its key, younger than all
(42_matchindex.md R101). -/
theorem insertAt (h : s.Linked M) (nonzero : ∀ d a, M d a → a ≠ 0) (older : ∀ d a, M d a → 0 < d)
    {a : Addr} (ha : a ≠ 0) (new : ∀ d, ¬ M d a) :
    (s.insertAt (s.keyOf a.toNat) a).Linked fun d b => (d = 0 ∧ b = a) ∨ M d b := by
  have member_ne : ∀ d b, M d b → b ≠ a := fun d b hb hba => new d (hba ▸ hb)
  have head_member : ∀ k, s.readHash k ≠ 0 → s.readHash k ≠ a := fun k hk => by
    obtain ⟨⟨d, hd⟩, -⟩ := h.heads k hk
    exact member_ne d _ hd
  constructor
  case heads =>
    intro k hk
    by_cases hka : k = s.keyOf a.toNat
    · have hhead : (s.insertAt (s.keyOf a.toNat) a).readHash k = a := by
        rw [State.readHash_insertAt, if_pos hka]
      have hold : ¬ (s.readHash (s.keyOf a.toNat) ≠ 0 ∧ a = s.readHash (s.keyOf a.toNat)) :=
        fun hh => head_member _ hh.1 hh.2.symm
      rw [hhead]
      refine ⟨⟨0, .inl ⟨rfl, rfl⟩⟩, ?_, by simp [hka]⟩
      rw [State.readPrev_insertAt, if_neg hold, if_pos rfl]
    · rw [State.readHash_insertAt, if_neg hka] at hk ⊢
      obtain ⟨⟨d, hd⟩, hprev, hkey⟩ := h.heads k hk
      have hold : ¬ (s.readHash (s.keyOf a.toNat) ≠ 0 ∧ s.readHash k = s.readHash (s.keyOf a.toNat)) :=
        fun hh => hka (by rw [← hkey, hh.2, (h.heads _ hh.1).2.2])
      refine ⟨⟨d, .inr hd⟩, ?_, by simp [hkey]⟩
      rw [State.readPrev_insertAt, if_neg hold, if_neg (member_ne d _ hd), hprev]
  case links =>
    rintro d b (⟨rfl, rfl⟩ | hb) hn
    · rw [State.readNext_insertAt, if_pos rfl] at hn ⊢
      obtain ⟨⟨d, hd⟩, hprev, hkey⟩ := h.heads _ hn
      refine ⟨⟨d, older d _ hd, .inr hd⟩, ?_, by simp [hkey]⟩
      rw [State.readPrev_insertAt, if_pos ⟨hn, rfl⟩]
    · rw [State.readNext_insertAt, if_neg (member_ne d b hb)] at hn ⊢
      obtain ⟨⟨e, hlt, he⟩, hprev, hkey⟩ := h.links d b hb hn
      have hold : ¬ (s.readHash (s.keyOf a.toNat) ≠ 0 ∧
          s.readNext b = s.readHash (s.keyOf a.toNat)) := fun hh =>
        nonzero d b hb (by rw [← hprev, hh.2, (h.heads _ hh.1).2.1])
      refine ⟨⟨e, hlt, .inr he⟩, ?_, by simp [hkey]⟩
      rw [State.readPrev_insertAt, if_neg hold, if_neg (member_ne e _ he), hprev]
  case backs =>
    rintro d b (⟨rfl, rfl⟩ | hb)
    · have hold : ¬ (s.readHash (s.keyOf b.toNat) ≠ 0 ∧ b = s.readHash (s.keyOf b.toNat)) :=
        fun hh => head_member _ hh.1 hh.2.symm
      left
      rw [State.readPrev_insertAt, if_neg hold, if_pos rfl, State.keyOf_insertAt,
        State.readHash_insertAt, if_pos rfl]
      exact ⟨rfl, rfl⟩
    · by_cases hold : s.readHash (s.keyOf a.toNat) ≠ 0 ∧ b = s.readHash (s.keyOf a.toNat)
      · right
        rw [State.readPrev_insertAt, if_pos hold, State.readNext_insertAt, if_pos rfl]
        exact ⟨⟨0, older d b hb, .inl ⟨rfl, rfl⟩⟩, hold.2.symm⟩
      · rw [State.readPrev_insertAt, if_neg hold, if_neg (member_ne d b hb), State.keyOf_insertAt]
        rcases h.backs d b hb with ⟨hprev, hhead⟩ | ⟨⟨e, hlt, he⟩, hnext⟩
        · have hkey : s.keyOf b.toNat ≠ s.keyOf a.toNat := fun hh =>
            hold (by rw [← hh, hhead]; exact ⟨nonzero d b hb, rfl⟩)
          exact .inl ⟨hprev, by rw [State.readHash_insertAt, if_neg hkey, hhead]⟩
        · exact .inr ⟨⟨e, hlt, .inr he⟩,
            by rw [State.readNext_insertAt, if_neg (member_ne e _ he), hnext]⟩

end State.Linked

/-! ### Members -/

theorem State.memberAt_iff {s : State} {n d : Nat} {a : Addr} :
    s.memberAt n d a ↔ 1 ≤ d ∧ d ≤ min n 8174 ∧
      a.toNat = (s.dictHead.toNat + (8192 - d)) % 8192 ∧ a ≠ 0 := by
  rw [State.memberAt, ← BitVec.toNat_inj, toNat_slotAt]

/-- An address is a member at one age only. -/
theorem State.memberAt_age_unique {s : State} {n d e : Nat} {a : Addr} (hd : s.memberAt n d a)
    (he : s.memberAt n e a) : d = e := by
  obtain ⟨h1, h2, h3, -⟩ := memberAt_iff.1 hd
  obtain ⟨k1, k2, k3, -⟩ := memberAt_iff.1 he
  omega

/-- The evicted slot, as a member, is the oldest possible one (42_matchindex.md R105). -/
theorem State.memberAt_evicted {s : State} {n d : Nat} (h : s.memberAt n d s.evicted) :
    d = 8174 := by
  obtain ⟨h1, h2, h3, -⟩ := memberAt_iff.1 h
  simp only [State.evicted, toNat_slotAt, Config.maxMatch] at h3
  omega

/-- The cursor is no member: every member is behind it by less than a lap. -/
theorem State.not_memberAt_dictHead {s : State} {n d : Nat} : ¬ s.memberAt n d s.dictHead := by
  intro h
  obtain ⟨h1, h2, h3, -⟩ := memberAt_iff.1 h
  have := s.dictHead.isLt
  omega

/-- One ADVANCE later the members are the old cursor and the old members but the evicted one, each one
position older. -/
theorem State.memberAt_succ {s t : State} (ht : t.dictHead = slotAt s.dictHead 1) (n d : Nat)
    (a : Addr) :
    t.memberAt (n + 1) d a ↔ ∃ e, d = e + 1 ∧
      ((e = 0 ∧ a = s.dictHead ∧ a ≠ 0) ∨ (s.memberAt n e a ∧ a ≠ s.evicted)) := by
  have hh := s.dictHead.isLt
  have hev : a = s.evicted ↔ a.toNat = (s.dictHead.toNat + 18) % 8192 := by
    rw [← BitVec.toNat_inj, State.evicted, toNat_slotAt]
  have hcur : a = s.dictHead ↔ a.toNat = s.dictHead.toNat := BitVec.toNat_inj.symm
  simp only [State.memberAt_iff, ne_eq, hev, hcur, ht, toNat_slotAt]
  constructor
  · rintro ⟨h1, h2, h3, h0⟩
    refine ⟨d - 1, by omega, ?_⟩
    by_cases hd : d = 1
    · exact .inl ⟨by omega, by omega, h0⟩
    · exact .inr ⟨⟨by omega, by omega, by omega, h0⟩, by omega⟩
  · rintro ⟨e, rfl, ⟨rfl, h3, h0⟩ | ⟨⟨h1, h2, h3, h0⟩, hne⟩⟩
    · exact ⟨by omega, by omega, by omega, h0⟩
    · exact ⟨by omega, by omega, by omega, h0⟩

end Sys2Proof.Machine
end

section
/-! PROOFS. ADVANCE keeps the index, and the chain walk of an index visits exactly the members of its
key. -/

namespace Sys2Proof.Machine

/-! ### ADVANCE on the chains -/

/-- The state between ADVANCE's refill and its INSERT: the slot ahead is evicted and refilled, or left
at EOI (41_window.md R92 steps 1 and 2). -/
def State.refilled (s : State) : State :=
  match pull s.evict with
  | (some b, t) => t.writeW s.evicted b
  | (none, t) => t

theorem State.refilled_cases (s : State) :
    (s.src = [] ∧ s.refilled = { s.evict with srcReq := false } ∧
      advance s = s.refilled.passCursor.dropWaiting) ∨
    ∃ b rest, s.src = b :: rest ∧
      s.refilled = State.writeW { s.evict with srcReq := false, src := rest } s.evicted b ∧
      advance s = s.refilled.passCursor := by
  have hsrc : s.evict.src = s.src := by rw [s.evict_frame]
  rcases pull_cases s.evict with ⟨h, e⟩ | ⟨b, rest, h, e⟩
  · exact .inl ⟨hsrc ▸ h, by simp only [State.refilled, e], by simp only [State.refilled, advance, e]⟩
  · exact .inr ⟨b, rest, hsrc ▸ h, by simp only [State.refilled, e],
      by simp only [State.refilled, advance, e]⟩

theorem State.dropWaiting_memories (s : State) : SameMemories s s.dropWaiting := by
  rw [s.dropWaiting_frame]
  exact ⟨fun _ => rfl, fun _ => rfl, fun _ => rfl, fun _ => rfl⟩

theorem advance_memories (s : State) : SameMemories s.refilled.passCursor (advance s) := by
  rcases s.refilled_cases with ⟨-, -, h⟩ | ⟨b, rest, -, -, h⟩ <;> rw [h]
  · exact State.dropWaiting_memories _
  · exact ⟨fun _ => rfl, fun _ => rfl, fun _ => rfl, fun _ => rfl⟩

@[simp] theorem State.readPrev_evict (s : State) (a : Addr) : s.evict.readPrev a = s.readPrev a := by
  rw [s.evict_frame]; rfl

@[simp] theorem State.readPrev_refilled (s : State) (a : Addr) :
    s.refilled.readPrev a = s.readPrev a := by
  rcases s.refilled_cases with ⟨-, h, -⟩ | ⟨b, rest, -, h, -⟩ <;> rw [h]
  all_goals exact s.readPrev_evict a

@[simp] theorem State.dictHead_refilled (s : State) : s.refilled.dictHead = s.dictHead := by
  rcases s.refilled_cases with ⟨-, h, -⟩ | ⟨b, rest, -, h, -⟩
  · rw [h, s.evict_frame]
  · rw [h, State.writeW_dictHead, s.evict_frame]

@[simp] theorem advance_dictHead (s : State) : (advance s).dictHead = slotAt s.dictHead 1 := by
  have cursor : s.refilled.passCursor.dictHead = slotAt s.dictHead 1 := by
    rw [State.passCursor_frame, State.dictHead_refilled]
  rcases s.refilled_cases with ⟨-, -, h⟩ | ⟨b, rest, -, -, h⟩
  · rw [h, State.dropWaiting_frame]
    exact cursor
  · rw [h, cursor]

/-- The refill touches no key but those of the evicted slot and its two predecessors, which lie ahead
of every member (70_reset_and_hazards.md R154). -/
theorem State.keyOf_refilled {s : State} {n d : Nat} {a : Addr} (h : s.memberAt n d a)
    (hne : a ≠ s.evicted) : s.refilled.keyOf a.toNat = s.evict.keyOf a.toNat := by
  apply State.keyOf_congr
  intro i hi
  rcases s.refilled_cases with ⟨-, e, -⟩ | ⟨b, rest, -, e, -⟩
  · rw [e]; rfl
  · have hslot : slotAt a i ≠ s.evicted := by
      obtain ⟨h1, h2, h3, -⟩ := memberAt_iff.1 h
      rw [ne_eq, ← BitVec.toNat_inj, State.evicted, toNat_slotAt] at hne
      rw [ne_eq, State.evicted, slotAt_eq_iff]
      simp only [Config.maxMatch] at *
      omega
    rw [e, State.readW_writeW, if_neg hslot]
    rfl

/-- ADVANCE's first step takes the member the cursor is about to reach out of its chain (R105, R153). -/
theorem State.Indexed.evict {s : State} {n : Nat} (h : s.Indexed n) :
    s.evict.Linked fun d a => s.memberAt n d a ∧ a ≠ s.evicted := by
  obtain ⟨hl, fresh⟩ := State.indexed_iff.1 h
  unfold State.evict
  split
  next h0 =>
    have same : (fun d a => s.memberAt n d a ∧ a ≠ s.evicted) = s.memberAt n := by
      funext d a
      exact propext (and_iff_left_of_imp fun hd he => hd.2.2.2 (he.trans h0))
    rwa [same]
  next h0 =>
    refine hl.removeAt (fun d a ha => ha.2.2.2) h0 (fun d d' a hd hd' => ?oldest) fun hno => ?fresh
    case oldest =>
      have := (State.memberAt_iff.1 hd').2.1
      rw [State.memberAt_evicted hd]
      omega
    case fresh =>
      by_cases hn : n < 8174
      · exact fresh hn _ hno
      · refine absurd (State.memberAt_iff.2 ⟨?_, ?_, ?_, h0⟩) (hno 8174)
        · omega
        · omega
        · simp [State.evicted, Config.maxMatch]

theorem State.Indexed.refilled {s : State} {n : Nat} (h : s.Indexed n) :
    s.refilled.Linked fun d a => s.memberAt n d a ∧ a ≠ s.evicted := by
  refine h.evict.congr ?_ (by simp) ?_ fun d a ha => State.keyOf_refilled ha.1 ha.2
  all_goals
    rcases s.refilled_cases with ⟨-, e, -⟩ | ⟨b, rest, -, e, -⟩ <;> rw [e] <;> exact fun _ => rfl

/-- Indexing the cursor makes it the youngest member, unless it is at the sentinel (R158). -/
theorem State.Linked.passCursor {M : Nat → Addr → Prop} {s : State} (h : s.Linked M)
    (nonzero : ∀ d a, M d a → a ≠ 0) (older : ∀ d a, M d a → 0 < d)
    (new : ∀ d, ¬ M d s.dictHead) :
    s.passCursor.Linked fun d a => (d = 0 ∧ a = s.dictHead ∧ a ≠ 0) ∨ M d a := by
  unfold State.passCursor
  by_cases h0 : s.dictHead = Config.null
  · have same : (fun d a => (d = 0 ∧ a = s.dictHead ∧ a ≠ 0) ∨ M d a) = M := by
      funext d a
      refine propext (or_iff_right ?_)
      rintro ⟨-, rfl, ha⟩
      exact ha h0
    rw [if_pos h0, same]
    exact ⟨h.heads, h.links, h.backs⟩
  · have same : (fun d a => (d = 0 ∧ a = s.dictHead ∧ a ≠ 0) ∨ M d a) =
        fun d a => (d = 0 ∧ a = s.dictHead) ∨ M d a := by
      funext d a
      refine propext (or_congr_left (and_congr_right fun _ => and_iff_left_of_imp ?_))
      rintro rfl
      exact h0
    have hi := h.insertAt nonzero older h0 new
    rw [if_neg h0, same]
    exact ⟨hi.heads, hi.links, hi.backs⟩

/-- Indexing the cursor gives a `prev` to members only, and clears its own. -/
theorem State.Linked.readPrev_passCursor {M : Nat → Addr → Prop} {s : State} (h : s.Linked M)
    {a : Addr} (hno : ∀ d, ¬ M d a) (hprev : s.readPrev a = 0) : s.passCursor.readPrev a = 0 := by
  unfold State.passCursor
  split
  · exact hprev
  · have hold : ¬ (s.readHash (s.keyOf s.dictHead.toNat) ≠ 0 ∧
        a = s.readHash (s.keyOf s.dictHead.toNat)) := by
      rintro ⟨hk, rfl⟩
      obtain ⟨⟨d, hd⟩, -⟩ := h.heads _ hk
      exact hno d hd
    show (s.insertAt _ _).readPrev a = 0
    rw [State.readPrev_insertAt, if_neg hold, hprev, ite_self]

/-- ADVANCE keeps the index: the evicted member leaves, the old cursor enters (R104, R105). -/
theorem State.Indexed.advance {s : State} {n : Nat} (h : s.Indexed n) :
    (advance s).Indexed (n + 1) := by
  have hr := h.refilled
  obtain ⟨hwin, hhash, hprev, hnext⟩ := advance_memories s
  have members := State.memberAt_succ (advance_dictHead s) n
  refine State.indexed_iff.2 ⟨?linked, fun hn a hno => ?fresh⟩
  case linked =>
    refine ((hr.passCursor (fun d a ha => ha.1.2.2.2) (fun d a ha => ha.1.1) ?new).congr hhash hprev
      hnext fun d a _ => State.keyOf_congr fun i _ => hwin _).aged ?ages
    case new =>
      rw [State.dictHead_refilled]
      exact fun d hd => State.not_memberAt_dictHead hd.1
    case ages =>
      rw [State.dictHead_refilled]
      exact members
  case fresh =>
    have hold : ∀ d, ¬ s.memberAt n d a := fun d hd => by
      refine hno (d + 1) ((members _ _).2 ⟨d, rfl, .inr ⟨hd, ?_⟩⟩)
      rintro rfl
      have := State.memberAt_evicted hd
      have := hd.2.1
      omega
    rw [hprev]
    refine hr.readPrev_passCursor (fun d hd => hold d hd.1) ?_
    rw [State.readPrev_refilled]
    exact h.fresh (by omega) a hold

/-! ### Chains of an index -/

/-- A walk shorter than its bound ended at a 0, so it is closed under `next`. -/
theorem next_mem_chainWalk {m : Memory 13} {fuel : Nat} {c d : Addr} (hd : d ∈ chainWalk m fuel c)
    (hlen : (chainWalk m fuel c).length < fuel) (hn : m.read d.toNat ≠ 0) :
    m.read d.toNat ∈ chainWalk m fuel c := by
  induction fuel generalizing c with
  | zero => simp [chainWalk] at hd
  | succ fuel ih =>
    rw [chainWalk_succ] at hd hlen ⊢
    split at hd
    next => simp at hd
    next hc =>
      rw [if_neg hc, List.length_cons] at hlen
      rw [if_neg hc]
      rcases List.mem_cons.1 hd with rfl | hd
      · refine List.mem_cons_of_mem _ ?_
        cases fuel with
        | zero => omega
        | succ fuel => rw [chainWalk_succ, if_neg hn]; exact List.mem_cons_self
      · exact List.mem_cons_of_mem _ (ih hd (by omega))

@[simp] theorem chainWalk_null (m : Memory 13) (fuel : Nat) : chainWalk m fuel 0 = [] := by
  cases fuel with
  | zero => rfl
  | succ fuel => rw [chainWalk_succ, if_pos rfl]

theorem State.chainFrom_eq_nil {s : State} {k : Key} (h : s.readHash k = 0) :
    s.chainFrom k = [] := by
  rw [State.chainFrom, h, chainWalk_null]

namespace State.Linked

variable {M : Nat → Addr → Prop} {s : State}

/-- Behind a member a walk finds older members of the same key. -/
theorem mem_chainWalk_next (h : s.Linked M) {fuel d : Nat} {c a : Addr} (hc : M d c)
    (ha : a ∈ chainWalk s.next fuel (s.readNext c)) :
    ∃ e, d < e ∧ M e a ∧ s.keyOf a.toNat = s.keyOf c.toNat := by
  induction fuel generalizing c d with
  | zero => simp [chainWalk] at ha
  | succ fuel ih =>
    rw [chainWalk_succ] at ha
    split at ha
    next => simp at ha
    next hn =>
      obtain ⟨⟨e, hlt, he⟩, -, hkey⟩ := h.links d c hc hn
      rcases List.mem_cons.1 ha with rfl | ha
      · exact ⟨e, hlt, he, hkey⟩
      · obtain ⟨e', hlt', he', hkey'⟩ := ih he ha
        exact ⟨e', by omega, he', hkey'.trans hkey⟩

/-- A walk from a member goes from younger to older members. -/
theorem chainWalk_pairwise (h : s.Linked M) {fuel d : Nat} {c : Addr} (hc : M d c) :
    (chainWalk s.next fuel c).Pairwise fun a b => ∃ d e, d < e ∧ M d a ∧ M e b := by
  induction fuel generalizing c d with
  | zero => simp [chainWalk]
  | succ fuel ih =>
    rw [chainWalk_succ]
    split
    · exact .nil
    · refine List.pairwise_cons.2 ⟨fun b hb => ?_, ?_⟩
      · obtain ⟨e, hlt, he, -⟩ := h.mem_chainWalk_next hc hb
        exact ⟨d, e, hlt, hc, he⟩
      · by_cases hn : s.readNext c = 0
        · rw [show s.next.read c.toNat = 0 from hn, chainWalk_null]
          exact .nil
        · obtain ⟨⟨e, -, he⟩, -⟩ := h.links d c hc hn
          exact ih he

/-- A walk from a member is no longer than the ages that are left. -/
theorem length_chainWalk (h : s.Linked M) {bound : Nat} (hM : ∀ d a, M d a → d ≤ bound)
    {fuel d : Nat} {c : Addr} (hc : M d c) : (chainWalk s.next fuel c).length + d ≤ bound + 1 := by
  induction fuel generalizing c d with
  | zero => have := hM d c hc; simp [chainWalk]; omega
  | succ fuel ih =>
    have hd := hM d c hc
    rw [chainWalk_succ]
    split
    · simp; omega
    · by_cases hn : s.readNext c = 0
      · rw [show s.next.read c.toNat = 0 from hn, chainWalk_null]
        simp
        omega
      · obtain ⟨⟨e, hlt, he⟩, -⟩ := h.links d c hc hn
        have := ih (c := s.readNext c) he
        rw [List.length_cons, show s.next.read c.toNat = s.readNext c from rfl]
        omega

/-- A chain holds members of its key only. -/
theorem of_mem_chainFrom (h : s.Linked M) {k : Key} {a : Addr} (ha : a ∈ s.chainFrom k) :
    (∃ d, M d a) ∧ s.keyOf a.toNat = k := by
  unfold State.chainFrom Config.chainFuel at ha
  rw [chainWalk_succ] at ha
  split at ha
  next => simp at ha
  next h0 =>
    obtain ⟨⟨d, hd⟩, -, hkey⟩ := h.heads k h0
    rcases List.mem_cons.1 ha with rfl | ha
    · exact ⟨⟨d, hd⟩, hkey⟩
    · obtain ⟨e, -, he, hkey'⟩ := h.mem_chainWalk_next hd ha
      exact ⟨⟨e, he⟩, hkey'.trans hkey⟩

/-- A chain that its bound does not cut holds every member of its key: the youngest is the bucket's, and
each other one is the `next` of a younger one. -/
theorem mem_chainFrom (h : s.Linked M) (nonzero : ∀ d a, M d a → a ≠ 0) {d : Nat} {a : Addr}
    (ha : M d a) (hlen : (s.chainFrom (s.keyOf a.toNat)).length < Config.chainFuel) :
    a ∈ s.chainFrom (s.keyOf a.toNat) := by
  induction d using Nat.strong_induction_on generalizing a with
  | _ d ih =>
    rcases h.backs d a ha with ⟨-, hhead⟩ | ⟨⟨e, hlt, he⟩, hnext⟩
    · rw [State.chainFrom, Config.chainFuel, hhead, chainWalk_succ, if_neg (nonzero d a ha)]
      exact List.mem_cons_self
    · have hn : s.readNext (s.readPrev a) ≠ 0 := hnext.symm ▸ nonzero d a ha
      have hkey : s.keyOf a.toNat = s.keyOf (s.readPrev a).toNat := by
        rw [← (h.links e _ he hn).2.2, hnext]
      rw [hkey] at hlen ⊢
      have := next_mem_chainWalk (ih e hlt he hlen) hlen hn
      rwa [show s.next.read (s.readPrev a).toNat = a from hnext] at this

end State.Linked

theorem State.Indexed.linked {s : State} {n : Nat} (h : s.Indexed n) : s.Linked (s.memberAt n) :=
  (State.indexed_iff.1 h).1

theorem State.Indexed.length_chainFrom {s : State} {n : Nat} (h : s.Indexed n) (k : Key) :
    (s.chainFrom k).length ≤ 8174 := by
  by_cases h0 : s.readHash k = 0
  · simp [State.chainFrom_eq_nil h0]
  · obtain ⟨⟨d, hd⟩, -⟩ := h.heads k h0
    have := h.linked.length_chainWalk (bound := 8174) (fuel := Config.chainFuel)
      (fun d a ha => by have := ha.2.1; omega) hd
    have := hd.1
    rw [State.chainFrom]
    omega

theorem State.Indexed.chainFrom_pairwise {s : State} {n : Nat} (h : s.Indexed n) (k : Key) :
    (s.chainFrom k).Pairwise fun a b => ∃ d e, d < e ∧ s.memberAt n d a ∧ s.memberAt n e b := by
  by_cases h0 : s.readHash k = 0
  · simp [State.chainFrom_eq_nil h0]
  · obtain ⟨⟨d, hd⟩, -⟩ := h.heads k h0
    exact h.linked.chainWalk_pairwise hd

theorem State.Indexed.mem_chainFrom_iff {s : State} {n : Nat} (h : s.Indexed n) (k : Key)
    (a : Addr) : a ∈ s.chainFrom k ↔ (∃ d, s.memberAt n d a) ∧ s.keyOf a.toNat = k := by
  refine ⟨h.linked.of_mem_chainFrom, ?_⟩
  rintro ⟨⟨d, hd⟩, rfl⟩
  refine h.linked.mem_chainFrom (fun d a ha => ha.2.2.2) hd ?_
  have := h.length_chainFrom (s.keyOf a.toNat)
  simp only [Config.chainFuel]
  omega

theorem State.Indexed.chainFrom_nodup {s : State} {n : Nat} (h : s.Indexed n) (k : Key) :
    (s.chainFrom k).Nodup := by
  refine (h.chainFrom_pairwise k).imp ?_
  rintro a b ⟨d, e, hlt, hd, he⟩ rfl
  exact absurd (State.memberAt_age_unique hd he) (by omega)

/-- Settles O44: the chain walk of an index visits the members of its key from young to old, and each
of them is reached because the one before it in its chain is. -/
theorem chainsHoldTheMembersOfTheirKey : Obligations.ChainsHoldTheMembersOfTheirKey := by
  intro n s h k
  exact ⟨h.mem_chainFrom_iff k, h.chainFrom_pairwise k, h.chainFrom_nodup k, h.length_chainFrom k⟩

end Sys2Proof.Machine
end

section
/-! PROOFS. The frames of the shared operations, and what a step can do, said once (43_encoder.md
R120). -/

namespace Sys2Proof.Machine

/-! ### What the operations that write bits leave -/

/-- A part that writes bits and completes differs in the BitWriter and the sink only; abandoned, it is
in FAULT besides (60_exceptions.md R135). -/
def Flow.WritesOnly (s : State) : Flow → Prop
  | .completed t => OnlyWriter s t
  | .abandoned t => OnlyWriterAndFault s t ∧ t.phase = .fault

theorem Flow.WritesOnly.andThen {s : State} {f : Flow} {k : State → Flow} (hf : f.WritesOnly s)
    (hk : ∀ t, (k t).WritesOnly t) : (f.andThen k).WritesOnly s := by
  cases f with
  | abandoned t => exact hf
  | completed t =>
    have hkt := hk t
    rw [Flow.andThen_completed]
    cases hu : k t with
    | completed u => rw [hu] at hkt; exact OnlyWriter.trans hf hkt
    | abandoned u =>
      rw [hu] at hkt
      exact ⟨(OnlyWriter.andFault hf).trans hkt.1, hkt.2⟩

theorem Flow.WritesOnly.state {s : State} {f : Flow} (hf : f.WritesOnly s) :
    OnlyWriterAndFault s f.state := by
  cases f with
  | completed t => exact OnlyWriter.andFault hf
  | abandoned t => exact hf.1

theorem writeBit_writesOnly (b : Bool) (s : State) : (writeBit b s).WritesOnly s := by
  rcases writeBit_cases b s with ⟨-, h⟩ | ⟨-, -, h⟩ | ⟨-, -, h⟩ <;> rw [h]
  · exact rfl
  · exact rfl
  · exact ⟨rfl, rfl⟩

theorem writeStream_writesOnly (bs : List Bool) (s : State) : (writeStream bs s).WritesOnly s := by
  induction bs generalizing s with
  | nil => exact OnlyWriter.refl s
  | cons b bs ih => exact (writeBit_writesOnly b s).andThen ih

theorem flush_writesOnly (s : State) : (flush s).WritesOnly s := by
  rcases flush_cases s with ⟨-, h⟩ | ⟨-, -, h⟩ | ⟨-, -, h⟩ <;> rw [h]
  · exact OnlyWriter.refl s
  · exact rfl
  · exact ⟨rfl, rfl⟩

theorem OnlyWriter.phase {s t : State} (h : OnlyWriter s t) : t.phase = s.phase := by
  rw [h]

/-! ### PRIME and ADVANCE, frames -/

/-- Nothing but the window, the index, the lookahead, the source and the free values differs. -/
def OnlyDictionary (s t : State) : Prop :=
  t = { s with
    window := t.window, hash := t.hash, prev := t.prev, next := t.next, dictHead := t.dictHead
    waitingBytes := t.waitingBytes, src := t.src, srcReq := t.srcReq, freeIndex := t.freeIndex }

theorem OnlyDictionary.trans {s t u : State} (h : OnlyDictionary s t) (k : OnlyDictionary t u) :
    OnlyDictionary s u := by
  unfold OnlyDictionary at *
  rw [k, h]

theorem State.refilled_onlyDictionary (s : State) : OnlyDictionary s s.refilled := by
  have evicts : OnlyDictionary s s.evict := by
    rw [s.evict_frame]
    rfl
  rcases s.refilled_cases with ⟨-, h, -⟩ | ⟨b, rest, -, h, -⟩ <;> rw [h]
  · exact evicts.trans rfl
  · exact evicts.trans rfl

theorem State.passCursor_onlyDictionary (s : State) : OnlyDictionary s s.passCursor := by
  rw [s.passCursor_frame]
  rfl

theorem State.dropWaiting_onlyDictionary (s : State) : OnlyDictionary s s.dropWaiting := by
  rw [s.dropWaiting_frame]
  rfl

/-- ADVANCE's frame (R92). -/
theorem advance_onlyDictionary (s : State) : OnlyDictionary s (advance s) := by
  have passes := s.refilled_onlyDictionary.trans s.refilled.passCursor_onlyDictionary
  rcases s.refilled_cases with ⟨-, -, h⟩ | ⟨b, rest, -, -, h⟩ <;> rw [h]
  · exact passes.trans (State.dropWaiting_onlyDictionary _)
  · exact passes

/-- PRIME's frame (R90). -/
theorem prime_frame (s : State) :
    prime s = { s with
      window := (prime s).window, waitingBytes := (prime s).waitingBytes, src := (prime s).src
      srcReq := (prime s).srcReq } :=
  congrArg (fun t : State => { t with waitingBytes := (prime s).waitingBytes })
    (primeLoop_frame Config.maxMatch 0 s)

theorem prime_phase (s : State) : (prime s).phase = s.phase := by
  rw [prime_frame]

theorem advance_phase (s : State) : (advance s).phase = s.phase := by
  rw [advance_onlyDictionary s]

/-! ### The moves of the sequencer -/

/-- TERMINATE when the sink answers: EMITTERM, FINISH, then DONE, each only if the one before was not
abandoned (43_encoder.md R119). -/
def terminated (s : State) : Flow :=
  ((writeLong 0 0 s).andThen flush).andThen fun t => .completed { t with phase := .done }

/-- Every move of the sequencer from `u`, the state whose port values of this step are used up
(43_encoder.md R120; 60_exceptions.md R140). -/
inductive Moves (u : State) : State → Prop
  /-- A quiescent phase without a start request. -/
  | rest (h : u.busy = false) : Moves u u
  /-- A quiescent phase with one. -/
  | start (h : u.busy = false) (src : List Byte) (outCap : Option Nat) :
    Moves u (construct { u with src := src, outCap := outCap })
  /-- The source withholds its answer. -/
  | awaitPull (h : u.phase = .prime ∨ u.phase = .maintain) : Moves u { u with srcReq := true }
  /-- The sink withholds its answer. -/
  | awaitPush (h : u.phase = .emit ∨ u.phase = .terminate) (b : Byte) :
    Moves u { u with snkReq := true, snkByte := b }
  | prime (h : u.phase = .prime) : Moves u { prime u with phase := (prime u).loopPhase }
  | search (h : u.phase = .search) : Moves u (search u)
  | emitLit (h : u.phase = .emit) (hlen : u.bestLen < 3) : Moves u (emitLiteral u).state
  | emitMatch (h : u.phase = .emit) (hlen : ¬ u.bestLen < 3) : Moves u (emitMatch u).state
  | maintain (h : u.phase = .maintain) : Moves u (afterAdvance (advance u))
  | terminate (h : u.phase = .terminate) : Moves u (terminated u).state

/-- A step that waits raises the request of a port its operation uses. -/
theorem State.waiting_cases {s t : State} {inp : PortInput} {i : Instr}
    (h : s.waiting inp i = some t) :
    (performsPull i = true ∧ t = { s with srcReq := true }) ∨
    (s.pushes i = true ∧ ∃ b, t = { s with snkReq := true, snkByte := b }) := by
  unfold State.waiting at h
  split at h
  next hp => exact .inl ⟨(Bool.and_eq_true_iff.1 hp).1, (Option.some.inj h).symm⟩
  next =>
    split at h
    next hp => exact .inr ⟨(Bool.and_eq_true_iff.1 hp).1, _, (Option.some.inj h).symm⟩
    next => cases h

/-- An operation that writes no bits pushes nothing. -/
theorem State.pushes_of_noBits (s : State) {i : Instr} (hi : i ≠ .finish) (hb : bitsWritten i = 0) :
    s.pushes i = false := by
  have := s.nbits.isLt
  simp [State.pushes, hi, hb]
  omega

theorem afterOperation_fault {p : Phase} {t : State} (h : t.phase = .fault) :
    afterOperation p t = .next t := by
  simp [afterOperation, h]

theorem afterOperation_terminate {t : State} (h : t.phase ≠ .fault) :
    afterOperation .terminate t = afterTerm t := by
  simp [afterOperation, h]

/-- FINISH and DONE, when the terminator's bits are written. -/
theorem afterTerm_eq (s : State) (h : s.phase ≠ .fault) :
    afterTerm s = .next ((flush s).andThen fun t => .completed { t with phase := .done }).state := by
  have hw := flush_writesOnly s
  show Host.Outcome.next (if (flush s).state.phase = .fault then _ else _) = _
  cases hf : flush s with
  | abandoned t =>
    rw [hf] at hw
    rw [Flow.state_abandoned, if_pos hw.2]
    rfl
  | completed t =>
    rw [hf] at hw
    have ht : t.phase = s.phase := OnlyWriter.phase hw
    rw [Flow.state_completed, if_neg (ht ▸ h)]
    rfl

/-- What the sequencer does in TERMINATE once the sink answers. -/
theorem afterOperation_emitTerm (s : State) (h : s.phase = .terminate) :
    afterOperation .terminate (writeLong 0 0 s).state = .next (terminated s).state := by
  have hw : (writeLong 0 0 s).WritesOnly s := by
    rw [writeLong_eq]
    exact writeStream_writesOnly _ s
  unfold terminated
  cases hf : writeLong 0 0 s with
  | abandoned t =>
    rw [hf] at hw
    exact afterOperation_fault hw.2
  | completed t =>
    rw [hf] at hw
    have ht : t.phase ≠ .fault := by
      rw [OnlyWriter.phase hw, h]
      decide
    rw [Flow.state_completed, afterOperation_terminate ht, afterTerm_eq t ht]
    rfl

/-- A busy phase either waits for a port or performs its operation. -/
theorem performPhase_cases {s t : State} {inp : PortInput} {i : Instr}
    (h : performPhase inp i s = .next t) :
    s.waiting inp i = some t ∨ ∃ v, exec i s = .next v ∧ afterOperation s.phase v = .next t := by
  unfold performPhase at h
  split at h
  next hw => exact .inl (by rw [hw]; exact congrArg some (Host.Outcome.next.inj h))
  next =>
    split at h
    next v hv => exact .inr ⟨v, hv, h⟩
    next => cases h
    next => cases h

/-- Which operation a busy phase performs, read backwards (R120). -/
theorem State.sequenced_cases {s : State} {i : Instr} (h : s.sequenced = some i) :
    (s.phase = .prime ∧ i = .prime) ∨ (s.phase = .search ∧ i = .search) ∨
      (s.phase = .emit ∧ s.bestLen < 3 ∧ i = .emitLit) ∨
      (s.phase = .emit ∧ ¬ s.bestLen < 3 ∧ i = .emitMatch) ∨
      (s.phase = .maintain ∧ i = .advance) ∨ (s.phase = .terminate ∧ i = .emitTerm) := by
  cases hp : s.phase <;> simp only [State.sequenced, hp] at h
  case emit =>
    split at h
    next hl => cases h; exact .inr (.inr (.inl ⟨rfl, hl, rfl⟩))
    next hl => cases h; exact .inr (.inr (.inr (.inl ⟨rfl, hl, rfl⟩)))
  all_goals cases h
  all_goals simp

theorem State.busy_of_sequenced {s : State} : s.busy = s.sequenced.isSome := by
  cases hp : s.phase <;> simp only [State.busy, State.sequenced, hp, Option.isSome_none,
    Option.isSome_some]
  split <;> rfl

/-- A waiting step waits for the source in PRIME and MAINTAIN, for the sink in EMIT and TERMINATE. -/
theorem moves_of_waiting {s t : State} {inp : PortInput} {i : Instr} (hi : s.sequenced = some i)
    (h : s.waiting inp i = some t) : Moves s t := by
  rcases State.waiting_cases h with ⟨hpull, rfl⟩ | ⟨hpush, b, rfl⟩
  · refine .awaitPull ?_
    rcases State.sequenced_cases hi with ⟨hp, rfl⟩ | ⟨hp, rfl⟩ | ⟨hp, -, rfl⟩ | ⟨hp, -, rfl⟩ |
      ⟨hp, rfl⟩ | ⟨hp, rfl⟩
    · exact .inl hp
    · cases hpull
    · cases hpull
    · cases hpull
    · exact .inr hp
    · cases hpull
  · refine .awaitPush ?_ b
    have writes : i = .finish ∨ bitsWritten i ≠ 0 := by
      by_contra hno
      rw [not_or, not_not] at hno
      rw [s.pushes_of_noBits hno.1 hno.2] at hpush
      cases hpush
    rcases State.sequenced_cases hi with ⟨hp, rfl⟩ | ⟨hp, rfl⟩ | ⟨hp, -, rfl⟩ | ⟨hp, -, rfl⟩ |
      ⟨hp, rfl⟩ | ⟨hp, rfl⟩
    · simp [bitsWritten] at writes
    · simp [bitsWritten] at writes
    · exact .inl hp
    · exact .inl hp
    · simp [bitsWritten] at writes
    · exact .inr hp

/-- A quiescent block rests or starts. -/
theorem moves_of_quiescent {s t : State} {inp : PortInput} (hb : s.busy = false)
    (h : quiescent inp s = .next t) : Moves s t := by
  unfold quiescent at h
  split at h
  next => cases h; exact .rest hb
  next r _ =>
    have hs : exec .start { s with src := r.src, outCap := r.outCap } =
        .next (construct { s with src := r.src, outCap := r.outCap }) := by
      have ha : State.acceptsStart { s with src := r.src, outCap := r.outCap } = !s.busy := rfl
      exact if_pos (by rw [ha, hb]; rfl)
    cases hs.symm.trans h
    exact .start hb _ _

/-- EMITLIT and EMITMATCH leave the phase to themselves: nothing follows them. -/
theorem afterOperation_emit (t : State) : afterOperation .emit t = .next t := by
  simp [afterOperation]

/-- A step without reset and without a presented word is a move of the sequencer. -/
theorem moves_of_sequence {s t : State} {inp : PortInput} (h : sequence inp s = .next t) :
    Moves s t := by
  cases hs : s.sequenced with
  | none =>
    simp only [sequence, hs] at h
    exact moves_of_quiescent (by rw [State.busy_of_sequenced, hs]; rfl) h
  | some i =>
    simp only [sequence, hs] at h
    rcases performPhase_cases h with hw | ⟨v, hv, ha⟩
    · exact moves_of_waiting hs hw
    rcases State.sequenced_cases hs with ⟨hp, rfl⟩ | ⟨hp, rfl⟩ | ⟨hp, hl, rfl⟩ | ⟨hp, hl, rfl⟩ |
      ⟨hp, rfl⟩ | ⟨hp, rfl⟩ <;> rw [hp] at ha <;> cases hv
    · have hphase : (prime s).phase ≠ .fault := by rw [prime_phase, hp]; decide
      rw [afterOperation, if_neg hphase] at ha
      cases ha
      exact .prime hp
    · cases ha
      exact .search hp
    · rw [afterOperation_emit] at ha
      cases ha
      exact .emitLit hp hl
    · rw [afterOperation_emit] at ha
      cases ha
      exact .emitMatch hp hl
    · have hphase : (advance s).phase ≠ .fault := by rw [advance_phase, hp]; decide
      rw [afterOperation, if_neg hphase] at ha
      cases ha
      exact .maintain hp
    · cases (afterOperation_emitTerm s hp).symm.trans ha
      exact .terminate hp

/-- A step is a reset, or a move of the sequencer, when no word is presented (R134, R150). -/
theorem step_cases {s t : State} (hi : s.issue = none) (h : step s = .next t) :
    (s.input.reset = true ∧ t = powerOn s.nextInput) ∨
      (s.input.reset = false ∧ Moves s.nextInput t) := by
  cases hr : s.input.reset
  · refine .inr ⟨rfl, moves_of_sequence (inp := s.input) ?_⟩
    simpa [step, oneStep, hr, hi] using h
  · refine .inl ⟨rfl, ?_⟩
    have : step s = .next (powerOn s.nextInput) := by simp [step, oneStep, hr]
    cases this.symm.trans h
    rfl

end Sys2Proof.Machine
end

section
/-! PROOFS. What each instruction changes of the registers. -/

namespace Sys2Proof.Machine

/-! ### What each kind of instruction changes -/

/-- Nothing but the BitWriter, the sink, the fault registers and `remaining` differs. -/
def OnlyEmission (s t : State) : Prop :=
  t = { s with
    acc := t.acc, nbits := t.nbits, out := t.out, outLen := t.outLen, snkReq := t.snkReq
    snkByte := t.snkByte, phase := t.phase, faultCode := t.faultCode, remaining := t.remaining }

theorem OnlyWriterAndFault.onlyEmission {s t : State} (h : OnlyWriterAndFault s t) :
    OnlyEmission s t := by
  unfold OnlyEmission
  rw [h]

theorem OnlyEmission.owing {s t : State} (h : OnlyEmission s t) (n : Count)
    (p : Phase) : OnlyEmission s { t with remaining := n, phase := p } := by
  unfold OnlyEmission at *
  rw [h]

/-- An entry's bits, then the length owed for it (43_encoder.md R116, R117). -/
theorem owe_onlyEmission (bs : List Bool) (n : Count) (s : State) :
    OnlyEmission s ((writeStream bs s).andThen (owe n)).state := by
  have hw := writeStream_writesOnly bs s
  cases h : writeStream bs s with
  | completed t =>
    rw [h] at hw
    exact (OnlyWriter.andFault hw).onlyEmission.owing n _
  | abandoned t =>
    rw [h] at hw
    exact hw.1.onlyEmission

theorem emitLiteral_onlyEmission (s : State) : OnlyEmission s (emitLiteral s).state := by
  rw [emitLiteral, writeLiteral_eq]
  exact owe_onlyEmission _ _ s

/-- EMITMATCH may draw a free length field first (log 16). -/
theorem emitMatch_onlyEmission (s : State) :
    OnlyEmission s (emitMatch s).state ∨ OnlyEmission s.drawFree (emitMatch s).state := by
  unfold emitMatch
  split <;> rw [writeLong_eq]
  · exact .inr (owe_onlyEmission _ _ _)
  · exact .inl (owe_onlyEmission _ _ _)

/-- The instructions that only write bits change the BitWriter, the sink and the fault registers. -/
theorem onlyWriterAndFault_of_exec {i : Instr} {s t : State} (h : exec i s = .next t)
    (hi : bitsWritten i ≠ 0 ∨ i = .finish) (hl : i ≠ .emitLit) (hm : i ≠ .emitMatch) :
    OnlyWriterAndFault s t := by
  have stream : ∀ bs, OnlyWriterAndFault s (writeStream bs s).state := fun bs =>
    (writeStream_writesOnly bs s).state
  cases i
  case literal b => cases h; rw [writeLiteral_eq]; exact stream _
  case matchEntry addr lenm3 =>
    simp only [exec, execMatchEntry] at h
    split at h
    · cases h
    · cases h; rw [writeLong_eq]; exact stream _
  case term => cases h; rw [writeLong_eq]; exact stream _
  case writeBit b => cases h; exact (writeBit_writesOnly b s).state
  case writeBits n value =>
    simp only [exec, execWriteBits] at h
    split at h
    · cases h; rw [writeField_eq]; exact stream _
    · cases h
  case finish => cases h; exact (flush_writesOnly s).state
  case emitTerm => cases h; rw [writeLong_eq]; exact stream _
  case emitLit => exact absurd rfl hl
  case emitMatch => exact absurd rfl hm
  all_goals simp [bitsWritten] at hi

/-- WRITEBITS of no bits changes nothing (R81). -/
theorem exec_writeBits_zero {n : BitVec 5} {value : BitVec 16} {s t : State}
    (h : exec (.writeBits n value) s = .next t) (hn : n.toNat = 0) : t = s := by
  simp only [exec, execWriteBits, hn] at h
  cases h
  rfl

/-- INSERT and REMOVE change the three tables of the index only (42_matchindex.md R101, R102). -/
theorem index_frame_of_exec {i : Instr} {s t : State} {key : Key} {addr : Addr}
    (hi : i = .insert key addr ∨ i = .remove key addr) (h : exec i s = .next t) :
    t = { s with hash := t.hash, prev := t.prev, next := t.next } := by
  rcases hi with rfl | rfl
  · simp only [exec, execInsert] at h
    split at h
    · cases h
    · cases h; exact s.insertAt_frame key addr
  · simp only [exec, execRemove] at h
    split at h
    · cases h
    · cases h; rw [s.removeAt_frame key addr]

/-- START changes neither the source, nor the ports, nor what is the model's own (R110). -/
theorem start_keeps {s t : State} (h : exec .start s = .next t) :
    t.src = s.src ∧ t.srcReq = s.srcReq ∧ t.freeIndex = s.freeIndex ∧ t.result = s.result ∧
      t.outCap = s.outCap ∧ t.inputs = s.inputs ∧ t.issue = s.issue := by
  simp only [exec, execStart] at h
  split at h <;> cases h <;> exact ⟨rfl, rfl, rfl, rfl, rfl, rfl, rfl⟩

/-- Settles O31, by the frame of each instruction. -/
theorem eachRegisterIsWrittenOnlyByItsOperations :
    Obligations.EachRegisterIsWrittenOnlyByItsOperations := by
  intro i s t h
  cases i
  case literal | matchEntry | term | writeBit | finish | emitTerm =>
    have f := onlyWriterAndFault_of_exec h (by simp [bitsWritten]) nofun nofun
    rw [f]
    simp [bitsWritten]
  case writeBits n value =>
    by_cases hn : n.toNat = 0
    · rw [exec_writeBits_zero h hn]
      simp
    · have f := onlyWriterAndFault_of_exec h (.inl hn) nofun nofun
      rw [f]
      simp [bitsWritten, hn]
  case start => simpa [and_assoc] using start_keeps h
  case prime =>
    cases h
    rw [prime_frame]
    simp
  case advance =>
    cases h
    rw [advance_onlyDictionary s]
    simp
  case byteAt | keyOf | chainFrom | matchLen | search =>
    cases h
    simp [search]
  case insert key addr =>
    rw [index_frame_of_exec (.inl rfl) h]
    simp
  case remove key addr =>
    rw [index_frame_of_exec (.inr rfl) h]
    simp
  case emitLit =>
    cases h
    rw [emitLiteral_onlyEmission s]
    simp [bitsWritten]
  case emitMatch =>
    cases h
    rcases emitMatch_onlyEmission s with f | f <;> rw [f] <;> simp [bitsWritten]

end Sys2Proof.Machine
end

section
/-! PROOFS. The invariant, kept by each move of the sequencer and by reset. -/

namespace Sys2Proof.Machine

/-! ### The sink's count -/

/-- `out_len` counts the pushed bytes and stays within OUT_CAP (10_state.md R26; 00_scope.md R4). -/
def State.sinkCounted (s : State) : Prop :=
  s.outLen = s.out.length ∧ ∀ cap, s.outCap = some cap → s.outLen ≤ cap

/-- An accepted byte is counted, and was accepted below the capacity (20_memory.md R53). -/
theorem State.sinkCounted.accept {s t : State} (h : s.sinkCounted) (hr : s.sinkRefuses = false)
    (b : Byte) (hout : t.out = s.out ++ [b]) (hlen : t.outLen = s.outLen + 1) (hcap : t.outCap = s.outCap) :
    t.sinkCounted := by
  refine ⟨by rw [hlen, hout, h.1]; simp, fun cap hc => ?_⟩
  rw [hcap] at hc
  have := ((s.room_one_iff).2 hr).resolve_left (by omega) cap hc
  omega

theorem writeBit_sinkCounted (b : Bool) {s : State} (h : s.sinkCounted) :
    (writeBit b s).state.sinkCounted := by
  rcases writeBit_cases b s with ⟨-, e⟩ | ⟨-, hr, e⟩ | ⟨-, -, e⟩ <;> rw [e]
  · exact h
  · exact h.accept hr _ rfl rfl rfl
  · exact h

theorem writeStream_sinkCounted (bs : List Bool) {s : State} (h : s.sinkCounted) :
    (writeStream bs s).state.sinkCounted := by
  induction bs generalizing s with
  | nil => exact h
  | cons b bs ih =>
    have hb := writeBit_sinkCounted b h
    rw [writeStream]
    cases hf : writeBit b s with
    | abandoned t => rw [hf] at hb; exact hb
    | completed t => rw [hf] at hb; exact ih hb

theorem flush_sinkCounted {s : State} (h : s.sinkCounted) : (flush s).state.sinkCounted := by
  rcases flush_cases s with ⟨-, e⟩ | ⟨-, hr, e⟩ | ⟨-, -, e⟩ <;> rw [e]
  · exact h
  · exact h.accept hr _ rfl rfl rfl
  · exact h

/-- Eight bits or more end in a push, which lowers the request (20_memory.md R53). -/
theorem WroteAll.no_request {bs : List Bool} {s t : State} (w : WroteAll bs s t)
    (hb : 8 ≤ bs.length) : t.snkReq = false := by
  rw [w.request, if_neg]
  simp only [State.pushesFor]
  omega

/-! ### The sentinel's links -/

/-- Index 0 carries no link (20_memory.md R54). -/
def State.sentinelFree (s : State) : Prop :=
  s.readPrev 0 = 0 ∧ s.readNext 0 = 0

theorem State.sentinelFree.removeAt {s : State} (h : s.sentinelFree) (k : Key) (a : Addr) :
    (s.removeAt k a).sentinelFree := by
  refine ⟨by rw [State.readPrev_removeAt, h.1], ?_⟩
  rcases s.removeAt_cases k a with ⟨-, e⟩ | ⟨-, -, e⟩ | ⟨-, -, e⟩ <;> rw [e]
  · rw [State.readNext_writeNext, h.2, ite_self]
  · exact h.2
  · exact h.2

theorem State.sentinelFree.insertAt {s : State} (h : s.sentinelFree) (k : Key) {a : Addr}
    (ha : a ≠ 0) : (s.insertAt k a).sentinelFree := by
  have hold : ¬ (s.readHash k ≠ 0 ∧ (0 : Addr) = s.readHash k) := fun hh => hh.1 hh.2.symm
  exact ⟨by rw [State.readPrev_insertAt, if_neg hold, if_neg ha.symm, h.1],
    by rw [State.readNext_insertAt, if_neg ha.symm, h.2]⟩

theorem State.sentinelFree.refilled {s : State} (h : s.sentinelFree) : s.refilled.sentinelFree := by
  have evicts : s.evict.sentinelFree := by
    unfold State.evict
    split
    · exact h
    · exact h.removeAt _ _
  rcases s.refilled_cases with ⟨-, e, -⟩ | ⟨b, rest, -, e, -⟩ <;> rw [e]
  · exact evicts
  · exact evicts

theorem State.sentinelFree.passCursor {s : State} (h : s.sentinelFree) :
    s.passCursor.sentinelFree := by
  unfold State.passCursor
  by_cases h0 : s.dictHead = Config.null
  · rw [if_pos h0]; exact h
  · rw [if_neg h0]; exact h.insertAt _ h0

/-- ADVANCE evicts and indexes no address 0 (R158). -/
theorem State.sentinelFree.advance {s : State} (h : s.sentinelFree) : (advance s).sentinelFree := by
  obtain ⟨-, -, hprev, hnext⟩ := advance_memories s
  have passes := h.refilled.passCursor
  exact ⟨by rw [hprev, passes.1], by rw [hnext, passes.2]⟩

/-! ### Counts -/

theorem toNat_ne_zero {c : Count} (h : c ≠ 0) : c.toNat ≠ 0 :=
  fun e => h (BitVec.eq_of_toNat_eq e)

theorem prime_waitingBytes (s : State) : (prime s).waitingBytes.toNat = min 18 s.src.length := by
  have := (primeLoop_count Config.maxMatch 0 s).1
  simp only [prime, this, BitVec.toNat_ofNat, Config.maxMatch]
  omega

theorem prime_src (s : State) : (prime s).src = s.src.drop 18 :=
  (primeLoop_count Config.maxMatch 0 s).2.1

theorem prime_srcReq (s : State) : (prime s).srcReq = false :=
  (primeLoop_count Config.maxMatch 0 s).2.2 (by decide)

theorem prime_memWf {s : State} (h : s.memWf) : (prime s).memWf :=
  primeLoop_memWf Config.maxMatch 0 h

/-- ADVANCE refills from the source, or counts the lookahead down at EOI (R92). -/
theorem advance_counts {s : State} (hw : s.waitingBytes ≠ 0) :
    (advance s).srcReq = false ∧
      ((s.src = [] ∧ (advance s).src = [] ∧
          (advance s).waitingBytes.toNat + 1 = s.waitingBytes.toNat) ∨
        ∃ b rest, s.src = b :: rest ∧ (advance s).src = rest ∧
          (advance s).waitingBytes = s.waitingBytes) := by
  rcases s.refilled_cases with ⟨hs, hr, h⟩ | ⟨b, rest, hs, hr, h⟩
  · have hp : s.refilled.passCursor.waitingBytes = s.waitingBytes := by
      rw [State.passCursor_frame, hr, s.evict_frame]
    rw [h, State.dropWaiting_frame]
    refine ⟨?_, .inl ⟨hs, ?_, ?_⟩⟩
    · show s.refilled.passCursor.srcReq = false
      rw [State.passCursor_frame, hr]
    · show s.refilled.passCursor.src = []
      rw [State.passCursor_frame, hr, s.evict_frame, ← hs]
    · show s.refilled.passCursor.dropWaiting.waitingBytes.toNat + 1 = _
      rw [State.dropWaiting_waiting, hp]
      have hpos := toNat_ne_zero hw
      rcases countedDown_cases s.waitingBytes s.refilled.passCursor.freeIndex with ⟨-, hc⟩ | ⟨h0, -⟩
      · omega
      · exact absurd h0 hw
  · rw [h, State.passCursor_frame, hr, s.evict_frame]
    exact ⟨rfl, .inr ⟨b, rest, hs, rfl, rfl⟩⟩

/-- A lookahead that ADVANCE refilled from the source was full, and still is (41_window.md R95 (b)). -/
theorem exhausted_advance {s : State} (hw : s.waitingBytes ≠ 0) (h : s.exhausted) :
    (advance s).exhausted := by
  intro hlt
  rcases (advance_counts hw).2 with ⟨-, hnil, -⟩ | ⟨b, rest, hb, -, hc⟩
  · exact hnil
  · rw [hc] at hlt
    rw [h hlt] at hb
    cases hb

/-! ### Counting down what is owed -/

@[simp] theorem State.dropRemaining_waitingBytes (s : State) :
    s.dropRemaining.waitingBytes = s.waitingBytes := by
  rw [s.dropRemaining_frame]

@[simp] theorem State.dropRemaining_srcReq (s : State) : s.dropRemaining.srcReq = s.srcReq := by
  rw [s.dropRemaining_frame]

theorem State.memWf_dropRemaining {s : State} : s.dropRemaining.memWf ↔ s.memWf := by
  rw [s.dropRemaining_frame]
  exact .rfl

theorem State.sentinelFree_dropRemaining {s : State} :
    s.dropRemaining.sentinelFree ↔ s.sentinelFree := by
  rw [s.dropRemaining_frame]
  exact .rfl

theorem State.exhausted_dropRemaining {s : State} : s.dropRemaining.exhausted ↔ s.exhausted := by
  rw [s.dropRemaining_frame]
  exact .rfl

theorem dropRemaining_advance {s : State} (h : s.remaining ≠ 0) :
    (advance s).dropRemaining.remaining.toNat + 1 = s.remaining.toNat := by
  have hr : (advance s).remaining = s.remaining := by rw [advance_onlyDictionary s]
  have := toNat_ne_zero h
  rw [State.dropRemaining_remaining, hr]
  rcases countedDown_cases s.remaining (advance s).freeIndex with ⟨-, hc⟩ | ⟨h0, -⟩
  · omega
  · exact absurd h0 h

/-! ### SEARCH -/

/-- The best candidate is within the lookahead, and names an address when it has a length. -/
def State.soundBest (s : State) (best : Count × Addr) : Prop :=
  best.1 ≤ s.waitingBytes ∧ (best.1 ≠ 0 → best.2 ≠ 0)

theorem State.soundBest.better {s : State} {best : Count × Addr} (h : s.soundBest best) {c : Addr}
    (hc : c ≠ 0) : s.soundBest (better best (s.matchLen c) c) := by
  unfold Machine.better
  split
  · exact ⟨BitVec.le_def.2 (s.matchLen_le c), fun _ => hc⟩
  · exact h

theorem scanFrom_soundBest {s : State} (fuel : Nat) (c : Addr) {best : Count × Addr}
    (h : s.soundBest best) : s.soundBest (scanFrom s fuel c best) := by
  induction fuel generalizing c best with
  | zero => exact h
  | succ fuel ih =>
    simp only [scanFrom]
    split
    next => exact h
    next hc =>
      split
      · exact h.better hc
      · exact ih _ (h.better hc)

theorem search_soundBest (s : State) : s.soundBest ((search s).bestLen, (search s).bestAddr) :=
  scanFrom_soundBest _ _ ⟨BitVec.le_def.2 (Nat.zero_le _), fun h => absurd rfl h⟩

/-! ### Where the loop goes -/

theorem State.loopPhase_ne_fault (s : State) : s.loopPhase ≠ .fault := by
  unfold State.loopPhase
  split <;> decide

/-- With nothing owed the loop goes on to SEARCH, or to TERMINATE when the input is used up (R118). -/
theorem phaseContract_loopPhase {s : State} (hrem : s.remaining = 0) (hex : s.exhausted) :
    State.phaseContract { s with phase := s.loopPhase } := by
  by_cases hw : s.waitingBytes = 0
  · have hp : s.loopPhase = .terminate := if_pos hw
    rw [hp]
    exact ⟨hw, hrem, hex (by rw [hw]; decide)⟩
  · have hp : s.loopPhase = .search := if_neg hw
    rw [hp]
    exact ⟨hw, hrem, hex⟩

/-! ### Each move keeps the invariant -/

/-- A request that is not raised asks nothing of the phase. -/
theorem request_absent {r : Bool} {P : Prop} (h : r = false) (hr : r = true) : P :=
  absurd (h.symm.trans hr) Bool.false_ne_true


/-- Nothing but what `OnlyDictionary` names, and `remaining`, differs. -/
def OnlyLoop (s t : State) : Prop :=
  t = { s with
    window := t.window, hash := t.hash, prev := t.prev, next := t.next, dictHead := t.dictHead
    waitingBytes := t.waitingBytes, src := t.src, srcReq := t.srcReq, freeIndex := t.freeIndex
    remaining := t.remaining }

theorem prime_onlyLoop (s : State) : OnlyLoop s (prime s) := by
  unfold OnlyLoop
  rw [prime_frame]

theorem OnlyDictionary.dropRemaining {s t : State} (h : OnlyDictionary s t) :
    OnlyLoop s t.dropRemaining := by
  unfold OnlyLoop
  rw [State.dropRemaining_frame, h]

namespace State.Inv

variable {s t : State}

theorem sinkCounted (h : s.Inv) : s.sinkCounted :=
  ⟨h.counted, h.capped⟩

theorem nextInput (h : s.Inv) : s.nextInput.Inv :=
  { h with }

theorem no_srcReq (h : s.Inv) (hp : s.phase ≠ .prime ∧ s.phase ≠ .maintain) : s.srcReq = false := by
  by_contra hr
  rcases h.requests.1 (by simpa using hr) with e | e
  · exact hp.1 e
  · exact hp.2 e

theorem no_snkReq (h : s.Inv) (hp : s.phase ≠ .emit ∧ s.phase ≠ .terminate) : s.snkReq = false := by
  by_contra hr
  rcases h.requests.2 (by simpa using hr) with e | e
  · exact hp.1 e
  · exact hp.2 e

theorem powerOn (s : State) : (powerOn s).Inv where
  noIssue := rfl
  memories := ⟨Memory.nil_wf _, Memory.nil_wf _, Memory.nil_wf _, Memory.nil_wf _⟩
  sentinel := ⟨rfl, rfl⟩
  ranges := ⟨Nat.zero_le _, Nat.zero_le _, Nat.zero_le _⟩
  counted := rfl
  capped _ _ := Nat.zero_le _
  clean _ := rfl
  code := rfl
  requests := ⟨nofun, nofun⟩
  contract := trivial

theorem construct (h : s.Inv) (hb : s.busy = false) (src : List Byte) (outCap : Option Nat) :
    (construct { s with src := src, outCap := outCap }).Inv where
  noIssue := h.noIssue
  memories := ⟨Memory.nil_wf _, Memory.nil_wf _, Memory.nil_wf _, Memory.nil_wf _⟩
  sentinel := ⟨rfl, rfl⟩
  ranges := ⟨Nat.zero_le _, Nat.zero_le _, Nat.zero_le _⟩
  counted := rfl
  capped _ _ := Nat.zero_le _
  clean _ := rfl
  code := rfl
  requests := by
    have hsnk : s.snkReq = false := h.no_snkReq (by
      constructor <;> intro hp <;> simp [State.busy, hp] at hb)
    exact ⟨fun _ => .inl rfl, request_absent hsnk⟩
  contract := ⟨rfl, rfl, rfl, rfl, rfl, rfl⟩

theorem awaitPull (h : s.Inv) (hp : s.phase = .prime ∨ s.phase = .maintain) :
    State.Inv { s with srcReq := true } :=
  { h with requests := ⟨fun _ => hp, h.requests.2⟩ }

theorem awaitPush (h : s.Inv) (hp : s.phase = .emit ∨ s.phase = .terminate) (b : Byte) :
    State.Inv { s with snkReq := true, snkByte := b } :=
  { h with requests := ⟨h.requests.1, fun _ => hp⟩ }

theorem code_zero (h : s.Inv) (hp : s.phase ≠ .fault) : s.faultCode = 0 :=
  h.code.trans (if_neg hp)

theorem contract_prime (h : s.Inv) (hp : s.phase = .prime) :
    s.dictHead = 1 ∧ s.waitingBytes = 0 ∧ s.remaining = 0 ∧ s.acc = 0 ∧ s.nbits = 0 ∧ s.out = [] := by
  simpa [State.phaseContract, hp] using h.contract

theorem contract_search (h : s.Inv) (hp : s.phase = .search) :
    s.waitingBytes ≠ 0 ∧ s.remaining = 0 ∧ s.exhausted := by
  simpa [State.phaseContract, hp] using h.contract

theorem contract_emit (h : s.Inv) (hp : s.phase = .emit) :
    s.waitingBytes ≠ 0 ∧ s.remaining = 0 ∧ s.exhausted ∧ s.bestLen ≤ s.waitingBytes ∧
      (s.bestLen ≠ 0 → s.bestAddr ≠ 0) := by
  simpa [State.phaseContract, hp] using h.contract

theorem contract_maintain (h : s.Inv) (hp : s.phase = .maintain) :
    s.remaining ≠ 0 ∧ s.remaining ≤ s.waitingBytes ∧ s.exhausted := by
  simpa [State.phaseContract, hp] using h.contract

/-- What is owed is in the lookahead. -/
theorem waiting_maintain (h : s.Inv) (hp : s.phase = .maintain) : s.waitingBytes ≠ 0 := by
  obtain ⟨hrem, hle, -⟩ := h.contract_maintain hp
  intro e
  rw [e] at hle
  exact toNat_ne_zero hrem (Nat.le_zero.1 (BitVec.le_def.1 hle))

theorem contract_terminate (h : s.Inv) (hp : s.phase = .terminate) :
    s.waitingBytes = 0 ∧ s.remaining = 0 ∧ s.src = [] := by
  simpa [State.phaseContract, hp] using h.contract

/-- PRIME and MAINTAIN leave the BitWriter alone: what they must answer for is the dictionary, the
counters, the request and the next phase's contract. -/
theorem loops (h : s.Inv) (hp : s.phase = .prime ∨ s.phase = .maintain) (f : OnlyLoop s t)
    (hmem : t.memWf) (hsentinel : t.sentinelFree) (hwait : t.waitingBytes.toNat ≤ 18)
    (hrem : t.remaining.toNat ≤ 18) (hreq : t.srcReq = false) {p : Phase} (hpf : p ≠ .fault)
    (hcontract : State.phaseContract { t with phase := p }) : State.Inv { t with phase := p } := by
  have hne : s.phase ≠ .fault := by rcases hp with hp | hp <;> rw [hp] <;> decide
  have hsnk : s.snkReq = false :=
    h.no_snkReq (by rcases hp with hp | hp <;> rw [hp] <;> decide)
  rw [f] at hmem hsentinel hwait hrem hreq hcontract ⊢
  exact { h with
    memories := hmem
    sentinel := hsentinel
    ranges := ⟨hwait, h.ranges.2.1, hrem⟩
    clean := fun _ => h.clean hne
    code := (h.code_zero hne).trans (if_neg hpf).symm
    requests := ⟨request_absent hreq, request_absent hsnk⟩
    contract := hcontract }

theorem prime (h : s.Inv) (hp : s.phase = .prime) :
    State.Inv { prime s with phase := (prime s).loopPhase } := by
  have f := prime_frame s
  have hwait := prime_waitingBytes s
  have hrem : (Machine.prime s).remaining = 0 := by rw [f]; exact (h.contract_prime hp).2.2.1
  have hex : (Machine.prime s).exhausted := by
    intro hlt
    rw [prime_src, List.drop_eq_nil_iff]
    simp only [Config.maxMatch] at hlt
    omega
  have hsentinel : (Machine.prime s).sentinelFree := by rw [f]; exact h.sentinel
  exact h.loops (.inl hp) (prime_onlyLoop s) (prime_memWf h.memories) hsentinel (by omega)
    (by rw [hrem]; decide) (prime_srcReq s) (State.loopPhase_ne_fault _)
    (phaseContract_loopPhase hrem hex)

/-- MAINTAIN counts what is owed down with the lookahead, or refills a full lookahead (R118). -/
theorem afterAdvance (h : s.Inv) (hp : s.phase = .maintain) : (afterAdvance (advance s)).Inv := by
  obtain ⟨hrem, hle, hex⟩ := h.contract_maintain hp
  have hrem0 := toNat_ne_zero hrem
  have hle' := BitVec.le_def.1 hle
  have hranges := h.ranges
  have hwait0 := h.waiting_maintain hp
  have hrem' := dropRemaining_advance hrem
  have hwait : (advance s).dropRemaining.remaining.toNat ≤ (advance s).waitingBytes.toNat ∧
      (advance s).waitingBytes.toNat ≤ 18 := by
    rcases (advance_counts hwait0).2 with ⟨-, -, hc⟩ | ⟨b, rest, -, -, hc⟩
    · omega
    · rw [hc]
      omega
  have f := (advance_onlyDictionary s).dropRemaining
  have hex' : (advance s).dropRemaining.exhausted :=
    State.exhausted_dropRemaining.2 (exhausted_advance hwait0 hex)
  refine h.loops (.inr hp) f ?_ ?_ ?_ ?_ ?_ ?_ ?_
  · exact State.memWf_dropRemaining.2 (advance_memWf h.memories)
  · exact State.sentinelFree_dropRemaining.2 (State.sentinelFree.advance h.sentinel)
  · rw [State.dropRemaining_waitingBytes]
    exact hwait.2
  · omega
  · rw [State.dropRemaining_srcReq]
    exact (advance_counts hwait0).1
  · split
    · exact State.loopPhase_ne_fault _
    · decide
  · split
    next h0 => exact phaseContract_loopPhase h0 hex'
    next h0 =>
      refine ⟨h0, ?_, hex'⟩
      rw [BitVec.le_def]
      simpa using hwait.1

theorem search (h : s.Inv) (hp : s.phase = .search) : (search s).Inv := by
  obtain ⟨hwait, hrem, hex⟩ := h.contract_search hp
  obtain ⟨hlen, haddr⟩ := search_soundBest s
  have hsrc : s.srcReq = false := h.no_srcReq (by rw [hp]; decide)
  have hsnk : s.snkReq = false := h.no_snkReq (by rw [hp]; decide)
  exact { h with
    ranges := ⟨h.ranges.1, (BitVec.le_def.1 hlen).trans h.ranges.1, h.ranges.2.2⟩
    clean := fun _ => h.clean (by rw [hp]; decide)
    code := h.code_zero (by rw [hp]; decide)
    requests := ⟨request_absent hsrc, fun _ => .inl rfl⟩
    contract := ⟨hwait, hrem, hex, hlen, haddr⟩ }

/-- A refused push leaves FAULT, and all but the BitWriter and the sink as it was (R135). -/
theorem faulted (h : s.Inv) (f : OnlyWriterAndFault s t) (hp : t.phase = .fault)
    (hc : t.faultCode = 1) (hsrc : s.srcReq = false) (hsnk : t.snkReq = false)
    (hs : t.sinkCounted) : t.Inv := by
  rw [f] at hp hc hsnk hs ⊢
  exact { h with
    counted := hs.1
    capped := hs.2
    clean := fun hne => absurd hp hne
    code := hc.trans (if_pos hp).symm
    requests := ⟨request_absent hsrc, request_absent hsnk⟩
    contract := by simp only at hp; simp [State.phaseContract, hp] }

/-- Bits written without a fault keep the invariant of EMIT and TERMINATE. -/
theorem wroteAll (h : s.Inv) (hp : s.phase = .emit ∨ s.phase = .terminate) {bs : List Bool}
    (w : WroteAll bs s t) (hs : t.sinkCounted) : t.Inv := by
  have f := w.frame
  have hclean := w.clean
  rw [f] at hs hclean ⊢
  exact { h with
    counted := hs.1
    capped := hs.2
    clean := fun _ => hclean
    requests := ⟨h.requests.1, fun _ => hp⟩
    contract := by
      rcases hp with hp | hp <;>
        simpa [State.phaseContract, State.exhausted, hp] using h.contract }

/-- An entry of a whole byte or more is written and its length owed, or a byte of it is refused
(43_encoder.md R116, R117). -/
theorem emission (h : s.Inv) (hp : s.phase = .emit) {bs : List Bool} (hb : 8 ≤ bs.length) {n : Count}
    (hn : n ≠ 0) (hle : n ≤ s.waitingBytes) :
    (((writeStream bs s).andThen (owe n)).state).Inv := by
  have hne : s.phase ≠ .fault := by rw [hp]; decide
  have hsrc : s.srcReq = false := h.no_srcReq (by rw [hp]; decide)
  have hs := writeStream_sinkCounted bs h.sinkCounted
  rcases writeStream_cases bs s (h.clean hne) with ⟨t, e, w⟩ | ⟨t, e, w⟩ <;> rw [e] at hs ⊢
  · have ht := h.wroteAll (.inl hp) w hs
    have htp : t.phase = .emit := w.frame.phase.trans hp
    have htne : t.phase ≠ .fault := by rw [htp]; decide
    have hle' : n ≤ t.waitingBytes := by
      have f := w.frame
      rw [f]
      exact hle
    exact { ht with
      ranges := ⟨ht.ranges.1, ht.ranges.2.1, (BitVec.le_def.1 hle').trans ht.ranges.1⟩
      clean := fun _ => w.clean
      code := ht.code_zero htne
      requests := ⟨fun _ => .inr rfl, request_absent (w.no_request hb)⟩
      contract := ⟨hn, hle', (ht.contract_emit htp).2.2.1⟩ }
  · exact h.faulted w.frame w.phase w.code hsrc w.request hs

theorem emitLiteral (h : s.Inv) (hp : s.phase = .emit) : (emitLiteral s).state.Inv := by
  rw [Machine.emitLiteral, writeLiteral_eq]
  refine h.emission hp (by simp [literalBits]) (by decide) ?_
  have := toNat_ne_zero (h.contract_emit hp).1
  rw [BitVec.le_def]
  show 1 ≤ _
  omega

theorem emitMatch (h : s.Inv) (hp : s.phase = .emit) (hlen : ¬ s.bestLen < 3) :
    (emitMatch s).state.Inv := by
  rw [Machine.emitMatch, if_neg hlen, writeLong_eq]
  refine h.emission hp (by simp [matchBits]) ?_ (h.contract_emit hp).2.2.2.1
  intro h0
  exact hlen (by rw [h0]; decide)

/-- FINISH after the terminator's bits, then DONE, or FAULT (43_encoder.md R119). -/
theorem finished (h : s.Inv) (hp : s.phase = .terminate) (hsnk : s.snkReq = false) :
    ((flush s).andThen fun t => .completed { t with phase := .done }).state.Inv := by
  have hne : s.phase ≠ .fault := by rw [hp]; decide
  have hsrc : s.srcReq = false := h.no_srcReq (by rw [hp]; decide)
  obtain ⟨hwait, hrem, hnil⟩ := h.contract_terminate hp
  have hs := flush_sinkCounted h.sinkCounted
  rcases flush_cases s with ⟨hn, e⟩ | ⟨-, -, e⟩ | ⟨-, -, e⟩ <;> rw [e] at hs ⊢
  · have hacc : s.acc = 0 := by
      have := h.clean hne
      rw [State.accClean, hn] at this
      exact BitVec.eq_of_toNat_eq ((Nat.mod_eq_of_lt s.acc.isLt).symm.trans this)
    exact { h with
      clean := fun _ => h.clean hne
      code := h.code_zero hne
      requests := ⟨request_absent hsrc, request_absent hsnk⟩
      contract := ⟨hwait, hrem, hnil, hacc, hn⟩ }
  · exact { h with
      counted := hs.1
      capped := hs.2
      clean := fun _ => rfl
      code := h.code_zero hne
      requests := ⟨request_absent hsrc, nofun⟩
      contract := ⟨hwait, hrem, hnil, rfl, rfl⟩ }
  · exact h.faulted rfl rfl rfl hsrc rfl hs

theorem terminated (h : s.Inv) (hp : s.phase = .terminate) : (terminated s).state.Inv := by
  have hne : s.phase ≠ .fault := by rw [hp]; decide
  have hsrc : s.srcReq = false := h.no_srcReq (by rw [hp]; decide)
  have hs := writeStream_sinkCounted (matchBits 0 0) h.sinkCounted
  rw [Machine.terminated, writeLong_eq]
  rcases writeStream_cases (matchBits 0 0) s (h.clean hne) with ⟨t, e, w⟩ | ⟨t, e, w⟩ <;>
    rw [e] at hs ⊢
  · exact (h.wroteAll (.inr hp) w hs).finished (w.frame.phase.trans hp)
      (w.no_request (by simp [matchBits]))
  · exact h.faulted w.frame w.phase w.code hsrc w.request hs

end State.Inv

/-- Every move keeps the invariant. -/
theorem Moves.inv {s t : State} (m : Moves s t) (h : s.Inv) : t.Inv := by
  cases m with
  | rest => exact h
  | start hb src outCap => exact h.construct hb src outCap
  | awaitPull hp => exact h.awaitPull hp
  | awaitPush hp b => exact h.awaitPush hp b
  | prime hp => exact h.prime hp
  | search hp => exact h.search hp
  | emitLit hp => exact h.emitLiteral hp
  | emitMatch hp hlen => exact h.emitMatch hp hlen
  | maintain hp => exact h.afterAdvance hp
  | terminate hp => exact h.terminated hp

/-- Settles O40: a step is a reset or one of the sequencer's moves, and each of these keeps the
invariant. -/
theorem everyStepKeepsTheInvariant : Obligations.EveryStepKeepsTheInvariant := by
  intro s t h hstep
  rcases step_cases h.noIssue hstep with ⟨-, rfl⟩ | ⟨-, m⟩
  · exact State.Inv.powerOn _
  · exact m.inv h.nextInput

end Sys2Proof.Machine
end

section
/-! PROOFS. The index, kept by each move of an encode. -/

namespace Sys2Proof.Machine

/-! ### Each move keeps the index -/

/-- The index is a matter of the window, the cursor and the three tables. -/
theorem OnlyEmission.indexed {s t : State} {n : Nat} (f : OnlyEmission s t) (h : s.Indexed n) :
    t.Indexed n := by
  rw [f]
  exact ⟨h.heads, h.links, h.backs, h.fresh⟩

theorem OnlyEmission.consumed {s t : State} (f : OnlyEmission s t) (n : Nat) :
    t.consumed n = s.consumed n := by
  rw [f]
  rfl

theorem terminated_onlyEmission (s : State) : OnlyEmission s (terminated s).state := by
  have hw : ((writeLong 0 0 s).andThen flush).WritesOnly s := by
    rw [writeLong_eq]
    exact (writeStream_writesOnly _ s).andThen flush_writesOnly
  unfold terminated
  cases hf : (writeLong 0 0 s).andThen flush with
  | abandoned t =>
    rw [hf] at hw
    exact hw.1.onlyEmission
  | completed t =>
    rw [hf] at hw
    exact (OnlyWriter.andFault hw).onlyEmission.owing _ _

/-- Before the first ADVANCE the index is empty. -/
theorem State.indexed_zero_iff {s : State} :
    s.Indexed 0 ↔ (∀ k, s.readHash k = 0) ∧ ∀ a, s.readPrev a = 0 := by
  have none : ∀ d a, ¬ s.memberAt 0 d a := fun d a hd => by
    have := hd.1
    have := hd.2.1
    omega
  constructor
  · intro h
    refine ⟨fun k => ?_, fun a => h.fresh (by decide) a fun d => none d a⟩
    by_contra hk
    obtain ⟨⟨d, hd⟩, -⟩ := h.heads k hk
    exact none d _ hd
  · rintro ⟨hhash, hprev⟩
    exact ⟨fun k hk => absurd (hhash k) hk, fun d a ha => absurd ha (none d a),
      fun d a ha => absurd ha (none d a), fun _ a _ => hprev a⟩

/-- PRIME consumes nothing, and the index stays empty. -/
theorem State.Indexed.prime {s : State} (h : s.Indexed 0) (p : Phase) :
    State.Indexed 0 { prime s with phase := p } := by
  rw [State.indexed_zero_iff] at h ⊢
  rw [prime_frame]
  exact h

theorem consumed_prime {s : State} {n : Nat} (hn : s.src.length = n) (p : Phase) :
    State.consumed n { prime s with phase := p } = 0 := by
  show n - ((prime s).waitingBytes.toNat + (prime s).src.length) = 0
  rw [prime_waitingBytes, prime_src, List.length_drop]
  omega

/-- ADVANCE consumes one byte (41_window.md R95). -/
theorem consumed_advance {s : State} {n : Nat} (hw : s.waitingBytes ≠ 0)
    (hn : s.waitingBytes.toNat + s.src.length ≤ n) :
    (advance s).consumed n = s.consumed n + 1 := by
  have := toNat_ne_zero hw
  rcases (advance_counts hw).2 with ⟨hs, hs', hc⟩ | ⟨b, rest, hs, hs', hc⟩
  · simp only [State.consumed, hs, hs', List.length_nil] at hn ⊢
    omega
  · simp only [State.consumed, hs, hs', hc, List.length_cons] at hn ⊢
    omega

theorem State.Indexed.afterAdvance {s : State} {n : Nat} (h : s.Indexed n) :
    (afterAdvance s).Indexed n := by
  rw [Machine.afterAdvance, State.dropRemaining_frame]
  exact ⟨h.heads, h.links, h.backs, h.fresh⟩

theorem consumed_afterAdvance (s : State) (n : Nat) :
    (afterAdvance s).consumed n = s.consumed n := by
  rw [afterAdvance, State.dropRemaining_frame]
  rfl

/-- Every move of an encode of `n` bytes keeps the index, PRIME as the empty one, MAINTAIN by its
ADVANCE, the others by leaving it alone. -/
theorem Moves.indexed {s t : State} {n : Nat} (m : Moves s t) (h : s.Inv)
    (total : s.waitingBytes.toNat + s.src.length ≤ n) (begins : s.phase = .prime → s.src.length = n)
    (hi : s.Indexed (s.consumed n)) (hb : s.busy = true) : t.Indexed (t.consumed n) := by
  have emission : ∀ {u}, OnlyEmission s u → u.Indexed (u.consumed n) := fun f => by
    rw [f.consumed]
    exact f.indexed hi
  cases m with
  | rest hb' => exact absurd (hb.symm.trans hb') (by decide)
  | start hb' => exact absurd (hb.symm.trans hb') (by decide)
  | awaitPull => exact ⟨hi.heads, hi.links, hi.backs, hi.fresh⟩
  | awaitPush => exact ⟨hi.heads, hi.links, hi.backs, hi.fresh⟩
  | search => exact ⟨hi.heads, hi.links, hi.backs, hi.fresh⟩
  | emitLit => exact emission (emitLiteral_onlyEmission s)
  | emitMatch _ hlen =>
    refine emission ?_
    rw [Machine.emitMatch, if_neg hlen, writeLong_eq]
    exact owe_onlyEmission _ _ s
  | terminate => exact emission (terminated_onlyEmission s)
  | prime hp =>
    have h0 : s.consumed n = 0 := by rw [State.consumed, begins hp]; omega
    rw [h0] at hi
    rw [consumed_prime (begins hp)]
    exact hi.prime _
  | maintain hp =>
    rw [consumed_afterAdvance, consumed_advance (h.waiting_maintain hp) total]
    exact hi.advance.afterAdvance

/-- Settles O43: an encode's step is a move of the sequencer, and each move keeps the index. -/
theorem everyStepKeepsTheIndex : Obligations.EveryStepKeepsTheIndex := by
  intro x s t h tracks hi hb hr hstep
  rcases step_cases h.noIssue hstep with ⟨hreset, -⟩ | ⟨-, m⟩
  · exact absurd (hr.symm.trans hreset) (by decide)
  · exact m.indexed h.nextInput tracks.total tracks.begins ⟨hi.heads, hi.links, hi.backs, hi.fresh⟩ hb

end Sys2Proof.Machine
end

section
/-! PROOFS. What each instruction changes of the memories (20_memory.md R40). -/

namespace Sys2Proof.Machine

/-! ### What leaves the memories alone -/

/-- The four memories are those of `s`, list by list. -/
structure KeepsMemories (s t : State) : Prop where
  window : t.window = s.window
  hash : t.hash = s.hash
  prev : t.prev = s.prev
  next : t.next = s.next

theorem KeepsMemories.refl (s : State) : KeepsMemories s s :=
  ⟨rfl, rfl, rfl, rfl⟩

theorem KeepsMemories.sameMemories {s t : State} (h : KeepsMemories s t) : SameMemories s t :=
  ⟨fun a => congrArg (·.read a.toNat) h.window, fun k => congrArg (·.read k.toNat) h.hash,
    fun a => congrArg (·.read a.toNat) h.prev, fun a => congrArg (·.read a.toNat) h.next⟩

theorem OnlyEmission.keepsMemories {s t : State} (h : OnlyEmission s t) : KeepsMemories s t := by
  rw [h]
  exact ⟨rfl, rfl, rfl, rfl⟩

theorem OnlyWriterAndFault.keepsMemories {s t : State} (h : OnlyWriterAndFault s t) :
    KeepsMemories s t :=
  h.onlyEmission.keepsMemories

theorem emitMatch_keepsMemories (s : State) : KeepsMemories s (emitMatch s).state := by
  rcases emitMatch_onlyEmission s with f | f
  · exact f.keepsMemories
  · obtain ⟨hwindow, hhash, hprev, hnext⟩ := f.keepsMemories
    exact ⟨hwindow, hhash, hprev, hnext⟩

/-! ### Window reads across the index operations and ADVANCE -/

@[simp] theorem State.readW_insertAt (s : State) (k : Key) (a b : Addr) :
    (s.insertAt k a).readW b = s.readW b := by
  rw [s.insertAt_frame]; rfl

@[simp] theorem State.readW_removeAt (s : State) (k : Key) (a b : Addr) :
    (s.removeAt k a).readW b = s.readW b := by
  rw [s.removeAt_frame]; rfl

@[simp] theorem State.readW_evict (s : State) (a : Addr) : s.evict.readW a = s.readW a := by
  rw [s.evict_frame]; rfl

@[simp] theorem State.readW_passCursor (s : State) (a : Addr) :
    s.passCursor.readW a = s.readW a := by
  rw [s.passCursor_frame]; rfl

/-- The refill writes the evicted slot only (41_window.md R92 step 2). -/
theorem State.readW_refilled_of_ne {s : State} {a : Addr} (ha : a ≠ s.evicted) :
    s.refilled.readW a = s.readW a := by
  rcases s.refilled_cases with ⟨-, h, -⟩ | ⟨b, rest, -, h, -⟩
  · rw [h, s.evict_frame]
    rfl
  · rw [h, State.readW_writeW, if_neg ha, s.evict_frame]
    rfl

theorem advance_readW_of_ne {s : State} {a : Addr} (ha : a ≠ s.evicted) :
    (advance s).readW a = s.readW a := by
  obtain ⟨hwin, -, -, -⟩ := advance_memories s
  rw [hwin, State.readW_passCursor, State.readW_refilled_of_ne ha]

/-- REMOVE writes no bucket but its key's (42_matchindex.md R102). -/
theorem State.readHash_removeAt_of_ne (s : State) {k l : Key} (a : Addr) (hl : l ≠ k) :
    (s.removeAt k a).readHash l = s.readHash l := by
  rcases s.removeAt_cases k a with ⟨-, h⟩ | ⟨-, -, h⟩ | ⟨-, -, h⟩ <;> rw [h]
  · rfl
  · rw [State.readHash_writeHash, if_neg hl]

/-! ### Each instruction -/

/-- What performing an instruction can do to the memories (20_memory.md R40, the columns "written
by"). -/
inductive MemoryEffect (s : State) : Instr → State → Prop
  | keeps (i : Instr) {t : State} (h : KeepsMemories s t) : MemoryEffect s i t
  | start : MemoryEffect s .start (construct s)
  | prime : MemoryEffect s .prime (prime s)
  | advance : MemoryEffect s .advance (advance s)
  | insert (key : Key) (addr : Addr) : MemoryEffect s (.insert key addr) (s.insertAt key addr)
  | remove (key : Key) (addr : Addr) : MemoryEffect s (.remove key addr) (s.removeAt key addr)

theorem memoryEffect_of_exec {i : Instr} {s t : State} (h : exec i s = .next t) :
    MemoryEffect s i t := by
  cases i
  case literal | matchEntry | term | writeBit | finish | emitTerm =>
    exact .keeps _ (onlyWriterAndFault_of_exec h (by simp [bitsWritten]) nofun nofun).keepsMemories
  case writeBits n value =>
    by_cases hn : n.toNat = 0
    · rw [exec_writeBits_zero h hn]
      exact .keeps _ (.refl s)
    · exact .keeps _ (onlyWriterAndFault_of_exec h (.inl hn) nofun nofun).keepsMemories
  case byteAt | keyOf | chainFrom | matchLen | search =>
    cases h
    exact .keeps _ ⟨rfl, rfl, rfl, rfl⟩
  case emitLit => cases h; exact .keeps _ (emitLiteral_onlyEmission s).keepsMemories
  case emitMatch => cases h; exact .keeps _ (emitMatch_keepsMemories s)
  case start =>
    simp only [exec, execStart] at h
    split at h <;> cases h
    · exact .start
    · exact .keeps _ (.refl s)
  case prime => cases h; exact .prime
  case advance => cases h; exact .advance
  case insert key addr =>
    simp only [exec, execInsert] at h
    split at h <;> cases h
    exact .insert key addr
  case remove key addr =>
    simp only [exec, execRemove] at h
    split at h <;> cases h
    exact .remove key addr

/-- Settles O30, by the effect of each instruction on the memories. -/
theorem eachMemoryIsWrittenOnlyByItsOperations :
    Obligations.EachMemoryIsWrittenOnlyByItsOperations := by
  intro i s t h
  cases memoryEffect_of_exec h with
  | keeps _ hk =>
    obtain ⟨hwin, hhash, hprev, hnext⟩ := hk.sameMemories
    exact ⟨fun _ _ _ => hwin, fun _ a _ => hwin a, fun _ _ _ _ => ⟨hhash, hnext⟩,
      fun _ _ _ => hprev, fun _ _ _ k _ => hhash k⟩
  | start => simp
  | prime =>
    have tables : (∀ k, (prime s).readHash k = s.readHash k) ∧
        (∀ a, (prime s).readNext a = s.readNext a) ∧ ∀ a, (prime s).readPrev a = s.readPrev a := by
      rw [prime_frame]
      exact ⟨fun _ => rfl, fun _ => rfl, fun _ => rfl⟩
    simp [tables]
  | advance =>
    have window : ∀ a, a ≠ slotAt s.dictHead 18 → (advance s).readW a = s.readW a :=
      fun _ ha => advance_readW_of_ne ha
    simpa using window
  | insert key addr => simp +contextual [State.readHash_insertAt]
  | remove key addr => simp +contextual [State.readHash_removeAt_of_ne]

end Sys2Proof.Machine
end

section
/-! PROOFS. The canonical form of the memories, kept by every step of every kind (20_memory.md R40,
R50). -/

namespace Sys2Proof.Machine

theorem KeepsMemories.memWf {s t : State} (h : KeepsMemories s t) (hs : s.memWf) : t.memWf := by
  rw [State.memWf, h.window, h.hash, h.prev, h.next]
  exact hs

theorem powerOn_memWf (s : State) : (powerOn s).memWf :=
  (State.Inv.powerOn s).memories

theorem construct_memWf (s : State) : (construct s).memWf :=
  ⟨Memory.nil_wf _, Memory.nil_wf _, Memory.nil_wf _, Memory.nil_wf _⟩

theorem afterAdvance_keepsMemories (s : State) : KeepsMemories s (afterAdvance s) := by
  unfold afterAdvance
  rw [s.dropRemaining_frame]
  exact ⟨rfl, rfl, rfl, rfl⟩

/-- Every instruction keeps the memories canonical. -/
theorem MemoryEffect.memWf {s t : State} {i : Instr} (e : MemoryEffect s i t) (h : s.memWf) :
    t.memWf := by
  cases e with
  | keeps _ hk => exact hk.memWf h
  | start => exact construct_memWf s
  | prime => exact prime_memWf h
  | advance => exact advance_memWf h
  | insert key addr => exact State.insertAt_memWf h key addr
  | remove key addr => exact State.removeAt_memWf h key addr

/-- Every move of the sequencer keeps the memories canonical. -/
theorem Moves.memWf {s t : State} (m : Moves s t) (h : s.memWf) : t.memWf := by
  cases m with
  | rest => exact h
  | start => exact construct_memWf _
  | awaitPull => exact h
  | awaitPush => exact h
  | prime => exact prime_memWf h
  | search => exact h
  | emitLit => exact (emitLiteral_onlyEmission s).keepsMemories.memWf h
  | emitMatch => exact (emitMatch_keepsMemories s).memWf h
  | maintain => exact (afterAdvance_keepsMemories _).memWf (advance_memWf h)
  | terminate => exact (terminated_onlyEmission s).keepsMemories.memWf h

/-- A step with a word presented is a reset, or waits for a port of the word's instruction, or performs
that instruction alone (log 2). -/
theorem step_presented_cases {s t : State} {img : Image} (hi : s.issue = some img)
    (h : step s = .next t) :
    t = powerOn s.nextInput ∨ ∃ i, decode img = .ok i ∧
      (s.nextInput.waiting s.input i = some t ∨
        exec i { s.nextInput with issue := none } = .next t) := by
  cases hr : s.input.reset with
  | true =>
    have hreset : step s = .next (powerOn s.nextInput) := by simp [step, oneStep, hr]
    exact .inl (Host.Outcome.next.inj (h.symm.trans hreset))
  | false =>
    have hissue : issueDirect s.input img s.nextInput = .next t := by
      simpa [step, oneStep, hr, hi] using h
    unfold issueDirect at hissue
    split at hissue
    next => cases hissue
    next i hd =>
      refine .inr ⟨i, hd, ?_⟩
      split at hissue
      next w hw => cases hissue; exact .inl hw
      next => exact .inr hissue

/-- A waiting step raises a request and nothing else (60_exceptions.md R140). -/
theorem State.waiting_keepsMemories {s t : State} {inp : PortInput} {i : Instr}
    (h : s.waiting inp i = some t) : KeepsMemories s t := by
  rcases State.waiting_cases h with ⟨-, rfl⟩ | ⟨-, b, rfl⟩ <;> exact ⟨rfl, rfl, rfl, rfl⟩

/-- Settles O38: a step is a reset, a presented instruction or a move of the sequencer, and each of
these keeps the canonical form. -/
theorem everyStepKeepsTheMemoriesCanonical : Obligations.EveryStepKeepsTheMemoriesCanonical := by
  intro s t h hstep
  have hn : s.nextInput.memWf := h
  cases hi : s.issue with
  | none =>
    rcases step_cases hi hstep with ⟨-, rfl⟩ | ⟨-, m⟩
    · exact powerOn_memWf _
    · exact m.memWf hn
  | some img =>
    rcases step_presented_cases hi hstep with rfl | ⟨i, -, hw | he⟩
    · exact powerOn_memWf _
    · exact (State.waiting_keepsMemories hw).memWf hn
    · exact (memoryEffect_of_exec he).memWf hn

end Sys2Proof.Machine
end

section
/-! PROOFS. The decoder and the encoder agree: on the entries of a stream (30_encoding.md R60 to R68),
and on the operation words (R69; operand places: log 3). -/

namespace Sys2Proof

open Machine

/-! ### Entries -/

@[simp] theorem entryBits_literal (b : Byte) : entryBits (.literal b) = literalBits b := rfl

@[simp] theorem entryBits_matchEntry (addr : Addr) (lenm3 : LenField) :
    entryBits (.matchEntry addr lenm3) = matchBits addr lenm3 := rfl

@[simp] theorem entryBits_term : entryBits .term = matchBits 0 0 := rfl

@[simp] theorem length_literalBits (b : Byte) : (literalBits b).length = 9 := by
  simp [literalBits]

@[simp] theorem length_matchBits (addr : Addr) (lenm3 : LenField) :
    (matchBits addr lenm3).length = 18 := by
  simp [matchBits]

/-- A field of `n` bits carries a word of that width back. -/
theorem ofNat_bitsValue_msbBits {n : Nat} (v : BitVec n) :
    BitVec.ofNat n (bitsValue (msbBits n v.toNat)) = v := by
  rw [bitsValue_msbBits, Nat.mod_eq_of_lt v.isLt, BitVec.ofNat_toNat, BitVec.setWidth_eq]

/-- The front of a long enough bit list is the field of some word. -/
theorem exists_msbBits_append {n : Nat} {bits : List Bool} (h : n ≤ bits.length) :
    ∃ (v : BitVec n) (rest : List Bool), bits = msbBits n v.toNat ++ rest := by
  have hlen : (bits.take n).length = n := List.length_take_of_le h
  have hlt := bitsValue_lt (bits.take n)
  have hfront := msbBits_bitsValue (bits.take n)
  rw [hlen] at hlt hfront
  refine ⟨BitVec.ofNat n (bitsValue (bits.take n)), bits.drop n, ?_⟩
  rw [BitVec.toNat_ofNat, Nat.mod_eq_of_lt hlt, hfront, List.take_append_drop]

/-- A literal is read off the front of a stream (R61, R68). -/
theorem decodeEntry_literalBits (b : Byte) (rest : List Bool) :
    decodeEntry (literalBits b ++ rest) = .ok (.literal b, rest) := by
  have hlen : ¬ (msbBits 8 b.toNat ++ rest).length < 8 := by simp
  have htake : (msbBits 8 b.toNat ++ rest).take 8 = msbBits 8 b.toNat :=
    List.take_left' (length_msbBits 8 _)
  have hdrop : (msbBits 8 b.toNat ++ rest).drop 8 = rest := List.drop_left' (length_msbBits 8 _)
  simp only [literalBits, List.cons_append, decodeEntry]
  rw [if_neg hlen, htake, hdrop, ofNat_bitsValue_msbBits]

/-- An 18-bit entry is read off the front of a stream: the terminator, a match, or the pattern that is
neither (R62, R63, R67). -/
theorem decodeEntry_matchBits (addr : Addr) (lenm3 : LenField) (rest : List Bool) :
    decodeEntry (matchBits addr lenm3 ++ rest) =
      if addr = 0 then
        if lenm3 = 0 then .ok (.term, rest) else .error .reservedEntry
      else .ok (.matchEntry addr lenm3, rest) := by
  have hlen : ¬ (msbBits 13 addr.toNat ++ (msbBits 4 lenm3.toNat ++ rest)).length < 17 := by
    simp; omega
  have htake : (msbBits 13 addr.toNat ++ (msbBits 4 lenm3.toNat ++ rest)).take 13 =
      msbBits 13 addr.toNat := List.take_left' (length_msbBits 13 _)
  have hdrop : (msbBits 13 addr.toNat ++ (msbBits 4 lenm3.toNat ++ rest)).drop 13 =
      msbBits 4 lenm3.toNat ++ rest := List.drop_left' (length_msbBits 13 _)
  have htake' : (msbBits 4 lenm3.toNat ++ rest).take 4 = msbBits 4 lenm3.toNat :=
    List.take_left' (length_msbBits 4 _)
  have hrest : (msbBits 13 addr.toNat ++ (msbBits 4 lenm3.toNat ++ rest)).drop 17 = rest := by
    rw [← List.append_assoc]
    exact List.drop_left' (by simp)
  have haddr : bitsValue (msbBits 13 addr.toNat) = 0 ↔ addr = 0 := by
    rw [bitsValue_msbBits, Nat.mod_eq_of_lt addr.isLt]
    exact BitVec.toNat_inj (y := 0)
  have hlenm3 : bitsValue (msbBits 4 lenm3.toNat) = 0 ↔ lenm3 = 0 := by
    rw [bitsValue_msbBits, Nat.mod_eq_of_lt lenm3.isLt]
    exact BitVec.toNat_inj (y := 0)
  simp only [matchBits, List.cons_append, List.append_assoc, decodeEntry, decodeLong]
  rw [if_neg hlen, htake, hdrop, htake', hrest, ofNat_bitsValue_msbBits, ofNat_bitsValue_msbBits]
  simp only [haddr, hlenm3]

/-- Every entry is read off the front of a stream (R68). -/
theorem decodeEntry_entryBits {i : Instr} (hi : isData i ∨ i = .term) (rest : List Bool) :
    decodeEntry (entryBits i ++ rest) = .ok (i, rest) := by
  rcases hi with (⟨b, rfl⟩ | ⟨addr, lenm3, haddr, rfl⟩) | rfl
  · exact decodeEntry_literalBits b rest
  · rw [entryBits_matchEntry, decodeEntry_matchBits, if_neg haddr]
  · rw [entryBits_term, decodeEntry_matchBits, if_pos rfl, if_pos rfl]

/-- What is read off the front of a stream is an entry, and its bits stood there. -/
theorem entryBits_of_decodeEntry {bits rest : List Bool} {i : Instr}
    (h : decodeEntry bits = .ok (i, rest)) :
    (isData i ∨ i = .term) ∧ bits = entryBits i ++ rest := by
  match bits with
  | [] => cases h
  | true :: bits =>
    by_cases hlen : bits.length < 8
    · simp [decodeEntry, hlen] at h
    · obtain ⟨b, tail, rfl⟩ := exists_msbBits_append (n := 8) (by omega : 8 ≤ bits.length)
      cases (decodeEntry_literalBits b tail).symm.trans h
      exact ⟨.inl (.inl ⟨b, rfl⟩), rfl⟩
  | false :: bits =>
    by_cases hlen : bits.length < 17
    · simp [decodeEntry, decodeLong, hlen] at h
    · obtain ⟨addr, mid, rfl⟩ := exists_msbBits_append (n := 13) (by omega : 13 ≤ bits.length)
      obtain ⟨lenm3, tail, rfl⟩ := exists_msbBits_append (n := 4) (bits := mid) (by
        simp at hlen; omega)
      have hbits : false :: (msbBits 13 addr.toNat ++ (msbBits 4 lenm3.toNat ++ tail)) =
          matchBits addr lenm3 ++ tail := by simp [matchBits]
      rw [hbits, decodeEntry_matchBits] at h
      rw [hbits]
      split at h
      next haddr =>
        split at h
        next hlenm3 => cases h; exact ⟨.inr rfl, by rw [haddr, hlenm3, entryBits_term]⟩
        next => cases h
      next haddr => cases h; exact ⟨.inl (.inr ⟨addr, lenm3, haddr, rfl⟩), rfl⟩

theorem encode_of_entry {i : Instr} (hi : isData i ∨ i = .term) : encode i = .entry (entryBits i) := by
  rcases hi with (⟨b, rfl⟩ | ⟨addr, lenm3, -, rfl⟩) | rfl <;> rfl

theorem wf_of_entry {i : Instr} (hi : isData i ∨ i = .term) : i.wf = true := by
  rcases hi with (⟨b, rfl⟩ | ⟨addr, lenm3, haddr, rfl⟩) | rfl
  · rfl
  · simpa [Instr.wf] using haddr
  · rfl

/-- An image that is one entry and nothing more. -/
theorem decode_entry_iff {bits : List Bool} {i : Instr} :
    decode (.entry bits) = .ok i ↔ decodeEntry bits = .ok (i, []) := by
  simp only [decode]
  split
  next e h => simp [h]
  next j h => simp [h]
  next j b bs h => simp [h]

theorem decode_encode_of_entry {i : Instr} (hi : isData i ∨ i = .term) :
    decode (encode i) = .ok i := by
  have h := decodeEntry_entryBits hi []
  rw [List.append_nil] at h
  rw [encode_of_entry hi]
  exact decode_entry_iff.2 h

/-! ### Operation words -/

theorem decodePlain_ok_iff {i j : Instr} {x : Nat} : decodePlain i x = .ok j ↔ x = 0 ∧ i = j := by
  unfold decodePlain
  split
  next h => simp [h]
  next h => simp [h]

/-- One field carries a word of its width. -/
theorem decodeField_ok_iff {width x : Nat} {make : Nat → Instr} {j : Instr} :
    decodeField width x make = .ok j ↔ ∃ v : BitVec width, x = v.toNat ∧ make v.toNat = j := by
  unfold decodeField
  split
  next h =>
    constructor
    · intro hj
      exact ⟨BitVec.ofNatLT x h, rfl, Except.ok.inj hj⟩
    · rintro ⟨v, rfl, rfl⟩
      rfl
  next h =>
    constructor
    · nofun
    · rintro ⟨v, rfl, -⟩
      exact absurd v.isLt h

theorem decodeField_ofNat_ok_iff {width x : Nat} {make : BitVec width → Instr} {j : Instr} :
    decodeField width x (fun v => make (BitVec.ofNat width v)) = .ok j ↔
      ∃ v, x = v.toNat ∧ make v = j := by
  simp [decodeField_ok_iff]

/-- The operand bits of INSERT and REMOVE in numbers: an address that is not 0 is stored minus 1. -/
theorem keyAddrBits_eq (key : Key) {addr : Addr} (h : addr ≠ 0) :
    keyAddrBits key addr = key.toNat + 2 ^ 16 * (addr.toNat - 1) ∧ 1 ≤ addr.toNat := by
  have hpos : addr.toNat ≠ 0 := fun e => h (BitVec.eq_of_toNat_eq e)
  have hlt := addr.isLt
  have hpred : (addr - 1).toNat = addr.toNat - 1 := by
    have hone : (1 : Addr).toNat = 1 := rfl
    rw [BitVec.toNat_sub, hone]
    omega
  exact ⟨by rw [keyAddrBits, hpred], by omega⟩

/-- INSERT and REMOVE carry every key and every address but 0 (log 3). -/
theorem decodeKeyAddr_ok_iff {x : Nat} {make : Key → Addr → Instr} {j : Instr} :
    decodeKeyAddr x make = .ok j ↔
      ∃ (key : Key) (addr : Addr), addr ≠ 0 ∧ x = keyAddrBits key addr ∧ make key addr = j := by
  unfold decodeKeyAddr
  constructor
  · intro h
    split at h
    next => cases h
    next hx =>
      split at h
      next => cases h
      next hq =>
        have haddr : (BitVec.ofNat 13 (x / 2 ^ 16 + 1)).toNat = x / 2 ^ 16 + 1 := by
          rw [BitVec.toNat_ofNat]
          omega
        have hne : BitVec.ofNat 13 (x / 2 ^ 16 + 1) ≠ 0 := by
          intro e
          rw [e] at haddr
          exact Nat.succ_ne_zero _ haddr.symm
        refine ⟨_, _, hne, ?_, Except.ok.inj h⟩
        rw [(keyAddrBits_eq _ hne).1, haddr, BitVec.toNat_ofNat]
        omega
  · rintro ⟨key, addr, hne, rfl, rfl⟩
    obtain ⟨hx, hpos⟩ := keyAddrBits_eq key hne
    have hkey := key.isLt
    have haddr := addr.isLt
    have hq : keyAddrBits key addr / 2 ^ 16 + 1 = addr.toNat := by omega
    have hkey' : BitVec.ofNat 16 (keyAddrBits key addr) = key := by
      apply BitVec.eq_of_toNat_eq
      rw [BitVec.toNat_ofNat]
      omega
    rw [if_neg (by omega), if_neg (by omega), hq, hkey', BitVec.ofNat_toNat, BitVec.setWidth_eq]

/-- WRITEBITS carries every count of 0 to 16 and every value (log 3). -/
theorem decodeCountValue_ok_iff {x : Nat} {j : Instr} :
    decodeCountValue x = .ok j ↔
      ∃ (n : BitVec 5) (value : BitVec 16), n.toNat ≤ 16 ∧ x = n.toNat + 2 ^ 5 * value.toNat ∧
        .writeBits n value = j := by
  unfold decodeCountValue
  constructor
  · intro h
    split at h
    next => cases h
    next hx =>
      split at h
      next => cases h
      next hn =>
        refine ⟨_, _, ?_, ?_, Except.ok.inj h⟩
        · rw [BitVec.toNat_ofNat]
          omega
        · rw [BitVec.toNat_ofNat, BitVec.toNat_ofNat]
          omega
  · rintro ⟨n, value, hn, rfl, rfl⟩
    have hlt := n.isLt
    have hvalue := value.isLt
    have hn' : BitVec.ofNat 5 (n.toNat + 2 ^ 5 * value.toNat) = n := by
      apply BitVec.eq_of_toNat_eq
      rw [BitVec.toNat_ofNat]
      omega
    have hq : (n.toNat + 2 ^ 5 * value.toNat) / 2 ^ 5 = value.toNat := by omega
    rw [if_neg (by omega), if_neg (by omega), hn', hq, BitVec.ofNat_toNat, BitVec.setWidth_eq]

/-- A word is its number, four zero bits, and its operand bits. -/
theorem decodeOp_opWord {number x : Nat} (hn : number < 16) (hx : x < 2 ^ 32) :
    decodeOp (opWord number x) = decodeNumber number x := by
  have hw : (opWord number x).toNat = number + 256 * x := by
    simp only [opWord, BitVec.toNat_ofNat]
    omega
  unfold decodeOp
  rw [hw, if_pos (by omega)]
  congr 1 <;> omega

theorem exists_opWord_of_decodeOp {word : OpWord} {i : Instr} (h : decodeOp word = .ok i) :
    ∃ number x, word = opWord number x ∧ decodeNumber number x = .ok i := by
  unfold decodeOp at h
  split at h
  next hz =>
    refine ⟨word.toNat % 16, word.toNat / 256, ?_, h⟩
    apply BitVec.eq_of_toNat_eq
    have := word.isLt
    simp only [opWord, BitVec.toNat_ofNat]
    omega
  next => cases h

theorem encode_of_decodePlain {number x : Nat} {i j : Instr} (hwf : j.wf = true)
    (henc : encode j = .op (opWord number 0)) (h : decodePlain j x = .ok i) :
    i.wf = true ∧ encode i = .op (opWord number x) := by
  obtain ⟨rfl, rfl⟩ := decodePlain_ok_iff.1 h
  exact ⟨hwf, henc⟩

theorem encode_of_decodeField {number x width : Nat} (make : BitVec width → Instr) {i : Instr}
    (hwf : ∀ v, (make v).wf = true) (henc : ∀ v, encode (make v) = .op (opWord number v.toNat))
    (h : decodeField width x (fun v => make (BitVec.ofNat width v)) = .ok i) :
    i.wf = true ∧ encode i = .op (opWord number x) := by
  obtain ⟨v, rfl, rfl⟩ := decodeField_ofNat_ok_iff.1 h
  exact ⟨hwf v, henc v⟩

theorem encode_of_decodeBit {x : Nat} {i : Instr}
    (h : decodeField 1 x (fun v => .writeBit (v == 1)) = .ok i) :
    i.wf = true ∧ encode i = .op (opWord 10 x) := by
  obtain ⟨v, rfl, rfl⟩ := decodeField_ok_iff.1 h
  revert v
  decide

theorem encode_of_decodeKeyAddr {number x : Nat} (make : Key → Addr → Instr) {i : Instr}
    (hwf : ∀ key addr, addr ≠ 0 → (make key addr).wf = true)
    (henc : ∀ key addr, encode (make key addr) = .op (opWord number (keyAddrBits key addr)))
    (h : decodeKeyAddr x make = .ok i) : i.wf = true ∧ encode i = .op (opWord number x) := by
  obtain ⟨key, addr, hne, rfl, rfl⟩ := decodeKeyAddr_ok_iff.1 h
  exact ⟨hwf key addr hne, henc key addr⟩

theorem encode_of_decodeCountValue {x : Nat} {i : Instr} (h : decodeCountValue x = .ok i) :
    i.wf = true ∧ encode i = .op (opWord 11 x) := by
  obtain ⟨n, value, hn, rfl, rfl⟩ := decodeCountValue_ok_iff.1 h
  exact ⟨decide_eq_true hn, rfl⟩

/-- What a number and its operand bits decode to is well formed and has them for its word. -/
theorem encode_of_decodeNumber {number x : Nat} {i : Instr} (h : decodeNumber number x = .ok i) :
    i.wf = true ∧ encode i = .op (opWord number x) := by
  match number, h with
  | 0, h => exact encode_of_decodePlain (j := .start) rfl rfl h
  | 1, h => exact encode_of_decodePlain (j := .prime) rfl rfl h
  | 2, h => exact encode_of_decodeField .byteAt (fun _ => rfl) (fun _ => rfl) h
  | 3, h => exact encode_of_decodePlain (j := .advance) rfl rfl h
  | 4, h => exact encode_of_decodeField .keyOf (fun _ => rfl) (fun _ => rfl) h
  | 5, h => exact encode_of_decodeKeyAddr .insert (fun _ _ => bne_iff_ne.2) (fun _ _ => rfl) h
  | 6, h => exact encode_of_decodeKeyAddr .remove (fun _ _ => bne_iff_ne.2) (fun _ _ => rfl) h
  | 7, h => exact encode_of_decodeField .chainFrom (fun _ => rfl) (fun _ => rfl) h
  | 8, h => exact encode_of_decodeField .matchLen (fun _ => rfl) (fun _ => rfl) h
  | 9, h => exact encode_of_decodePlain (j := .search) rfl rfl h
  | 10, h => exact encode_of_decodeBit h
  | 11, h => exact encode_of_decodeCountValue h
  | 12, h => exact encode_of_decodePlain (j := .finish) rfl rfl h
  | 13, h => exact encode_of_decodePlain (j := .emitLit) rfl rfl h
  | 14, h => exact encode_of_decodePlain (j := .emitMatch) rfl rfl h
  | 15, h => exact encode_of_decodePlain (j := .emitTerm) rfl rfl h
  | _ + 16, h => cases h

/-- An operation word decodes to what its number and operand bits do. -/
theorem decode_opWord {number x : Nat} {i : Instr} (hn : number < 16) (hx : x < 2 ^ 32)
    (h : decodeNumber number x = .ok i) : decode (.op (opWord number x)) = .ok i :=
  (decodeOp_opWord hn hx).trans h

theorem decode_field {number width : Nat} (make : BitVec width → Instr) (hn : number < 16)
    (hw : width ≤ 32)
    (hd : ∀ x, decodeNumber number x = decodeField width x fun v => make (BitVec.ofNat width v))
    (v : BitVec width) : decode (.op (opWord number v.toNat)) = .ok (make v) :=
  decode_opWord hn (v.isLt.trans_le (Nat.pow_le_pow_right (by decide) hw))
    ((hd _).trans (decodeField_ofNat_ok_iff.2 ⟨v, rfl, rfl⟩))

theorem decode_keyAddr {number : Nat} (make : Key → Addr → Instr) (hn : number < 16)
    (hd : ∀ x, decodeNumber number x = decodeKeyAddr x make) (key : Key) {addr : Addr}
    (hne : addr ≠ 0) : decode (.op (opWord number (keyAddrBits key addr))) = .ok (make key addr) := by
  have hx : keyAddrBits key addr < 2 ^ 32 := by
    have hkey := key.isLt
    have haddr := addr.isLt
    rw [(keyAddrBits_eq key hne).1]
    omega
  exact decode_opWord hn hx ((hd _).trans (decodeKeyAddr_ok_iff.2 ⟨key, addr, hne, rfl, rfl⟩))

theorem decode_countValue {n : BitVec 5} (hn : n.toNat ≤ 16) (value : BitVec 16) :
    decode (.op (opWord 11 (n.toNat + 2 ^ 5 * value.toNat))) = .ok (.writeBits n value) := by
  have hx : n.toNat + 2 ^ 5 * value.toNat < 2 ^ 32 := by
    have hvalue := value.isLt
    omega
  exact decode_opWord (by decide) hx (decodeCountValue_ok_iff.2 ⟨n, value, hn, rfl, rfl⟩)

/-! ### The statements -/

/-- Settles O2: each kind of entry and of operand field is read back as it was written. -/
theorem decodingAnEncodedInstructionGivesItBack :
    Obligations.DecodingAnEncodedInstructionGivesItBack := by
  intro i hwf
  cases i with
  | literal b => exact decode_encode_of_entry (.inl (.inl ⟨b, rfl⟩))
  | matchEntry addr lenm3 =>
    exact decode_encode_of_entry (.inl (.inr ⟨addr, lenm3, bne_iff_ne.1 hwf, rfl⟩))
  | term => exact decode_encode_of_entry (.inr rfl)
  | byteAt addr => exact decode_field .byteAt (by decide) (by decide) (fun _ => rfl) addr
  | keyOf addr => exact decode_field .keyOf (by decide) (by decide) (fun _ => rfl) addr
  | chainFrom key => exact decode_field .chainFrom (by decide) (by decide) (fun _ => rfl) key
  | matchLen c => exact decode_field .matchLen (by decide) (by decide) (fun _ => rfl) c
  | writeBit b => revert b; decide
  | insert key addr => exact decode_keyAddr .insert (by decide) (fun _ => rfl) key (bne_iff_ne.1 hwf)
  | remove key addr => exact decode_keyAddr .remove (by decide) (fun _ => rfl) key (bne_iff_ne.1 hwf)
  | writeBits n value => exact decode_countValue (of_decide_eq_true hwf) value
  | start | prime | advance | search | finish | emitLit | emitMatch | emitTerm =>
    exact decode_opWord (by decide) (by decide) (decodePlain_ok_iff.2 ⟨rfl, rfl⟩)

/-- Settles O3: an entry's bits stood at the front of its stream, and a word is its number and its
operand bits. -/
theorem everyDecodedImageIsTheEncoding : Obligations.EveryDecodedImageIsTheEncoding := by
  intro img i h
  cases img with
  | entry bits =>
    obtain ⟨hi, hbits⟩ := entryBits_of_decodeEntry (decode_entry_iff.1 h)
    rw [List.append_nil] at hbits
    exact ⟨wf_of_entry hi, (encode_of_entry hi).trans (congrArg _ hbits.symm)⟩
  | op word =>
    obtain ⟨number, x, rfl, hnumber⟩ := exists_opWord_of_decodeOp h
    exact encode_of_decodeNumber hnumber

/-- Settles O4: a literal starts with 1 and has 9 bits, a match and the terminator start with 0 and
have 18. -/
theorem entriesAreReadFromTheFrontOfAStream : Obligations.EntriesAreReadFromTheFrontOfAStream := by
  intro i rest hi
  refine ⟨decodeEntry_entryBits hi rest, ?_⟩
  rcases hi with (⟨b, rfl⟩ | ⟨addr, lenm3, -, rfl⟩) | rfl
  · exact length_literalBits b
  · exact length_matchBits addr lenm3
  · exact length_matchBits 0 0

/-- Settles O1: each sample is the encoding of the instruction it stands for. -/
theorem sampleImagesDecode : Obligations.SampleImagesDecode := by
  have sample := decodingAnEncodedInstructionGivesItBack
  exact ⟨sample (.literal 0x41) rfl, sample (.matchEntry 1 15) rfl, sample .term rfl,
    sample .start rfl, sample .prime rfl, sample (.byteAt 0x2001) rfl, sample .advance rfl,
    sample (.keyOf 0x1FFF) rfl, sample (.insert 0x4551 2) rfl, sample (.remove 0x4551 1) rfl,
    sample (.chainFrom 0x6473) rfl, sample (.matchLen 8191) rfl, sample .search rfl,
    sample (.writeBit true) rfl, sample (.writeBits 13 0x1234) rfl, sample .finish rfl,
    sample .emitLit rfl, sample .emitMatch rfl, sample .emitTerm rfl⟩

/-- Settles O5: the decoder's branch for address field 0 with a length field that is not 0 (log 17). -/
theorem reservedEntryIsRefused : Obligations.ReservedEntryIsRefused := by
  intro l rest hl
  rw [decodeEntry_matchBits, if_pos rfl, if_neg hl]

end Sys2Proof
end

section
/-! PROOFS. What the entries write (30_encoding.md R61 to R63), the operands that are refused by name
(log 17), and the presented word (log 2). -/

namespace Sys2Proof.Machine

/-! ### Entries are written whole or refused -/

theorem WroteAll.wrote {bs : List Bool} {s t : State} (w : WroteAll bs s t) : Wrote bs s t :=
  ⟨w.frame, w.clean, w.written⟩

theorem WroteSome.refused {bs : List Bool} {s t : State} (w : WroteSome bs s t) : Refused bs s t := by
  have full : ¬ t.room 1 := by
    rw [t.room_one_iff, w.full]
    decide
  obtain ⟨pushed, hout, -⟩ := w.out
  exact ⟨w.frame, w.phase, w.code, full, ⟨pushed, hout.symm⟩, w.written⟩

/-- A stream of bits is written when the sink has room for its pushes, and refused otherwise. -/
theorem writeStream_outcome (bs : List Bool) {s : State} (hc : s.accClean) :
    (s.room (s.pushesFor bs.length) → ∃ t, (writeStream bs s).outcome = .next t ∧ Wrote bs s t) ∧
    (¬ s.room (s.pushesFor bs.length) →
      ∃ t, (writeStream bs s).outcome = .next t ∧ Refused bs s t) := by
  rcases writeStream_cases bs s hc with ⟨t, e, w⟩ | ⟨t, e, w⟩ <;> rw [e]
  · exact ⟨fun _ => ⟨t, rfl, w.wrote⟩, fun hroom => absurd w.room hroom⟩
  · exact ⟨fun hroom => absurd hroom w.room, fun _ => ⟨t, rfl, w.refused⟩⟩

/-- Performing an entry is writing its bits (log 4). -/
theorem exec_of_entry {i : Instr} (hi : isData i ∨ i = .term) (s : State) :
    exec i s = (writeStream (entryBits i) s).outcome := by
  rcases hi with (⟨b, rfl⟩ | ⟨addr, lenm3, haddr, rfl⟩) | rfl
  · exact congrArg Flow.outcome (writeLiteral_eq b s)
  · exact (if_neg haddr).trans (congrArg Flow.outcome (writeLong_eq addr lenm3 s))
  · exact congrArg Flow.outcome (writeLong_eq 0 0 s)

/-- EMITTERM writes the terminator (43_encoder.md R119). -/
theorem exec_emitTerm (s : State) :
    exec .emitTerm s = (writeStream (List.replicate 18 false) s).outcome :=
  congrArg Flow.outcome (writeLong_eq 0 0 s)

/-- Settles O12: each of the four performs the stream of its bits. -/
theorem entriesWriteTheirEncoding : Obligations.EntriesWriteTheirEncoding := by
  rintro i bits s (⟨hi, rfl⟩ | ⟨rfl, rfl⟩) hc
  · rw [exec_of_entry hi]
    exact writeStream_outcome _ hc
  · rw [exec_emitTerm]
    exact writeStream_outcome _ hc

/-- Settles O7: the guard of each of the four meanings (log 17). -/
theorem illFormedInstructionsAreRefused : Obligations.IllFormedInstructionsAreRefused :=
  fun _ _ _ _ _ => ⟨rfl, rfl, rfl, fun hn => if_neg (Nat.not_le_of_lt hn)⟩

/-! ### The presented word -/

/-- No step waits while both ports answer (60_exceptions.md R140). -/
theorem State.waiting_eq_none (s : State) {inp : PortInput} (i : Instr) (hsrc : inp.srcHold = false)
    (hsnk : inp.snkHold = false) : s.waiting inp i = none := by
  simp [State.waiting, hsrc, hsnk]

/-- Settles O32: without a reset and without a wait, a presented word is decoded and performed. -/
theorem issuedWordIsPerformed : Obligations.IssuedWordIsPerformed := by
  intro s img i hissue hdecode hreset hsrc hsnk
  have hissue' : s.nextInput.issue = some img := hissue
  simp only [step, oneStep, hreset, hissue', issueDirect, hdecode,
    State.waiting_eq_none _ i hsrc hsnk]
  rfl

end Sys2Proof.Machine
end

section
/-! PROOFS. What an encode has written is whole entries for the bytes consumed or owed (30_encoding.md
R65, R66), kept by each move of the sequencer up to the complete stream (43_encoder.md R122). -/

namespace Sys2Proof.Machine

/-! ### Entries in what has been written -/

/-- One more entry covers its bytes too. -/
theorem State.holdsEntries.entry {s t : State} {bytes : Nat} (h : s.holdsEntries bytes) {e : Instr}
    (he : isData e) (hw : t.written = s.written ++ entryBits e) :
    t.holdsEntries (bytes + coveredBy e) := by
  obtain ⟨es, hes, hwritten, rfl⟩ := h
  refine ⟨es ++ [e], ?_, by simp [hw, hwritten], by simp [covered]⟩
  intro x hx
  rcases List.mem_append.1 hx with hx | hx
  · exact hes x hx
  · exact List.mem_singleton.1 hx ▸ he

/-- A literal has 9 bits, a match 18 (R61, R62). -/
theorem length_flatMap_entryBits {es : List Instr} (hes : ∀ e ∈ es, isData e) :
    (es.flatMap entryBits).length = 9 * literals es + 18 * (es.length - literals es) := by
  induction es with
  | nil => rfl
  | cons e es ih =>
    have ih := ih fun x hx => hes x (List.mem_cons_of_mem _ hx)
    have hle : literals es ≤ es.length := List.countP_le_length
    rcases hes e List.mem_cons_self with ⟨b, rfl⟩ | ⟨addr, lenm3, -, rfl⟩
    · have hl : literals (.literal b :: es) = literals es + 1 := List.countP_cons_of_pos rfl
      simp [ih, hl]
      omega
    · have hl : literals (.matchEntry addr lenm3 :: es) = literals es :=
        List.countP_cons_of_neg Bool.false_ne_true
      simp [ih, hl]
      omega

/-- The true length is stored minus 3 (R64). -/
theorem trueLength_lenFieldOf {len : Count} (hmin : 3 ≤ len.toNat) (hmax : len.toNat ≤ 18) :
    trueLength (lenFieldOf len) = len.toNat := by
  have hthree : (3 : Count).toNat = 3 := rfl
  rw [trueLength, lenFieldOf, BitVec.truncate_eq_setWidth, BitVec.toNat_setWidth, BitVec.toNat_sub,
    hthree, Config.minMatch]
  omega

/-! ### The padding of the last byte -/

/-- The unwritten bits of a clean `acc` are 0 (10_state.md R25). -/
theorem State.accClean.drop_byteBits {s : State} (h : s.accClean) :
    (byteBits s.acc).drop s.nbits.toNat = List.replicate (8 - s.nbits.toNat) false := by
  refine List.eq_replicate_iff.2 ⟨by simp, fun b hb => ?_⟩
  obtain ⟨i, hi⟩ := List.mem_iff_getElem?.1 hb
  have hlt : s.nbits.toNat + i < 8 := by
    have := (List.getElem?_eq_some_iff.1 hi).1
    simp at this
    omega
  rw [List.getElem?_drop, getElem?_byteBits hlt, s.accClean_iff.1 h _ (by omega)] at hi
  exact (Option.some.inj hi).symm

/-- FINISH pads what has been written to whole bytes with fewer than 8 zeros (40_bitwriter.md R82). -/
theorem flush_pads {s t : State} (hc : s.accClean) (h : flush s = .completed t) :
    ∃ pad < 8, bitsOfBytes t.out = s.written ++ List.replicate pad false := by
  rcases flush_cases s with ⟨hn, e⟩ | ⟨hn, -, e⟩ | ⟨-, -, e⟩ <;> cases e.symm.trans h
  · exact ⟨0, by decide, by simp [State.written, hn]⟩
  · have hpos : s.nbits.toNat ≠ 0 := fun h0 => hn (BitVec.eq_of_toNat_eq h0)
    refine ⟨8 - s.nbits.toNat, by omega, ?_⟩
    rw [State.written, List.append_assoc, ← hc.drop_byteBits, List.take_append_drop,
      bitsOfBytes_append]
    simp [bitsOfBytes]

/-- Whole entries, the terminator and the padding are a complete stream, and `out_len` counts it. -/
theorem State.completeStream_of_bits {s : State} {es : List Instr} {pad : Nat}
    (hes : ∀ e ∈ es, isData e) (hpad : pad < 8)
    (hbits : bitsOfBytes s.out = es.flatMap entryBits ++ entryBits .term ++ List.replicate pad false)
    (hcount : s.outLen = s.out.length) : s.completeStream (covered es) := by
  have hlen := congrArg List.length hbits
  rw [length_bitsOfBytes, List.length_append, List.length_append, length_flatMap_entryBits hes,
    entryBits_term, length_matchBits, List.length_replicate] at hlen
  exact ⟨es, pad, hes, hpad, rfl, hbits, by omega⟩

/-! ### Between PRIME and DONE -/

/-- The entries written cover the bytes consumed and owed, which are not more than the input. -/
def State.balanced (n : Nat) (s : State) : Prop :=
  s.holdsEntries (s.consumed n + s.remaining.toNat) ∧ s.waitingBytes.toNat + s.src.length ≤ n

/-- In the phases of the loop and in TERMINATE, what is owed is 0 but in MAINTAIN, and in TERMINATE
the whole input is consumed: there the stream is the balance. -/
theorem State.Inv.streams_iff {s : State} (h : s.Inv) {n : Nat}
    (hp : s.phase ∈ [Phase.search, .emit, .maintain, .terminate]) :
    s.Streams n ↔ s.balanced n := by
  simp only [List.mem_cons, List.not_mem_nil, or_false] at hp
  rcases hp with hp | hp | hp | hp <;> simp only [State.Streams, hp, State.balanced]
  · rw [(h.contract_search hp).2.1]
    rfl
  · rw [(h.contract_emit hp).2.1]
    rfl
  · obtain ⟨hwait, hrem, hsrc⟩ := h.contract_terminate hp
    simp [State.consumed, hwait, hrem, hsrc]

theorem State.streams_of_fault {s : State} (h : s.phase = .fault) (n : Nat) : s.Streams n := by
  simp [State.Streams, h]

theorem State.loopPhase_cases (s : State) : s.loopPhase = .search ∨ s.loopPhase = .terminate := by
  unfold State.loopPhase
  split
  · exact .inr rfl
  · exact .inl rfl

/-- PRIME consumes nothing and nothing has been written (41_window.md R90). -/
theorem balanced_prime {s : State} (h : s.Inv) (hp : s.phase = .prime) {n : Nat}
    (hn : s.src.length = n) (p : Phase) : State.balanced n { prime s with phase := p } := by
  obtain ⟨-, -, hrem, hacc, hnbits, hout⟩ := h.contract_prime hp
  have hwait := prime_waitingBytes s
  have hsrc := prime_src s
  constructor
  · have hrem' : (prime s).remaining = 0 := by rw [prime_frame]; exact hrem
    have hwritten : (prime s).written = [] := by
      rw [prime_frame]
      simp [State.written, hnbits, hout, bitsOfBytes]
    rw [consumed_prime hn]
    exact ⟨[], nofun, hwritten, by simp [hrem', covered]⟩
  · show (prime s).waitingBytes.toNat + (prime s).src.length ≤ n
    rw [hwait, hsrc, List.length_drop]
    omega

theorem afterAdvance_remaining (s : State) :
    (afterAdvance s).remaining = s.dropRemaining.remaining := rfl

/-- What follows an ADVANCE changes neither the lookahead nor the source (R118). -/
theorem afterAdvance_counts (s : State) :
    (afterAdvance s).waitingBytes = s.waitingBytes ∧ (afterAdvance s).src = s.src := by
  rw [afterAdvance, s.dropRemaining_frame]
  exact ⟨rfl, rfl⟩

theorem written_afterAdvance (s : State) : (afterAdvance (advance s)).written = s.written := by
  rw [afterAdvance, State.dropRemaining_frame, advance_onlyDictionary]
  rfl

/-- ADVANCE takes no byte that is not there (41_window.md R92). -/
theorem advance_total {s : State} (hw : s.waitingBytes ≠ 0) :
    (advance s).waitingBytes.toNat + (advance s).src.length ≤
      s.waitingBytes.toNat + s.src.length := by
  rcases (advance_counts hw).2 with ⟨hsrc, hsrc', hcount⟩ | ⟨b, rest, hsrc, hsrc', hcount⟩ <;>
    rw [hsrc, hsrc']
  · omega
  · simp [hcount]

/-- ADVANCE consumes a byte that was owed (43_encoder.md R118). -/
theorem balanced_afterAdvance {s : State} (h : s.Inv) (hp : s.phase = .maintain) {n : Nat}
    (hs : s.balanced n) : (afterAdvance (advance s)).balanced n := by
  obtain ⟨hentries, total⟩ := hs
  have hwait := h.waiting_maintain hp
  have hrem := dropRemaining_advance (h.contract_maintain hp).1
  obtain ⟨hcount, hsrc⟩ := afterAdvance_counts (advance s)
  constructor
  · have hsum : (afterAdvance (advance s)).consumed n + (afterAdvance (advance s)).remaining.toNat =
        s.consumed n + s.remaining.toNat := by
      rw [consumed_afterAdvance, consumed_advance hwait total, afterAdvance_remaining]
      omega
    rw [hsum, State.holdsEntries, written_afterAdvance]
    exact hentries
  · rw [hcount, hsrc]
    exact (advance_total hwait).trans total

/-- An entry for the bytes then owed is written, or a byte of it is refused (43_encoder.md R116,
R117). -/
theorem streams_emission {s : State} (h : s.Inv) (hp : s.phase = .emit) {n : Nat}
    (hs : s.balanced n) {e : Instr} (he : isData e) {k : Count} (hk : coveredBy e = k.toNat) :
    ((writeStream (entryBits e) s).andThen (owe k)).state.Streams n := by
  obtain ⟨hentries, total⟩ := hs
  rw [(h.contract_emit hp).2.1] at hentries
  rcases writeStream_cases (entryBits e) s (h.clean (by rw [hp]; decide)) with
    ⟨t, ht, w⟩ | ⟨t, ht, w⟩ <;> rw [ht]
  · have hentries' := hentries.entry he w.written
    rw [hk] at hentries'
    show t.holdsEntries (t.consumed n + k.toNat) ∧ t.waitingBytes.toNat + t.src.length ≤ n
    have hframe : t.consumed n = s.consumed n ∧ t.waitingBytes = s.waitingBytes ∧ t.src = s.src := by
      rw [w.frame]
      exact ⟨rfl, rfl, rfl⟩
    obtain ⟨hconsumed, hwait, hsrc⟩ := hframe
    rw [hconsumed, hwait, hsrc]
    exact ⟨hentries', total⟩
  · exact State.streams_of_fault w.phase n

theorem streams_emitLiteral {s : State} (h : s.Inv) (hp : s.phase = .emit) {n : Nat}
    (hs : s.balanced n) : (emitLiteral s).state.Streams n := by
  rw [emitLiteral, writeLiteral_eq]
  exact streams_emission h hp hs (.inl ⟨_, rfl⟩) rfl

theorem streams_emitMatch {s : State} (h : s.Inv) (hp : s.phase = .emit)
    (hlen : ¬ s.bestLen < 3) {n : Nat} (hs : s.balanced n) : (emitMatch s).state.Streams n := by
  have hmin : 3 ≤ s.bestLen.toNat := by
    rw [BitVec.lt_def] at hlen
    exact Nat.le_of_not_lt hlen
  have haddr : s.bestAddr ≠ 0 :=
    (h.contract_emit hp).2.2.2.2 fun h0 => hlen (by rw [h0]; decide)
  rw [emitMatch, if_neg hlen, writeLong_eq]
  exact streams_emission h hp hs (.inr ⟨_, _, haddr, rfl⟩)
    (trueLength_lenFieldOf hmin h.ranges.2.1)

/-- The terminator and FINISH complete the stream, or a byte of them is refused (43_encoder.md R119,
R122). -/
theorem streams_terminated {s : State} (h : s.Inv) (hp : s.phase = .terminate) {n : Nat}
    (hs : s.holdsEntries n) : (terminated s).state.Streams n := by
  obtain ⟨es, hes, hwritten, rfl⟩ := hs
  have hcount := (h.terminated hp).counted
  rw [terminated, writeLong_eq] at hcount ⊢
  rcases writeStream_cases (matchBits 0 0) s (h.clean (by rw [hp]; decide)) with
    ⟨t, ht, w⟩ | ⟨t, ht, w⟩ <;> rw [ht] at hcount ⊢
  · have hflush := flush_writesOnly t
    rw [Flow.andThen_completed] at hcount ⊢
    cases hu : flush t with
    | completed u =>
      rw [hu] at hcount
      obtain ⟨pad, hpad, hbits⟩ := flush_pads w.clean hu
      rw [w.written, hwritten] at hbits
      exact State.completeStream_of_bits hes hpad hbits hcount
    | abandoned u =>
      rw [hu] at hflush
      exact State.streams_of_fault hflush.2 _
  · exact State.streams_of_fault w.phase _

/-! ### Each move keeps the stream -/

/-- Every move of a busy phase keeps the stream. -/
theorem Moves.streams {s t : State} {n : Nat} (m : Moves s t) (h : s.Inv) (hs : s.Streams n)
    (hb : s.busy = true) : t.Streams n := by
  have ht := m.inv h
  cases m with
  | rest hb' => exact absurd (hb.symm.trans hb') (by decide)
  | start hb' => exact absurd (hb.symm.trans hb') (by decide)
  | awaitPull => exact hs
  | awaitPush => exact hs
  | prime hp =>
    have hn : s.src.length = n := by simpa only [State.Streams, hp] using hs
    refine (ht.streams_iff ?_).2 (balanced_prime h hp hn _)
    rcases (Machine.prime s).loopPhase_cases with e | e <;> simp [e]
  | search hp =>
    exact (ht.streams_iff (List.mem_cons_of_mem _ List.mem_cons_self)).2
      ((h.streams_iff (by simp [hp])).1 hs)
  | emitLit hp => exact streams_emitLiteral h hp ((h.streams_iff (by simp [hp])).1 hs)
  | emitMatch hp hlen => exact streams_emitMatch h hp hlen ((h.streams_iff (by simp [hp])).1 hs)
  | maintain hp =>
    refine (ht.streams_iff ?_).2
      (balanced_afterAdvance h hp ((h.streams_iff (by simp [hp])).1 hs))
    simp only [afterAdvance]
    split
    · rcases (advance s).dropRemaining.loopPhase_cases with e | e <;> simp [e]
    · decide
  | terminate hp => exact streams_terminated h hp (by simpa only [State.Streams, hp] using hs)

/-- A quiescent block that is asked nothing stands still (43_encoder.md R125). -/
theorem step_of_quiescent {s : State} (hi : s.issue = none) (ha : s.input.asksNothing)
    (hb : s.busy = false) : step s = .next s.nextInput := by
  obtain ⟨hreset, hstart⟩ := ha
  have hseq : s.nextInput.sequenced = none := by
    rw [← Option.isNone_iff_eq_none, ← Option.not_isSome, ← State.busy_of_sequenced]
    exact congrArg not hb
  simp [step, oneStep, hreset, hi, sequence, hseq, quiescent, hstart]

/-- Settles O45: a quiescent block stands still, and a busy one makes one of the sequencer's moves,
each of which keeps the stream. -/
theorem everyStepKeepsTheStream : Obligations.EveryStepKeepsTheStream := by
  intro n s t h hs ha hstep
  cases hb : s.busy with
  | false =>
    cases (step_of_quiescent h.noIssue ha hb).symm.trans hstep
    exact hs
  | true =>
    rcases step_cases h.noIssue hstep with ⟨hreset, -⟩ | ⟨-, m⟩
    · exact absurd (ha.1.symm.trans hreset) (by decide)
    · exact m.streams h.nextInput hs hb

end Sys2Proof.Machine
end

section
/-! PROOFS. The operations of the BitWriter (40_bitwriter.md R80 to R82), each by the lemma that says
what it can do, and the packing law of a whole sequence of bits (R83). -/

namespace Sys2Proof.Machine

/-! ### WRITEBIT and WRITEBITS -/

/-- The placed bit as R80 writes it. -/
theorem bitBelow_eq_shiftLeft (b : Bool) (n : BitVec 3) :
    bitBelow b n = (BitVec.ofBool b).zeroExtend 8 <<< (7 - n.toNat) := by
  have hb : b.toNat % 256 = b.toNat := Nat.mod_eq_of_lt (by cases b <;> decide)
  apply BitVec.eq_of_toNat_eq
  simp [bitBelow, hb]

theorem exec_writeBit (b : Bool) (s : State) : exec (.writeBit b) s = (writeBit b s).outcome := rfl

/-- Settles O8: the three cases of WRITEBIT, the guards of two of them excluding each other. -/
theorem writebitPlacesTheBitOrPushesTheByte : Obligations.WritebitPlacesTheBitOrPushesTheByte := by
  intro b s byte
  have hbyte : s.acc ||| bitBelow b s.nbits = byte := by rw [bitBelow_eq_shiftLeft]
  rw [exec_writeBit, s.room_one_iff, ← hbyte]
  rcases writeBit_cases b s with ⟨hn, e⟩ | ⟨hn, hr, e⟩ | ⟨hn, hr, e⟩ <;> rw [e]
  · exact ⟨fun _ => rfl, fun h => absurd h hn, fun h => absurd h hn⟩
  · exact ⟨fun h => absurd hn h, fun _ _ => rfl, fun _ h => absurd hr h⟩
  · exact ⟨fun h => absurd hn h, fun _ h => absurd (hr.symm.trans h) (by decide), fun _ _ => rfl⟩

/-- WRITEBITS within its domain writes the low bits of the value (R81; log 17). -/
theorem exec_writeBits {n : BitVec 5} (hn : n.toNat ≤ 16) (value : BitVec 16) (s : State) :
    exec (.writeBits n value) s = (writeStream (msbBits n.toNat value.toNat) s).outcome :=
  (if_pos hn).trans (congrArg Flow.outcome (writeField_eq _ _ s))

/-- Settles O9: the bits are those of the field, written as a stream. -/
theorem writebitsAppendsTheLowBits : Obligations.WritebitsAppendsTheLowBits := by
  intro n value s hn hc
  have hlen := length_msbBits n.toNat value.toNat
  refine ⟨msbBits n.toNat value.toNat, hlen, fun i hi => ?_, ?_⟩
  · rw [getElem?_msbBits hi, BitVec.testBit_toNat]
  · rw [exec_writeBits hn]
    simpa only [hlen] using writeStream_outcome (msbBits n.toNat value.toNat) hc

/-! ### FINISH -/

/-- A partial byte pushed as it stands has zeros behind the bits written (R82). -/
theorem State.accClean.bitsOfBytes_padded {s : State} (h : s.accClean) :
    bitsOfBytes (s.out ++ [s.acc]) = s.written ++ List.replicate (8 - s.nbits.toNat) false := by
  rw [State.written, List.append_assoc, ← h.drop_byteBits, List.take_append_drop, bitsOfBytes_append]
  simp [bitsOfBytes]

theorem exec_finish (s : State) : exec .finish s = (flush s).outcome := rfl

/-- Settles O10: the three cases of FINISH. -/
theorem finishPadsThePartialByte : Obligations.FinishPadsThePartialByte := by
  intro s hc
  rw [exec_finish, s.room_one_iff]
  rcases flush_cases s with ⟨hn, e⟩ | ⟨hn, hr, e⟩ | ⟨hn, hr, e⟩ <;> rw [e]
  · exact ⟨fun _ => rfl, fun h => absurd hn h, fun h => absurd hn h⟩
  · exact ⟨fun h => absurd h hn,
      fun _ _ => ⟨_, rfl, rfl, rfl, rfl, rfl, rfl, hc.bitsOfBytes_padded⟩, fun _ h => absurd hr h⟩
  · refine ⟨fun h => absurd h hn, fun _ h => absurd (hr.symm.trans h) (by decide),
      fun _ _ => ⟨_, rfl, rfl, rfl, rfl, ?_, ⟨[], List.append_nil _⟩, ?_⟩⟩
    · exact fun hroom => absurd (((State.room_one_iff _).1 hroom).symm.trans hr) (by decide)
    · rw [List.append_nil, State.written]
      exact ⟨_, rfl⟩

/-! ### A sequence of bits -/

/-- Stream bit `j` stands in byte `j / 8`, bit 7 first (20_memory.md R43). -/
theorem getElem?_bitsOfBytes (bytes : List Byte) (j : Nat) :
    (bitsOfBytes bytes)[j]? = bytes[j / 8]?.map fun b => b.getLsbD (7 - j % 8) := by
  induction bytes generalizing j with
  | nil => rfl
  | cons b bytes ih =>
    have hcons : bitsOfBytes (b :: bytes) = byteBits b ++ bitsOfBytes bytes := rfl
    rw [hcons]
    by_cases hj : j < 8
    · rw [List.getElem?_append_left (by simpa using hj), getElem?_byteBits hj,
        Nat.div_eq_of_lt hj, Nat.mod_eq_of_lt hj]
      rfl
    · have hdiv : j / 8 = (j - 8) / 8 + 1 := by omega
      have hmod : (j - 8) % 8 = j % 8 := by omega
      rw [List.getElem?_append_right (by simpa using hj), length_byteBits, ih, hdiv, hmod,
        List.getElem?_cons_succ]

theorem exists_byte_of_lt {bytes : List Byte} {j : Nat} (hj : j < 8 * bytes.length) :
    ∃ b, bytes[j / 8]? = some b ∧ (bitsOfBytes bytes)[j]? = some (b.getLsbD (7 - j % 8)) := by
  have hget : bytes[j / 8]? = some bytes[j / 8] := List.getElem?_eq_getElem (by omega)
  exact ⟨_, hget, by rw [getElem?_bitsOfBytes, hget, Option.map_some]⟩

/-- Bytes that are a bit list padded with zeros hold its bits, and zeros behind (R83). -/
theorem exists_byte_of_padded {bytes : List Byte} {bits : List Bool} {pad j : Nat}
    (h : bitsOfBytes bytes = bits ++ List.replicate pad false) (hj : j < 8 * bytes.length) :
    ∃ b, bytes[j / 8]? = some b ∧ b.getLsbD (7 - j % 8) = bits.getD j false := by
  obtain ⟨b, hget, hbit⟩ := exists_byte_of_lt hj
  refine ⟨b, hget, ?_⟩
  have hpadded : (bits ++ List.replicate pad false).getD j false = b.getLsbD (7 - j % 8) := by
    rw [← h, List.getD_eq_getElem?_getD, hbit, Option.getD_some]
  rw [← hpadded]
  by_cases hlt : j < bits.length
  · exact List.getD_append _ _ _ _ hlt
  · rw [List.getD_append_right _ _ _ _ (by omega), List.getD_eq_getElem?_getD,
      List.getElem?_getD_replicate_default_eq, List.getD_eq_default _ _ (by omega)]

/-- Before the partial byte, a bit written stands in a pushed byte (R83). -/
theorem State.getElem?_written_of_lt {s : State} {j : Nat} (hj : j < 8 * s.out.length) :
    ∃ b, s.out[j / 8]? = some b ∧ s.written[j]? = some (b.getLsbD (7 - j % 8)) := by
  rw [State.written, List.getElem?_append_left (by rw [length_bitsOfBytes]; exact hj)]
  exact exists_byte_of_lt hj

/-- Behind the pushed bytes, a bit written stands in `acc` (R83). -/
theorem State.getElem?_written_of_ge {s : State} {j : Nat} (hle : 8 * s.out.length ≤ j)
    (hlt : j < s.written.length) : s.written[j]? = some (s.acc.getLsbD (7 - j % 8)) := by
  have hn := s.nbits.isLt
  rw [s.length_written] at hlt
  have hmod : j - 8 * s.out.length = j % 8 := by omega
  rw [State.written, List.getElem?_append_right (by rw [length_bitsOfBytes]; exact hle),
    length_bitsOfBytes, hmod, List.getElem?_take_of_lt (by omega), getElem?_byteBits (by omega)]

theorem runOps_append_of_writeStream {bits : List Bool} {s t : State} (is : List Instr)
    (h : writeStream bits s = .completed t) :
    runOps (bits.map .writeBit ++ is) s = runOps is t := by
  induction bits generalizing s with
  | nil => cases h; rfl
  | cons b bits ih =>
    rw [writeStream] at h
    cases hb : writeBit b s with
    | abandoned u => rw [hb] at h; cases h
    | completed u =>
      rw [hb] at h
      rw [List.map_cons, List.cons_append, runOps, exec_writeBit, hb]
      exact ih h

/-- Without OUT_CAP the sink refuses nothing (00_scope.md R4). -/
theorem State.sinkRefuses_of_uncapped {s : State} (h : s.outCap = none) : s.sinkRefuses = false := by
  rw [State.sinkRefuses, h]

theorem writeStream_of_uncapped (bits : List Bool) {s : State} (hc : s.accClean)
    (hcap : s.outCap = none) : ∃ t, writeStream bits s = .completed t ∧ WroteAll bits s t := by
  rcases writeStream_cases bits s hc with h | ⟨t, -, w⟩
  · exact h
  · have ht : t.outCap = none := by rw [w.frame]; exact hcap
    exact absurd (w.full.symm.trans (State.sinkRefuses_of_uncapped ht)) (by decide)

theorem flush_of_uncapped {s : State} (hcap : s.outCap = none) : ∃ t, flush s = .completed t := by
  rcases flush_cases s with ⟨-, e⟩ | ⟨-, -, e⟩ | ⟨-, hr, -⟩
  · exact ⟨_, e⟩
  · exact ⟨_, e⟩
  · exact absurd (hr.symm.trans (State.sinkRefuses_of_uncapped hcap)) (by decide)

/-- Settles O11: the bits written are the sequence itself, split by `written` into pushed bytes and
`acc`, and FINISH completes the last byte with zeros. -/
theorem packingLaw : Obligations.PackingLaw := by
  intro bits s hout hlen hacc hnbits hcap
  have hc : s.accClean := by simp [State.accClean, hacc]
  have hcount : s.sinkCounted := ⟨by simp [hout, hlen], by simp [hcap]⟩
  obtain ⟨u, hu, w⟩ := writeStream_of_uncapped bits hc hcap
  obtain ⟨t, ht⟩ := flush_of_uncapped (s := u) (by rw [w.frame]; exact hcap)
  obtain ⟨pad, hpad, hbits⟩ := flush_pads w.clean ht
  have hwritten : u.written = bits := by
    rw [w.written]
    simp [State.written, hout, hnbits, bitsOfBytes]
  have hulen := u.length_written
  have htlen := congrArg List.length hbits
  rw [hwritten] at hulen hbits htlen
  rw [length_bitsOfBytes, List.length_append, List.length_replicate] at htlen
  have hulast := u.nbits.isLt
  have htcount : t.outLen = t.out.length := by
    have husink := writeStream_sinkCounted bits hcount
    rw [hu] at husink
    have htsink := flush_sinkCounted husink
    rw [Flow.state_completed, ht] at htsink
    exact htsink.1
  have hwhole : u.out.length = bits.length / 8 := by omega
  refine ⟨u, t, ?_, ?_, hwhole, by omega, w.clean, ?_, ?_, by omega, htcount.symm, ?_⟩
  · simpa [runOps] using runOps_append_of_writeStream [] hu
  · rw [runOps_append_of_writeStream _ hu, runOps, exec_finish, ht]
    rfl
  · intro j hj
    rw [← hwhole] at hj
    simpa only [hwritten] using State.getElem?_written_of_lt hj
  · intro j hle hlt
    rw [← hwhole] at hle
    simpa only [hwritten] using State.getElem?_written_of_ge hle (hwritten.symm ▸ hlt)
  · exact fun j hj => exists_byte_of_padded hbits (htcount ▸ hj)

end Sys2Proof.Machine
end

section
/-! PROOFS. PRIME, BYTEAT and ADVANCE on the window, byte by byte (41_window.md R90 to R92). -/

namespace Sys2Proof.Machine

/-! ### BYTEAT -/

/-- Settles O16: `wrap` is the address modulo 8192. -/
theorem byteatReadsTheWrappedSlot : Obligations.ByteatReadsTheWrappedSlot :=
  fun addr _ => ⟨wrap addr.toNat, toNat_wrap _, rfl⟩

/-! ### PRIME -/

theorem primeLoop_of_eoi (k i : Nat) {s : State} (hs : s.src = []) :
    primeLoop (k + 1) i s = (i, { s with srcReq := false }) := by
  simp [primeLoop, pull, hs]

theorem primeLoop_of_byte (k i : Nat) {s : State} {b : Byte} {rest : List Byte}
    (hs : s.src = b :: rest) :
    primeLoop (k + 1) i s = primeLoop k (i + 1)
      (State.writeW { s with srcReq := false, src := rest } (slotAt s.dictHead i) b) := by
  simp [primeLoop, pull, hs]

/-- PRIME's loop writes no slot but those of the bytes it pulls (R90). -/
theorem readW_primeLoop_of_ne (k i : Nat) {s : State} {a : Addr}
    (ha : ∀ j, j < min k s.src.length → a ≠ slotAt s.dictHead (i + j)) :
    (primeLoop k i s).2.readW a = s.readW a := by
  induction k generalizing i s with
  | zero => rfl
  | succ k ih =>
    cases hs : s.src with
    | nil => rw [primeLoop_of_eoi k i hs]; rfl
    | cons b rest =>
      rw [hs, List.length_cons] at ha
      have first : a ≠ slotAt s.dictHead i := ha 0 (by omega)
      rw [primeLoop_of_byte k i hs, ih, State.readW_writeW, if_neg first]
      · rfl
      · intro j hj
        have hne := ha (j + 1) (by simp at hj; omega)
        rwa [← Nat.add_assoc, Nat.add_right_comm] at hne

/-- PRIME's loop stores the bytes it pulls in order, as long as it does not come round to its first
slot (R90). -/
theorem readW_primeLoop (k i : Nat) {s : State} (hk : i + k ≤ 8192) {j : Nat}
    (hj : j < min k s.src.length) :
    s.src[j]? = some ((primeLoop k i s).2.readW (slotAt s.dictHead (i + j))) := by
  induction k generalizing i s j with
  | zero => omega
  | succ k ih =>
    cases hs : s.src with
    | nil => simp [hs] at hj
    | cons b rest =>
      rw [hs, List.length_cons] at hj
      rw [primeLoop_of_byte k i hs]
      cases j with
      | zero =>
        have later : ∀ j, j < min k rest.length →
            slotAt s.dictHead i ≠ slotAt s.dictHead (i + 1 + j) := fun j hj => by
          rw [ne_eq, slotAt_eq_iff]
          omega
        rw [readW_primeLoop_of_ne k (i + 1) later, State.readW_writeW]
        exact congrArg some (if_pos rfl).symm
      | succ j =>
        rw [show i + (j + 1) = i + 1 + j by omega, List.getElem?_cons_succ]
        exact ih (i + 1) (s := State.writeW { s with srcReq := false, src := rest } _ b) (by omega)
          (by simp; omega)

theorem prime_readW (s : State) {i : Nat} (hi : i < min 18 s.src.length) :
    s.src[i]? = some ((prime s).readW (slotAt s.dictHead i)) := by
  have stored := readW_primeLoop Config.maxMatch 0 (by decide) hi
  rwa [Nat.zero_add] at stored

theorem prime_readW_of_ne {s : State} {a : Addr}
    (ha : ∀ i, i < min 18 s.src.length → a ≠ slotAt s.dictHead i) :
    (prime s).readW a = s.readW a :=
  readW_primeLoop_of_ne Config.maxMatch 0 fun i hi => by rw [Nat.zero_add]; exact ha i hi

/-- Settles O17, by what PRIME's loop counts, pulls, writes and leaves. -/
theorem primeFillsTheLookahead : Obligations.PrimeFillsTheLookahead := by
  intro s
  have frame := prime_frame s
  rw [prime_srcReq] at frame
  exact ⟨prime s, rfl, prime_waitingBytes s, prime_src s, fun _ => prime_readW s,
    fun _ => prime_readW_of_ne, frame⟩

/-! ### ADVANCE: the window, the source and the counts -/

@[simp] theorem State.dropWaiting_freeIndex (s : State) :
    s.dropWaiting.freeIndex = if s.waitingBytes = 0 then s.freeIndex + 1 else s.freeIndex := by
  unfold State.dropWaiting
  split <;> rfl

/-- ADVANCE at EOI leaves the window and counts the lookahead down (R92 steps 2 and 5). -/
theorem advance_eoi {s : State} (hs : s.src = []) :
    (advance s).window = s.window ∧ (advance s).src = [] ∧ (advance s).srcReq = false ∧
      (advance s).waitingBytes = countedDown s.waitingBytes s.freeIndex ∧
      (advance s).freeIndex = if s.waitingBytes = 0 then s.freeIndex + 1 else s.freeIndex := by
  obtain ⟨-, hr, h⟩ | ⟨b, rest, hb, -⟩ := s.refilled_cases
  · have passed : s.refilled.passCursor.window = s.window ∧ s.refilled.passCursor.src = [] ∧
        s.refilled.passCursor.srcReq = false ∧
        s.refilled.passCursor.waitingBytes = s.waitingBytes ∧
        s.refilled.passCursor.freeIndex = s.freeIndex := by
      rw [State.passCursor_frame, hr, s.evict_frame]
      exact ⟨rfl, hs, rfl, rfl, rfl⟩
    obtain ⟨hwin, hsrc, hreq, hwait, hfree⟩ := passed
    refine ⟨?_, ?_, ?_, ?_, ?_⟩ <;> rw [h]
    · rw [State.dropWaiting_frame]; exact hwin
    · rw [State.dropWaiting_frame]; exact hsrc
    · rw [State.dropWaiting_frame]; exact hreq
    · rw [State.dropWaiting_waiting, hwait, hfree]
    · rw [State.dropWaiting_freeIndex, hwait, hfree]
  · cases hs.symm.trans hb

/-- ADVANCE with a byte from the source puts it into the evicted slot (R92 step 2). -/
theorem advance_byte {s : State} {b : Byte} {rest : List Byte} (hs : s.src = b :: rest) :
    (advance s).window = s.window.write s.evicted.toNat b ∧ (advance s).src = rest ∧
      (advance s).srcReq = false ∧ (advance s).waitingBytes = s.waitingBytes ∧
      (advance s).freeIndex = s.freeIndex := by
  obtain ⟨hnil, -⟩ | ⟨b', rest', hb, hr, h⟩ := s.refilled_cases
  · cases hs.symm.trans hnil
  · cases hs.symm.trans hb
    rw [h, State.passCursor_frame, hr, s.evict_frame]
    exact ⟨rfl, rfl, rfl, rfl, rfl⟩

theorem advance_readW_of_eoi {s : State} (hs : s.src = []) (a : Addr) :
    (advance s).readW a = s.readW a := by
  obtain ⟨hwin, -⟩ := advance_eoi hs
  rw [State.readW, hwin, State.readW]

theorem advance_readW_of_byte {s : State} {b : Byte} {rest : List Byte} (hs : s.src = b :: rest)
    (a : Addr) : (advance s).readW a = if a = s.evicted then b else s.readW a := by
  obtain ⟨hwin, -⟩ := advance_byte hs
  rw [State.readW, hwin, ← State.writeW_window]
  exact s.readW_writeW s.evicted a b

theorem advance_srcReq (s : State) : (advance s).srcReq = false := by
  cases hs : s.src with
  | nil =>
    obtain ⟨-, -, hreq, -⟩ := advance_eoi hs
    exact hreq
  | cons b rest =>
    obtain ⟨-, -, hreq, -⟩ := advance_byte hs
    exact hreq

/-- With a lookahead ADVANCE draws no free value. -/
theorem advance_freeIndex {s : State} (hw : s.waitingBytes ≠ 0) :
    (advance s).freeIndex = s.freeIndex := by
  cases hs : s.src with
  | nil =>
    obtain ⟨-, -, -, -, hfree⟩ := advance_eoi hs
    rw [hfree, if_neg hw]
  | cons b rest =>
    obtain ⟨-, -, -, -, hfree⟩ := advance_byte hs
    exact hfree

/-- Settles O19: at EOI the count is counted down at 0, a free value of its range (log 15). -/
theorem advanceWithoutLookaheadStillRuns : Obligations.AdvanceWithoutLookaheadStillRuns := by
  intro s hw hs
  obtain ⟨hwin, hsrc, hreq, hwait, hfree⟩ := advance_eoi hs
  have range : (advance s).waitingBytes.toNat ≤ 18 := by
    rw [hwait]
    exact ((countedDown_cases s.waitingBytes s.freeIndex).resolve_left fun h => h.1 hw).2
  have frame := advance_onlyDictionary s
  rw [OnlyDictionary, hwin, hsrc, ← hs, hreq, hfree, if_pos hw] at frame
  exact ⟨advance s, rfl, advance_dictHead s, range, advance_readW_of_eoi hs, frame⟩

/-! ### ADVANCE: the tables -/

/-- Every entry of the three tables of the index reads as before. -/
def SameTables (s t : State) : Prop :=
  (∀ k, t.readHash k = s.readHash k) ∧ (∀ a, t.readPrev a = s.readPrev a) ∧
    ∀ a, t.readNext a = s.readNext a

theorem SameTables.trans {s t u : State} (h : SameTables s t) (k : SameTables t u) :
    SameTables s u := by
  obtain ⟨hhash, hprev, hnext⟩ := h
  obtain ⟨khash, kprev, knext⟩ := k
  exact ⟨fun l => (khash l).trans (hhash l), fun a => (kprev a).trans (hprev a),
    fun a => (knext a).trans (hnext a)⟩

theorem SameTables.insertAt {s t : State} (h : SameTables s t) (k : Key) (a : Addr) :
    SameTables (s.insertAt k a) (t.insertAt k a) := by
  obtain ⟨hhash, hprev, hnext⟩ := h
  exact ⟨fun l => by simp only [State.readHash_insertAt, hhash],
    fun b => by simp only [State.readPrev_insertAt, hhash, hprev],
    fun b => by simp only [State.readNext_insertAt, hhash, hnext]⟩

theorem State.refilled_sameTables (s : State) : SameTables s.evict s.refilled := by
  rcases s.refilled_cases with ⟨-, h, -⟩ | ⟨b, rest, -, h, -⟩ <;> rw [h] <;>
    exact ⟨fun _ => rfl, fun _ => rfl, fun _ => rfl⟩

/-- Moving the cursor touches no table (R92 step 4). -/
theorem State.passCursor_sameTables (s : State) :
    SameTables (if s.dictHead = Config.null then s
      else s.insertAt (s.keyOf s.dictHead.toNat) s.dictHead) s.passCursor :=
  ⟨fun _ => rfl, fun _ => rfl, fun _ => rfl⟩

/-- The refill lies 18 ahead, so the cursor's key is that of the window before it (R92, R153). -/
theorem State.keyOf_dictHead_refilled (s : State) :
    s.refilled.keyOf s.dictHead.toNat = s.keyOf s.dictHead.toNat := by
  refine State.keyOf_congr fun i hi => State.readW_refilled_of_ne ?_
  rw [State.evicted, ne_eq, slotAt_eq_iff]
  simp only [Config.maxMatch]
  omega

/-- The tables after ADVANCE: REMOVE of the slot ahead, then INSERT of the cursor (R92 steps 1 and 3). -/
def State.reindexed (s : State) : State :=
  if s.dictHead = 0 then s.evict else s.evict.insertAt (s.keyOf s.dictHead.toNat) s.dictHead

theorem advance_sameTables (s : State) : SameTables s.reindexed (advance s) := by
  have indexed : SameTables s.reindexed (if s.refilled.dictHead = Config.null then s.refilled
      else s.refilled.insertAt (s.refilled.keyOf s.refilled.dictHead.toNat) s.refilled.dictHead) := by
    rw [s.dictHead_refilled, s.keyOf_dictHead_refilled, State.reindexed]
    split
    · exact s.refilled_sameTables
    · exact s.refilled_sameTables.insertAt _ _
  obtain ⟨-, hhash, hprev, hnext⟩ := advance_memories s
  exact (indexed.trans s.refilled.passCursor_sameTables).trans ⟨hhash, hprev, hnext⟩

theorem exec_remove {a : Addr} (ha : a ≠ 0) (k : Key) (s : State) :
    exec (.remove k a) s = .next (s.removeAt k a) :=
  if_neg ha

theorem exec_insert {a : Addr} (ha : a ≠ 0) (k : Key) (s : State) :
    exec (.insert k a) s = .next (s.insertAt k a) :=
  if_neg ha

/-- REMOVE of the slot ahead, performed alone, is ADVANCE's first step. -/
theorem runOps_evict (s : State) (is : List Instr) :
    runOps ((if s.evicted = 0 then [] else [.remove (s.keyOf s.evicted.toNat) s.evicted]) ++ is) s =
      runOps is s.evict := by
  unfold State.evict
  by_cases h0 : s.evicted = 0
  · rw [if_pos h0, if_pos h0, List.nil_append]
  · rw [if_neg h0, if_neg h0]
    simp only [List.cons_append, List.nil_append, runOps, exec_remove h0]

theorem runOps_reindexed (s : State) :
    runOps ((if s.evicted = 0 then [] else [.remove (s.keyOf s.evicted.toNat) s.evicted]) ++
      if s.dictHead = 0 then [] else [.insert (s.keyOf s.dictHead.toNat) s.dictHead]) s =
      .next s.reindexed := by
  rw [runOps_evict, State.reindexed]
  by_cases h0 : s.dictHead = 0
  · rw [if_pos h0, if_pos h0, runOps]
  · rw [if_neg h0, if_neg h0]
    simp only [runOps, exec_insert h0]

/-- Settles O18: the tables are those of the two index operations, the window and the counts those of
the refill. -/
theorem advancePerformsItsFiveSteps : Obligations.AdvancePerformsItsFiveSteps := by
  intro s hw
  obtain ⟨hhash, hprev, hnext⟩ := advance_sameTables s
  have frame := advance_onlyDictionary s
  rw [OnlyDictionary, advance_srcReq, advance_freeIndex hw] at frame
  refine ⟨advance s, s.reindexed, rfl, runOps_reindexed s, hhash, hprev, hnext, fun b rest hs => ?_,
    fun hs => ?_, advance_dictHead s, frame⟩
  · obtain ⟨-, hsrc, -, hwait, -⟩ := advance_byte hs
    exact ⟨hsrc, hwait, advance_readW_of_byte hs⟩
  · obtain ⟨-, hsrc, -, hwait, -⟩ := advance_eoi hs
    exact ⟨hsrc, hwait.trans (if_neg hw), advance_readW_of_eoi hs⟩

end Sys2Proof.Machine
end

section
/-! PROOFS. Every operation is issued at its precondition, and no step stops (43_encoder.md R120, R124). -/

namespace Sys2Proof.Machine

/-! ### Preconditions -/

/-- The contract of a phase is the precondition of its operation (41_window.md R94; 43_encoder.md R112,
R116 to R119). -/
theorem precondition_of_sequenced {s : State} {i : Instr} (h : s.Inv) (hi : s.sequenced = some i) :
    precondition i s = true := by
  rcases State.sequenced_cases hi with ⟨hp, rfl⟩ | ⟨hp, rfl⟩ | ⟨hp, hlen, rfl⟩ | ⟨hp, hlen, rfl⟩ |
    ⟨hp, rfl⟩ | ⟨hp, rfl⟩
  · obtain ⟨head, -⟩ := h.contract_prime hp
    exact beq_iff_eq.2 head
  · obtain ⟨hw, -⟩ := h.contract_search hp
    exact bne_iff_ne.2 hw
  · obtain ⟨hw, -⟩ := h.contract_emit hp
    exact Bool.and_eq_true_iff.2 ⟨decide_eq_true hlen, bne_iff_ne.2 hw⟩
  · obtain ⟨-, -, -, hle, haddr⟩ := h.contract_emit hp
    have hmin : 3 ≤ s.bestLen := BitVec.not_lt.1 hlen
    have hne : s.bestAddr ≠ 0 := haddr fun h0 => hlen (by rw [h0]; decide)
    exact Bool.and_eq_true_iff.2
      ⟨Bool.and_eq_true_iff.2 ⟨decide_eq_true hmin, decide_eq_true hle⟩, bne_iff_ne.2 hne⟩
  · exact bne_iff_ne.2 (h.waiting_maintain hp)
  · obtain ⟨hw, -⟩ := h.contract_terminate hp
    exact beq_iff_eq.2 hw

/-! ### No step stops -/

/-- No operation of the sequencer is refused: each is a total function of the state. -/
theorem exec_completes_of_sequenced {s : State} {i : Instr} (hi : s.sequenced = some i) :
    ∃ t, exec i s = .next t := by
  rcases State.sequenced_cases hi with ⟨-, rfl⟩ | ⟨-, rfl⟩ | ⟨-, -, rfl⟩ | ⟨-, -, rfl⟩ | ⟨-, rfl⟩ |
    ⟨-, rfl⟩ <;> exact ⟨_, rfl⟩

theorem afterOperation_completes (p : Phase) (t : State) : ∃ u, afterOperation p t = .next u := by
  unfold afterOperation
  split
  · exact ⟨t, rfl⟩
  · cases p <;> exact ⟨_, rfl⟩

theorem quiescent_completes (inp : PortInput) (s : State) : ∃ t, quiescent inp s = .next t := by
  unfold quiescent
  split
  · exact ⟨s, rfl⟩
  · simp only [exec, execStart]
    split <;> exact ⟨_, rfl⟩

theorem sequence_completes (inp : PortInput) (s : State) : ∃ t, sequence inp s = .next t := by
  unfold sequence
  split
  · exact quiescent_completes inp s
  next i hi =>
    unfold performPhase
    split
    next t _ => exact ⟨t, rfl⟩
    next =>
      obtain ⟨v, hv⟩ := exec_completes_of_sequenced hi
      rw [hv]
      exact afterOperation_completes s.phase v

/-- A step stops at no state without a presented word (log 2). -/
theorem step_completes {s : State} (hi : s.issue = none) : ∃ t, step s = .next t := by
  cases hr : s.input.reset with
  | true => exact ⟨powerOn s.nextInput, by simp [step, oneStep, hr]⟩
  | false =>
    obtain ⟨t, ht⟩ := sequence_completes s.input s.nextInput
    exact ⟨t, by simpa [step, oneStep, hr, hi] using ht⟩

/-- Settles O41: the contract of each phase is the precondition of its operation, and no branch of a
step is refused. -/
theorem operationsAreIssuedAtTheirPreconditions :
    Obligations.OperationsAreIssuedAtTheirPreconditions :=
  fun _ h => ⟨fun _ => precondition_of_sequenced h, step_completes h.noIssue⟩

end Sys2Proof.Machine
end

section
/-! PROOFS. The window holds the input (41_window.md R95), kept by each move of an encode. -/

namespace Sys2Proof.Machine

/-! ### What the window holds, by position of the input -/

/-- The byte of the input at position `p` stands in slot `p + 1`, for the last 8174 positions consumed
and the lookahead (41_window.md R95 (c), (d)). -/
def State.holds (x : List Byte) (s : State) : Prop :=
  ∀ p, s.consumed x.length ≤ p + 8174 → p < s.consumed x.length + s.waitingBytes.toNat →
    x[p]? = some (s.readW (wrap (p + 1)))

/-- The slots named from the cursor are the slots named by position: `holds` is the lookahead and the
past of `State.Tracks`. -/
theorem State.holds_iff {x : List Byte} {s : State}
    (cursor : s.dictHead = wrap (1 + s.consumed x.length)) :
    s.holds x ↔
      (∀ i, i < s.waitingBytes.toNat →
        x[s.consumed x.length + i]? = some (s.readW (slotAt s.dictHead i))) ∧
      ∀ d, 1 ≤ d → d ≤ min (s.consumed x.length) 8174 →
        x[s.consumed x.length - d]? = some (s.readW (slotAt s.dictHead (8192 - d))) := by
  have ahead : ∀ i, slotAt s.dictHead i = wrap (s.consumed x.length + i + 1) := fun i => by
    rw [cursor, ← BitVec.toNat_inj, toNat_slotAt, toNat_wrap, toNat_wrap]
    omega
  have behind : ∀ d, d ≤ min (s.consumed x.length) 8174 →
      slotAt s.dictHead (8192 - d) = wrap (s.consumed x.length - d + 1) := fun d hd => by
    rw [ahead, ← BitVec.toNat_inj, toNat_wrap, toNat_wrap]
    omega
  constructor
  · intro h
    refine ⟨fun i hi => ?_, fun d h1 hd => ?_⟩
    · rw [ahead]
      exact h _ (by omega) (by omega)
    · rw [behind d hd]
      exact h _ (by omega) (by omega)
  · rintro ⟨lookahead, past⟩ p hle hlt
    by_cases hp : s.consumed x.length ≤ p
    · obtain ⟨i, rfl⟩ := Nat.exists_eq_add_of_le hp
      rw [← ahead]
      exact lookahead i (by omega)
    · have hd := past (s.consumed x.length - p) (by omega) (by omega)
      rwa [behind _ (by omega), Nat.sub_sub_self (by omega)] at hd

theorem State.Tracks.holds {x : List Byte} {s : State} (h : s.Tracks x) : s.holds x :=
  (State.holds_iff h.cursor).2 ⟨h.lookahead, h.past⟩

/-! ### Moves that leave the window alone -/

/-- What the window holds is a matter of the window, the cursor, the lookahead and the source. -/
theorem State.Tracks.congr {x : List Byte} {s t : State} (h : s.Tracks x)
    (window : t.window = s.window) (head : t.dictHead = s.dictHead)
    (waiting : t.waitingBytes = s.waitingBytes) (src : t.src = s.src)
    (phase : t.phase = .prime → s.phase = .prime) : t.Tracks x := by
  have consumed : t.consumed x.length = s.consumed x.length := by
    rw [State.consumed, waiting, src, State.consumed]
  have read : ∀ a, t.readW a = s.readW a := fun a => by rw [State.readW, window, State.readW]
  constructor
  case total => rw [waiting, src]; exact h.total
  case begins => rw [src]; exact fun hp => h.begins (phase hp)
  case rest => rw [src, consumed, waiting]; exact h.rest
  case cursor => rw [head, consumed]; exact h.cursor
  case lookahead => simpa only [waiting, consumed, read, head] using h.lookahead
  case past => simpa only [consumed, read, head] using h.past

theorem OnlyEmission.tracks {x : List Byte} {s t : State} (f : OnlyEmission s t) (h : s.Tracks x)
    (hp : t.phase ≠ .prime) : t.Tracks x := by
  rw [f] at hp ⊢
  exact h.congr rfl rfl rfl rfl fun hprime => absurd hprime hp

/-- A part that writes bits and then leaves for another phase than PRIME ends in that phase, or in
FAULT. -/
theorem Flow.WritesOnly.phase_andThen_ne_prime {s : State} {f : Flow} (hf : f.WritesOnly s)
    {k : State → State} (hk : ∀ t, (k t).phase ≠ .prime) :
    (f.andThen fun t => .completed (k t)).state.phase ≠ .prime := by
  cases f with
  | completed t => exact hk t
  | abandoned t =>
    rw [Flow.andThen_abandoned, Flow.state_abandoned, hf.2]
    decide

theorem owe_phase_ne_prime (bs : List Bool) (n : Count) (s : State) :
    ((writeStream bs s).andThen (owe n)).state.phase ≠ .prime :=
  (writeStream_writesOnly bs s).phase_andThen_ne_prime
    (k := fun t => { t with remaining := n, phase := .maintain }) fun _ => nofun

theorem terminated_phase_ne_prime (s : State) : (terminated s).state.phase ≠ .prime := by
  rw [terminated, writeLong_eq]
  exact ((writeStream_writesOnly _ s).andThen flush_writesOnly).phase_andThen_ne_prime
    (k := fun t => { t with phase := .done }) fun _ => nofun

/-! ### PRIME and ADVANCE -/

theorem State.loopPhase_ne_prime (s : State) : s.loopPhase ≠ .prime := by
  rcases s.loopPhase_cases with h | h <;> rw [h] <;> decide

/-- PRIME puts the first bytes of the input into the slots from 1 on (41_window.md R90). -/
theorem State.Tracks.prime {x : List Byte} {s : State} (h : s.Tracks x) (hi : s.Inv)
    (hp : s.phase = .prime) {p : Phase} (hne : p ≠ .prime) :
    State.Tracks x { prime s with phase := p } := by
  obtain ⟨head, hwait, -⟩ := hi.contract_prime hp
  have whole : s.src = x := by
    have none : s.consumed x.length = 0 := by
      rw [State.consumed, h.begins hp]
      omega
    simpa [none, hwait] using h.rest
  have waiting := prime_waitingBytes s
  have src := prime_src s
  have consumed := consumed_prime (h.begins hp) p
  have head' : (Machine.prime s).dictHead = wrap (1 + 0) := by
    rw [prime_frame]
    exact head
  rw [whole] at waiting src
  constructor
  case total =>
    show (Machine.prime s).waitingBytes.toNat + (Machine.prime s).src.length ≤ x.length
    rw [waiting, src, List.length_drop]
    omega
  case begins => exact fun hprime => absurd hprime hne
  case rest =>
    rw [consumed]
    show (Machine.prime s).src = x.drop (0 + (Machine.prime s).waitingBytes.toNat)
    rw [src, waiting, Nat.zero_add, List.drop_eq_drop_iff]
    omega
  case cursor => rw [consumed]; exact head'
  case lookahead =>
    intro i hi
    rw [consumed, Nat.zero_add]
    have stored := prime_readW s (i := i) (by rw [whole]; exact waiting ▸ hi)
    rw [whole] at stored
    show x[i]? = some ((Machine.prime s).readW (slotAt (Machine.prime s).dictHead i))
    rw [head', stored, head]
    rfl
  case past =>
    intro d h1 hd
    rw [consumed] at hd
    omega

/-- ADVANCE moves what the window holds on by one position: the slot 18 ahead belongs to no position
held before, and takes the next one (41_window.md R92, R95). -/
theorem State.holds.advance {x : List Byte} {s : State} (h : s.holds x)
    (total : s.waitingBytes.toNat + s.src.length ≤ x.length)
    (rest : s.src = x.drop (s.consumed x.length + s.waitingBytes.toNat))
    (cursor : s.dictHead = wrap (1 + s.consumed x.length))
    (hw : s.waitingBytes ≠ 0) (hmax : s.waitingBytes.toNat ≤ 18) (hex : s.exhausted) :
    (advance s).holds x := by
  intro p hle hlt
  rw [consumed_advance hw total] at hle hlt
  have hev : s.evicted = wrap (s.consumed x.length + 18 + 1) := by
    rw [State.evicted, cursor, ← BitVec.toNat_inj, toNat_slotAt, toNat_wrap, toNat_wrap,
      Config.maxMatch]
    omega
  rcases (advance_counts hw).2 with ⟨hs, -, hc⟩ | ⟨b, bs, hs, -, hc⟩
  · rw [advance_readW_of_eoi hs]
    exact h p (by omega) (by omega)
  · have full : s.waitingBytes.toNat = 18 := by
      by_contra hne
      have hnil := hex (by rw [Config.maxMatch]; omega)
      cases hs.symm.trans hnil
    rw [hc, full] at hlt
    rw [advance_readW_of_byte hs]
    by_cases hnew : p = s.consumed x.length + 18
    · have next := congrArg (·[0]?) (hs.symm.trans rest)
      rw [full] at next
      rw [hnew, if_pos hev.symm]
      simpa using next.symm
    · have old : wrap (p + 1) ≠ s.evicted := by
        rw [hev, ne_eq, ← BitVec.toNat_inj, toNat_wrap, toNat_wrap]
        omega
      rw [if_neg old]
      exact h p (by omega) (by omega)

theorem State.Tracks.advance {x : List Byte} {s : State} (h : s.Tracks x) (hi : s.Inv)
    (hp : s.phase = .maintain) : (advance s).Tracks x := by
  have hw := hi.waiting_maintain hp
  have hconsumed := consumed_advance hw h.total
  have cursor : (Machine.advance s).dictHead = wrap (1 + (Machine.advance s).consumed x.length) := by
    rw [advance_dictHead, hconsumed, h.cursor, ← BitVec.toNat_inj, toNat_slotAt, toNat_wrap,
      toNat_wrap]
    omega
  obtain ⟨-, -, hex⟩ := hi.contract_maintain hp
  obtain ⟨lookahead, past⟩ := (State.holds_iff cursor).1
    (h.holds.advance h.total h.rest h.cursor hw hi.ranges.1 hex)
  refine ⟨(advance_total hw).trans h.total, fun hprime => ?begins, ?rest, cursor, lookahead, past⟩
  case begins =>
    rw [advance_phase, hp] at hprime
    cases hprime
  case rest =>
    have hrest := h.rest
    rw [hconsumed]
    rcases (advance_counts hw).2 with ⟨hs, hs', hc⟩ | ⟨b, bs, hs, hs', hc⟩
    · rw [hs] at hrest
      rw [hs', hrest]
      congr 1
      omega
    · rw [hs] at hrest
      rw [hs', hc, Nat.add_right_comm, ← List.tail_drop, ← hrest, List.tail_cons]

theorem State.Tracks.afterAdvance {x : List Byte} {s : State} (h : s.Tracks x) :
    (afterAdvance s).Tracks x := by
  obtain ⟨waiting, src⟩ := afterAdvance_counts s
  refine h.congr (afterAdvance_keepsMemories s).window ?_ waiting src fun hprime => ?_
  · rw [Machine.afterAdvance, s.dropRemaining_frame]
  · simp only [Machine.afterAdvance] at hprime
    split at hprime
    · exact absurd hprime (State.loopPhase_ne_prime _)
    · cases hprime

/-! ### Each move -/

/-- Every move of an encode keeps what the window holds: PRIME fills it, ADVANCE moves it on, the
others leave it alone. -/
theorem Moves.tracks {x : List Byte} {s t : State} (m : Moves s t) (hi : s.Inv) (h : s.Tracks x)
    (hb : s.busy = true) : t.Tracks x := by
  cases m with
  | rest hb' => exact absurd (hb.symm.trans hb') (by decide)
  | start hb' => exact absurd (hb.symm.trans hb') (by decide)
  | awaitPull => exact h.congr rfl rfl rfl rfl id
  | awaitPush => exact h.congr rfl rfl rfl rfl id
  | prime hp => exact h.prime hi hp (State.loopPhase_ne_prime _)
  | search => exact h.congr rfl rfl rfl rfl nofun
  | emitLit =>
    refine (emitLiteral_onlyEmission s).tracks h ?_
    rw [emitLiteral, writeLiteral_eq]
    exact owe_phase_ne_prime _ _ s
  | emitMatch _ hlen =>
    rw [Machine.emitMatch, if_neg hlen, writeLong_eq]
    exact (owe_onlyEmission _ _ s).tracks h (owe_phase_ne_prime _ _ s)
  | maintain hp => exact (h.advance hi hp).afterAdvance
  | terminate => exact (terminated_onlyEmission s).tracks h (terminated_phase_ne_prime s)

/-- Settles O42: an encode's step is a move of the sequencer, and each move keeps what the window
holds. -/
theorem everyStepKeepsTheWindowContent : Obligations.EveryStepKeepsTheWindowContent := by
  intro x s t hi h hb hr hstep
  rcases step_cases hi.noIssue hstep with ⟨hreset, -⟩ | ⟨-, m⟩
  · exact absurd (hr.symm.trans hreset) (by decide)
  · exact m.tracks hi.nextInput (h.congr rfl rfl rfl rfl id) hb

end Sys2Proof.Machine
end

section
/-! PROOFS. The operations of the MatchIndex (42_matchindex.md R100 to R103): the key bit by bit, the
links entry by entry, and what they do to a chain. -/

namespace Sys2Proof.Machine

/-! ### KEYOF -/

/-- Bit by bit: the low byte is the third, the high byte the second, and the first lies across both
from bit 4 on. -/
theorem State.getLsbD_keyOf (s : State) (n i : Nat) :
    (s.keyOf n).getLsbD i =
      ((if i < 8 then (s.byteAt (n + 2)).getLsbD i else (s.byteAt (n + 1)).getLsbD (i - 8)) ^^
        (decide (4 ≤ i) && (s.byteAt n).getLsbD (i - 4))) := by
  simp only [State.keyOf, BitVec.getLsbD_xor, BitVec.getLsbD_append, BitVec.getLsbD_shiftLeft,
    BitVec.truncate_eq_setWidth, BitVec.getLsbD_setWidth]
  congr 1
  by_cases h16 : i < 16
  · have h4 : i - 4 < 16 := by omega
    simp [h16, h4, ← decide_not]
  · have past : (s.byteAt n).getLsbD (i - 4) = false := BitVec.getLsbD_of_ge _ _ (by omega)
    simp [h16, past]

theorem State.toNat_keyOf (s : State) (n : Nat) :
    (s.keyOf n).toNat =
      (256 * (s.byteAt (n + 1)).toNat + (s.byteAt (n + 2)).toNat) ^^^ (16 * (s.byteAt n).toNat) := by
  have h0 := (s.byteAt n).isLt
  have h2 := (s.byteAt (n + 2)).isLt
  simp only [State.keyOf, BitVec.toNat_xor, BitVec.toNat_append, BitVec.toNat_shiftLeft,
    BitVec.truncate_eq_setWidth, BitVec.toNat_setWidth, ← Nat.shiftLeft_add_eq_or_of_lt h2]
  simp only [Nat.shiftLeft_eq]
  congr 1 <;> omega

theorem exec_keyOf (addr : BitVec 16) (s : State) :
    exec (.keyOf addr) s = .next { s with result := .key (s.keyOf addr.toNat) } := rfl

/-- Settles O20: each nibble of the key is read off its bits. -/
theorem keyofMixesThreeWindowBytes : Obligations.KeyofMixesThreeWindowBytes := by
  intro addr s
  refine ⟨wrap addr.toNat, wrap (addr.toNat + 1), wrap (addr.toNat + 2), s.keyOf addr.toNat,
    toNat_wrap _, toNat_wrap _, toNat_wrap _, exec_keyOf addr s, ?nibble3, ?nibble2, ?nibble1,
    ?nibble0, s.toNat_keyOf addr.toNat⟩
  all_goals
    refine BitVec.eq_of_getLsbD_eq fun i hi => ?_
    simp only [BitVec.getLsbD_xor, BitVec.getLsbD_extractLsb', State.getLsbD_keyOf, State.byteAt, hi,
      decide_true, Bool.true_and, Nat.zero_add]
  case nibble3 =>
    have past : (s.readW (wrap addr.toNat)).getLsbD (12 + i - 4) = false :=
      BitVec.getLsbD_of_ge _ _ (by omega)
    rw [if_neg (by omega), past, Bool.and_false, Bool.xor_false]
    congr 1
    omega
  case nibble2 =>
    rw [if_neg (by omega), decide_eq_true (by omega), Bool.true_and, Nat.add_sub_cancel_left]
    congr 2
    omega
  case nibble1 =>
    rw [if_pos (by omega), decide_eq_true (by omega), Bool.true_and, Nat.add_sub_cancel_left]
  case nibble0 =>
    rw [if_pos (by omega), decide_eq_false (by omega), Bool.false_and, Bool.xor_false]

/-! ### Walks -/

/-- From a member on, a walk of at least one step begins with it. -/
theorem chainWalk_of_ne_zero (m : Memory 13) (fuel : Nat) {c : Addr} (hc : c ≠ 0) :
    chainWalk m (fuel + 1) c = c :: chainWalk m fuel (m.read c.toNat) :=
  if_neg hc

theorem eq_zero_of_chainWalk_eq_nil {m : Memory 13} {fuel : Nat} {c : Addr}
    (h : chainWalk m (fuel + 1) c = []) : c = 0 := by
  by_contra hc
  rw [chainWalk_of_ne_zero m fuel hc] at h
  cases h

theorem head?_chainWalk (m : Memory 13) (fuel : Nat) (c : Addr) :
    (chainWalk m (fuel + 1) c).head? = if c = 0 then none else some c := by
  rw [chainWalk_succ]
  split <;> rfl

/-- Each element of a walk is the link of the one before. -/
theorem isChain_chainWalk (m : Memory 13) (fuel : Nat) (c : Addr) :
    (chainWalk m fuel c).IsChain fun a b => m.read a.toNat = b := by
  induction fuel generalizing c with
  | zero => exact .nil
  | succ fuel ih =>
    rw [chainWalk_succ]
    split
    · exact .nil
    · refine List.isChain_cons.2 ⟨fun b hb => ?_, ih _⟩
      cases fuel with
      | zero => cases hb
      | succ fuel =>
        rw [head?_chainWalk] at hb
        split at hb
        · cases hb
        · exact Option.some.inj hb

/-- A walk that its bound does not cut ends before a 0. -/
theorem read_getLast?_chainWalk {m : Memory 13} {fuel : Nat} {c d : Addr}
    (hlen : (chainWalk m fuel c).length < fuel) (hd : (chainWalk m fuel c).getLast? = some d) :
    m.read d.toNat = 0 := by
  induction fuel generalizing c with
  | zero => cases hd
  | succ fuel ih =>
    rw [chainWalk_succ] at hlen hd
    split at hd
    next => cases hd
    next hc =>
      rw [if_neg hc, List.length_cons] at hlen
      rw [List.getLast?_cons] at hd
      cases hl : (chainWalk m fuel (m.read c.toNat)).getLast? with
      | some e =>
        rw [hl] at hd
        cases hd
        exact ih (by omega) hl
      | none =>
        rw [hl] at hd
        obtain rfl : c = d := Option.some.inj hd
        cases fuel with
        | zero => omega
        | succ fuel => exact eq_zero_of_chainWalk_eq_nil (List.getLast?_eq_none_iff.1 hl)

/-- A walk depends on the links of its members only. -/
theorem chainWalk_congr {m m' : Memory 13} {fuel : Nat} {c : Addr}
    (h : ∀ d ∈ chainWalk m fuel c, m'.read d.toNat = m.read d.toNat) :
    chainWalk m' fuel c = chainWalk m fuel c := by
  induction fuel generalizing c with
  | zero => rfl
  | succ fuel ih =>
    by_cases hc : c = 0
    · rw [hc, chainWalk_null, chainWalk_null]
    · rw [chainWalk_of_ne_zero m fuel hc] at h
      rw [chainWalk_of_ne_zero m fuel hc, chainWalk_of_ne_zero m' fuel hc, h c List.mem_cons_self,
        ih fun d hd => h d (List.mem_cons_of_mem c hd)]

/-- One more step of bound adds at most one more member. -/
theorem take_chainWalk_succ (m : Memory 13) (fuel : Nat) (c : Addr) :
    (chainWalk m (fuel + 1) c).take fuel = chainWalk m fuel c := by
  induction fuel generalizing c with
  | zero => rfl
  | succ fuel ih =>
    by_cases hc : c = 0
    · rw [hc, chainWalk_null, chainWalk_null, List.take_nil]
    · rw [chainWalk_of_ne_zero m (fuel + 1) hc, chainWalk_of_ne_zero m fuel hc,
        List.take_succ_cons, ih]

/-- Clearing the link of a member ends the walk behind it. -/
theorem chainWalk_write_zero {m : Memory 13} {fuel : Nat} {c p : Addr} {front rest : List Addr}
    (h : chainWalk m fuel c = front ++ p :: rest) (hp : p ∉ front) :
    chainWalk (m.write p.toNat 0) fuel c = front ++ [p] := by
  induction fuel generalizing c front with
  | zero => simp [chainWalk] at h
  | succ fuel ih =>
    have hc : c ≠ 0 := by
      rintro rfl
      rw [chainWalk_null] at h
      simp at h
    rw [chainWalk_of_ne_zero _ _ hc] at h ⊢
    rw [Memory.read_write]
    cases front with
    | nil =>
      obtain ⟨rfl, -⟩ := List.cons.inj h
      rw [if_pos rfl, chainWalk_null]
      rfl
    | cons a front =>
      obtain ⟨rfl, hrest⟩ := List.cons.inj h
      obtain ⟨hne, hp⟩ := not_or.1 (mt List.mem_cons.2 hp)
      rw [if_neg fun he => hne (BitVec.eq_of_toNat_eq he).symm, ih hrest hp]
      rfl

/-! ### CHAINFROM -/

theorem exec_chainFrom (key : Key) (s : State) :
    exec (.chainFrom key) s = .next { s with result := .chain (s.chainFrom key) } := rfl

theorem State.head?_chainFrom (s : State) (key : Key) :
    (s.chainFrom key).head? = if s.readHash key = 0 then none else some (s.readHash key) :=
  head?_chainWalk s.next 8190 _

/-- A chain that is not empty begins at its bucket. -/
theorem State.readHash_of_chainFrom_cons {s : State} {key : Key} {a : Addr} {rest : List Addr}
    (h : s.chainFrom key = a :: rest) : s.readHash key = a := by
  have head := s.head?_chainFrom key
  rw [h] at head
  split at head
  · cases head
  · exact (Option.some.inj head).symm

/-- Settles O25: the answer is a walk from the bucket along `next`. -/
theorem chainfromFollowsTheLinks : Obligations.ChainfromFollowsTheLinks := by
  intro key s
  refine ⟨s.chainFrom key, exec_chainFrom key s, s.head?_chainFrom key, fun i c d hc hd => ?linked,
    fun h0 => ne_zero_of_mem_chainWalk h0 rfl, length_chainWalk_le _ _ _,
    fun hlen c hc => read_getLast?_chainWalk hlen hc⟩
  case linked =>
    obtain ⟨hi, rfl⟩ := List.getElem?_eq_some_iff.1 hc
    obtain ⟨hi', rfl⟩ := List.getElem?_eq_some_iff.1 hd
    exact List.isChain_iff_getElem.1 (isChain_chainWalk _ _ _) i hi'

/-! ### INSERT -/

/-- Settles O21, by what INSERT leaves in each table. -/
theorem insertLinksTheNewHead : Obligations.InsertLinksTheNewHead := by
  intro key addr s haddr
  exact ⟨s.insertAt key addr, exec_insert haddr key s, fun k => s.readHash_insertAt key k addr,
    s.readNext_insertAt key addr, s.readPrev_insertAt key addr, s.insertAt_frame key addr⟩

/-- A walk that does not meet the inserted address is as before. -/
theorem State.chainWalk_insertAt (s : State) {key : Key} {addr : Addr} {fuel : Nat} {c : Addr}
    (h : addr ∉ chainWalk s.next fuel c) :
    chainWalk (s.insertAt key addr).next fuel c = chainWalk s.next fuel c :=
  chainWalk_congr fun d hd =>
    (s.readNext_insertAt key addr d).trans (if_neg fun he : d = addr => h (he ▸ hd))

/-- Settles O22: the new head's `next` is the old head, and no link of a member changed. -/
theorem insertPrependsToItsChain : Obligations.InsertPrependsToItsChain := by
  intro key addr s haddr hnew hlen
  refine ⟨s.insertAt key addr, exec_insert haddr key s, ?own, fun k hk => ?other⟩
  case own =>
    have whole : chainWalk s.next 8190 (s.readHash key) = s.chainFrom key := by
      rw [← take_chainWalk_succ]
      exact List.take_of_length_le (Nat.le_of_lt_succ hlen)
    have hnext : (s.insertAt key addr).next.read addr.toNat = s.readHash key :=
      (s.readNext_insertAt key addr addr).trans (if_pos rfl)
    rw [State.chainFrom, State.readHash_insertAt, if_pos rfl, Config.chainFuel,
      chainWalk_of_ne_zero _ _ haddr, hnext, s.chainWalk_insertAt (whole ▸ hnew key), whole]
  case other =>
    rw [State.chainFrom, State.readHash_insertAt, if_neg hk]
    exact s.chainWalk_insertAt (hnew k)

/-! ### REMOVE -/

/-! The three branches of `removeAt_cases`, each under its condition. -/

theorem State.removeAt_of_prev {s : State} {a : Addr} (hp : s.readPrev a ≠ 0) (k : Key) :
    s.removeAt k a = s.writeNext (s.readPrev a) 0 :=
  if_pos hp

theorem State.removeAt_of_bucket {s : State} {k : Key} {a : Addr} (hp : s.readPrev a = 0)
    (hk : s.readHash k = a) : s.removeAt k a = s.writeHash k 0 :=
  (if_neg (not_not.2 hp)).trans (if_pos hk)

theorem State.removeAt_of_unlinked {s : State} {k : Key} {a : Addr} (hp : s.readPrev a = 0)
    (hk : s.readHash k ≠ a) : s.removeAt k a = s :=
  (if_neg (not_not.2 hp)).trans (if_neg hk)

/-- Settles O23, branch by branch. -/
theorem removeClearsTheOneLink : Obligations.RemoveClearsTheOneLink := by
  intro key addr s haddr
  rw [exec_remove haddr]
  refine ⟨fun hp => ?prev, fun hp hk => ?bucket, fun hp hk => ?unlinked⟩
  case prev =>
    rw [State.removeAt_of_prev hp]
    exact ⟨_, rfl, fun a => s.readNext_writeNext _ a 0, rfl⟩
  case bucket =>
    rw [State.removeAt_of_bucket hp hk]
    exact ⟨_, rfl, fun k => s.readHash_writeHash key k 0, rfl⟩
  case unlinked => rw [State.removeAt_of_unlinked hp hk]

/-- Settles O24: a sole member's bucket is cleared, a longer chain is cut behind the predecessor. -/
theorem removeDropsTheTail : Obligations.RemoveDropsTheTail := by
  intro key addr front s haddr hchain hnodup hprev
  refine ⟨s.removeAt key addr, exec_remove haddr key s, ?_⟩
  rcases front.eq_nil_or_concat' with rfl | ⟨init, p, rfl⟩
  · rw [State.removeAt_of_bucket hprev (State.readHash_of_chainFrom_cons hchain)]
    exact State.chainFrom_eq_nil (by rw [State.readHash_writeHash, if_pos rfl])
  · rw [List.getLastD_concat] at hprev
    have hcut : s.chainFrom key = init ++ p :: [addr] := by rw [hchain, List.append_assoc]; rfl
    have hp : p ≠ 0 :=
      ne_zero_of_mem_chainWalk (hcut ▸ List.mem_append_right init List.mem_cons_self)
    have hpinit : p ∉ init := fun h =>
      List.disjoint_of_nodup_append hnodup.of_append_left h List.mem_cons_self
    rw [State.removeAt_of_prev (hprev ▸ hp), hprev]
    exact chainWalk_write_zero hcut hpinit

end Sys2Proof.Machine
end

section
/-! PROOFS. The step of the sequencer as a function: what a busy phase does when the ports answer,
and when it waits (43_encoder.md R120; 60_exceptions.md R140). -/

namespace Sys2Proof.Machine

/-! ### What a busy phase performs -/

/-- The state after the row of the sequencer table for the phase, when the ports answer; a quiescent
phase has none. Tied to the step by `step_answered`. -/
def State.performed (s : State) : State :=
  match s.phase with
  | .prime => { prime s with phase := (prime s).loopPhase }
  | .search => search s
  | .emit => if s.bestLen < 3 then (emitLiteral s).state else (emitMatch s).state
  | .maintain => afterAdvance (advance s)
  | .terminate => (terminated s).state
  | .idle => s
  | .done => s
  | .fault => s

section
variable {s : State}

theorem performed_prime (h : s.phase = .prime) :
    s.performed = { prime s with phase := (prime s).loopPhase } := by
  simp only [State.performed, h]

theorem performed_search (h : s.phase = .search) : s.performed = search s := by
  simp only [State.performed, h]

theorem performed_emitLit (h : s.phase = .emit) (hlen : s.bestLen < 3) :
    s.performed = (emitLiteral s).state := by
  simp only [State.performed, h, if_pos hlen]

theorem performed_emitMatch (h : s.phase = .emit) (hlen : ¬ s.bestLen < 3) :
    s.performed = (emitMatch s).state := by
  simp only [State.performed, h, if_neg hlen]

theorem performed_maintain (h : s.phase = .maintain) :
    s.performed = afterAdvance (advance s) := by
  simp only [State.performed, h]

theorem performed_terminate (h : s.phase = .terminate) : s.performed = (terminated s).state := by
  simp only [State.performed, h]

end

/-- The busy phases. -/
theorem State.busy_cases {s : State} (h : s.busy = true) :
    s.phase = .prime ∨ s.phase = .search ∨ s.phase = .emit ∨ s.phase = .maintain ∨
      s.phase = .terminate := by
  cases hp : s.phase <;> simp [State.busy, hp] at h ⊢

theorem State.busy_eq_false_iff {s : State} :
    s.busy = false ↔ s.phase = .idle ∨ s.phase = .done ∨ s.phase = .fault := by
  cases hp : s.phase <;> simp [State.busy, hp]

theorem performed_quiescent {s : State} (hb : s.busy = false) : s.performed = s := by
  rcases State.busy_eq_false_iff.1 hb with hp | hp | hp <;> simp only [State.performed, hp]

theorem State.busy_of_pulling {s : State} (h : s.phase = .prime ∨ s.phase = .maintain) :
    s.busy = true := by
  rcases h with h | h <;> rw [State.busy, h]

theorem State.busy_of_pushing {s : State} (h : s.phase = .emit ∨ s.phase = .terminate) :
    s.busy = true := by
  rcases h with h | h <;> rw [State.busy, h]

theorem State.exists_sequenced {s : State} (h : s.busy = true) : ∃ i, s.sequenced = some i :=
  Option.isSome_iff_exists.1 (State.busy_of_sequenced ▸ h)

/-- The operation of the phase, with what the sequencer adds, leaves the performed state. -/
theorem exec_of_sequenced {s : State} {i : Instr} (hi : s.sequenced = some i) :
    ∃ v, exec i s = .next v ∧ afterOperation s.phase v = .next s.performed := by
  rcases State.sequenced_cases hi with ⟨hp, rfl⟩ | ⟨hp, rfl⟩ | ⟨hp, hl, rfl⟩ | ⟨hp, hl, rfl⟩ |
    ⟨hp, rfl⟩ | ⟨hp, rfl⟩ <;> refine ⟨_, rfl, ?_⟩ <;> rw [hp]
  · have hphase : (prime s).phase ≠ .fault := by rw [prime_phase, hp]; decide
    rw [performed_prime hp, afterOperation, if_neg hphase]
  · rw [performed_search hp]
    rfl
  · rw [performed_emitLit hp hl, afterOperation_emit]
  · rw [performed_emitMatch hp hl, afterOperation_emit]
  · have hphase : (advance s).phase ≠ .fault := by rw [advance_phase, hp]; decide
    rw [performed_maintain hp, afterOperation, if_neg hphase]
  · rw [performed_terminate hp]
    exact afterOperation_emitTerm s hp

/-! ### Where the emissions lead -/

/-- FAULT with its code, which only a capacity brings about (60_exceptions.md R130, R135). -/
def Faulted (s t : State) : Prop :=
  t.phase = .fault ∧ t.faultCode = 1 ∧ s.outCap ≠ none

theorem State.capped_of_refuses {s : State} (h : s.sinkRefuses = true) : s.outCap ≠ none :=
  fun hcap => absurd (h.symm.trans (State.sinkRefuses_of_uncapped hcap)) (by decide)

theorem writeStream_abandoned {bs : List Bool} {s t : State} (h : writeStream bs s = .abandoned t) :
    Faulted s t := by
  induction bs generalizing s with
  | nil => cases h
  | cons b bs ih =>
    rw [writeStream] at h
    rcases writeBit_cases b s with ⟨-, e⟩ | ⟨-, -, e⟩ | ⟨-, hr, e⟩ <;> rw [e] at h
    · obtain ⟨hp, hc, hcap⟩ := ih h
      exact ⟨hp, hc, hcap⟩
    · obtain ⟨hp, hc, hcap⟩ := ih h
      exact ⟨hp, hc, hcap⟩
    · cases h
      exact ⟨rfl, rfl, State.capped_of_refuses hr⟩

theorem flush_abandoned {s t : State} (h : flush s = .abandoned t) : Faulted s t := by
  rcases flush_cases s with ⟨-, e⟩ | ⟨-, -, e⟩ | ⟨-, hr, e⟩ <;> cases e.symm.trans h
  exact ⟨rfl, rfl, State.capped_of_refuses hr⟩

/-- An entry is followed by MAINTAIN, a refused byte of it by FAULT (43_encoder.md R116, R117). -/
theorem emission_phase (bs : List Bool) (n : Count) (s : State) :
    ((writeStream bs s).andThen (owe n)).state.phase = .maintain ∨
      Faulted s ((writeStream bs s).andThen (owe n)).state := by
  cases hf : writeStream bs s with
  | completed t => exact .inl rfl
  | abandoned t => exact .inr (writeStream_abandoned hf)

theorem emitLiteral_phase (s : State) :
    (emitLiteral s).state.phase = .maintain ∨ Faulted s (emitLiteral s).state := by
  rw [emitLiteral, writeLiteral_eq]
  exact emission_phase _ _ s

theorem emitMatch_phase (s : State) :
    (emitMatch s).state.phase = .maintain ∨ Faulted s (emitMatch s).state := by
  rw [emitMatch, writeLong_eq, writeLong_eq]
  split
  · exact emission_phase _ _ s.drawFree
  · exact emission_phase _ _ s

/-- The terminator is followed by DONE, a refused byte of it by FAULT (43_encoder.md R119). -/
theorem terminated_phase (s : State) :
    (terminated s).state.phase = .done ∨ Faulted s (terminated s).state := by
  rw [terminated, writeLong_eq]
  cases hf : writeStream (matchBits 0 0) s with
  | abandoned t => exact .inr (writeStream_abandoned hf)
  | completed t =>
    have hw := writeStream_writesOnly (matchBits 0 0) s
    rw [hf] at hw
    have hcap : t.outCap = s.outCap := by
      have f : OnlyWriter s t := hw
      rw [f]
    rw [Flow.andThen_completed]
    cases hu : flush t with
    | completed u => exact .inl rfl
    | abandoned u =>
      obtain ⟨hp, hc, hcap'⟩ := flush_abandoned hu
      exact .inr ⟨hp, hc, hcap ▸ hcap'⟩

/-! ### When a step waits -/

/-- A step that waits does so because the port of its operation withholds the answer. -/
theorem State.waiting_withheld {s t : State} {inp : PortInput} {i : Instr}
    (h : s.waiting inp i = some t) :
    (performsPull i = true ∧ inp.srcHold = true ∧ t = { s with srcReq := true }) ∨
    (s.pushes i = true ∧ inp.snkHold = true ∧
      ∃ b, t = { s with snkReq := true, snkByte := b }) := by
  unfold State.waiting at h
  split at h
  next hp =>
    obtain ⟨hpull, hhold⟩ := Bool.and_eq_true_iff.1 hp
    exact .inl ⟨hpull, hhold, (Option.some.inj h).symm⟩
  next =>
    split at h
    next hp =>
      obtain ⟨hpush, hhold⟩ := Bool.and_eq_true_iff.1 hp
      exact .inr ⟨hpush, hhold, _, (Option.some.inj h).symm⟩
    next => cases h

/-- The phases that pull, and those that push at least a byte (20_memory.md R53). -/
theorem State.uses_ports {s : State} {i : Instr} (hi : s.sequenced = some i) :
    (performsPull i = true ↔ s.phase = .prime ∨ s.phase = .maintain) ∧
      (s.pushes i = true ↔ s.phase = .emit ∨ s.phase = .terminate) := by
  have hn := s.nbits.isLt
  rcases State.sequenced_cases hi with ⟨hp, rfl⟩ | ⟨hp, rfl⟩ | ⟨hp, -, rfl⟩ | ⟨hp, -, rfl⟩ |
    ⟨hp, rfl⟩ | ⟨hp, rfl⟩ <;> simp [hp, performsPull, State.pushes, bitsWritten] <;> omega

/-- Without reset and without a presented word, a busy block performs its phase's operation. -/
theorem step_of_sequenced {s : State} {i : Instr} (hissue : s.issue = none)
    (hreset : s.input.reset = false) (hi : s.sequenced = some i) :
    step s = performPhase s.input i s.nextInput := by
  have hseq : s.nextInput.sequenced = some i := hi
  simp [step, oneStep, hreset, hissue, sequence, hseq]

theorem step_of_waiting {s t : State} {i : Instr} (hissue : s.issue = none)
    (hreset : s.input.reset = false) (hi : s.sequenced = some i)
    (hw : s.nextInput.waiting s.input i = some t) : step s = .next t := by
  rw [step_of_sequenced hissue hreset hi, performPhase, hw]

theorem step_of_no_wait {s : State} {i : Instr} (hissue : s.issue = none)
    (hreset : s.input.reset = false) (hi : s.sequenced = some i)
    (hw : s.nextInput.waiting s.input i = none) : step s = .next s.nextInput.performed := by
  obtain ⟨v, hexec, hafter⟩ := exec_of_sequenced (s := s.nextInput) hi
  rw [step_of_sequenced hissue hreset hi, performPhase, hw, hexec]
  exact hafter

/-- A busy block whose ports answer performs its phase. -/
theorem step_answered {s : State} (hissue : s.issue = none) (hreset : s.input.reset = false)
    (hb : s.busy = true) (hsrc : s.input.srcHold = false) (hsnk : s.input.snkHold = false) :
    step s = .next s.nextInput.performed := by
  obtain ⟨i, hi⟩ := State.exists_sequenced hb
  exact step_of_no_wait hissue hreset hi (State.waiting_eq_none _ i hsrc hsnk)

/-- A busy block waits for a port that withholds its answer, or performs its phase. -/
theorem step_busy_cases {s : State} (hissue : s.issue = none) (hreset : s.input.reset = false)
    (hb : s.busy = true) :
    ((s.phase = .prime ∨ s.phase = .maintain) ∧ s.input.srcHold = true ∧
        step s = .next { s.nextInput with srcReq := true }) ∨
    ((s.phase = .emit ∨ s.phase = .terminate) ∧ s.input.snkHold = true ∧
        ∃ b, step s = .next { s.nextInput with snkReq := true, snkByte := b }) ∨
    step s = .next s.nextInput.performed := by
  obtain ⟨i, hi⟩ := State.exists_sequenced hb
  obtain ⟨pulls, pushes⟩ := State.uses_ports (s := s.nextInput) hi
  cases hw : s.nextInput.waiting s.input i with
  | none => exact .inr (.inr (step_of_no_wait hissue hreset hi hw))
  | some t =>
    have hstep := step_of_waiting hissue hreset hi hw
    rcases State.waiting_withheld hw with ⟨hpull, hhold, rfl⟩ | ⟨hpush, hhold, b, rfl⟩
    · exact .inl ⟨pulls.1 hpull, hhold, hstep⟩
    · exact .inr (.inl ⟨pushes.1 hpush, hhold, b, hstep⟩)

/-- START is performed in every quiescent phase (R110). -/
theorem exec_start_of_quiescent {s : State} (hb : s.busy = false) :
    exec .start s = .next (construct s) :=
  if_pos (congrArg not hb)

/-- A quiescent block stands still, or performs START at a request (R110, R125). -/
theorem step_quiescent_cases {s : State} (hissue : s.issue = none) (hreset : s.input.reset = false)
    (hb : s.busy = false) :
    (s.input.start = none ∧ step s = .next s.nextInput) ∨
      ∃ r, s.input.start = some r ∧ step s = .next
        (construct { s.nextInput with src := r.src, outCap := r.outCap }) := by
  have hseq : s.nextInput.sequenced = none := by
    rw [← Option.isNone_iff_eq_none, ← Option.not_isSome, ← State.busy_of_sequenced]
    exact congrArg not hb
  have hstep : step s = quiescent s.input s.nextInput := by
    simp [step, oneStep, hreset, hissue, sequence, hseq]
  rw [hstep, quiescent]
  cases hstart : s.input.start with
  | none => exact .inl ⟨rfl, rfl⟩
  | some r => exact .inr ⟨r, rfl, exec_start_of_quiescent hb⟩

end Sys2Proof.Machine
end

section
/-! PROOFS. MATCHLEN, SEARCH and the emissions of the Encoder (43_encoder.md R111 to R117). -/

namespace Sys2Proof.Machine

/-! ### MATCHLEN -/

/-- The positions that MATCHLEN's loop counts agree, and the one it stops at differs (R111). -/
theorem prefixFrom_agrees (s : State) (c : Addr) (k i : Nat) :
    (∀ j, j < prefixFrom s c k i →
      s.readW (slotAt s.dictHead (i + j)) = s.readW (slotAt c (i + j))) ∧
    (prefixFrom s c k i < k →
      s.readW (slotAt s.dictHead (i + prefixFrom s c k i)) ≠
        s.readW (slotAt c (i + prefixFrom s c k i))) := by
  induction k generalizing i with
  | zero => exact ⟨fun j hj => absurd hj (Nat.not_lt_zero j), fun h => absurd h (Nat.not_lt_zero _)⟩
  | succ k ih =>
    rw [prefixFrom]
    split
    next heq =>
      obtain ⟨agree, differ⟩ := ih (i + 1)
      refine ⟨fun j hj => ?_, fun hlt => ?_⟩
      · cases j with
        | zero => exact heq
        | succ j =>
          have := agree j (by omega)
          rwa [Nat.add_assoc, Nat.add_comm 1 j] at this
      · have := differ (by omega)
        rwa [Nat.add_assoc, Nat.add_comm 1 (prefixFrom s c k (i + 1))] at this
    next hne => exact ⟨fun j hj => absurd hj (Nat.not_lt_zero j), fun _ => hne⟩

theorem State.matchLen_agrees (s : State) (c : Addr) {i : Nat} (hi : i < (s.matchLen c).toNat) :
    s.readW (slotAt s.dictHead i) = s.readW (slotAt c i) := by
  rw [s.matchLen_toNat] at hi
  have agree := (prefixFrom_agrees s c s.waitingBytes.toNat 0).1 i hi
  rwa [Nat.zero_add] at agree

theorem State.matchLen_differs (s : State) (c : Addr)
    (h : (s.matchLen c).toNat < s.waitingBytes.toNat) :
    s.readW (slotAt s.dictHead (s.matchLen c).toNat) ≠ s.readW (slotAt c (s.matchLen c).toNat) := by
  rw [s.matchLen_toNat] at h ⊢
  have differ := (prefixFrom_agrees s c s.waitingBytes.toNat 0).2 h
  rwa [Nat.zero_add] at differ

/-- Settles O28, by what MATCHLEN's loop counts and where it stops. -/
theorem matchlenIsTheCommonPrefix : Obligations.MatchlenIsTheCommonPrefix :=
  fun c s =>
    ⟨s.matchLen c, rfl, s.matchLen_le c, fun _ => s.matchLen_agrees c, s.matchLen_differs c⟩

/-! ### SEARCH -/

/-- What a search of the candidates `cs` makes of the best so far: no candidate is longer, and the
result is the best so far, or the first of the longest candidates, longer than that (R112, R113). -/
def State.FindsBest (s : State) (cs : List Addr) (best r : Count × Addr) : Prop :=
  best.1 ≤ r.1 ∧ (∀ c ∈ cs, s.matchLen c ≤ r.1) ∧
    (r = best ∨ ∃ front back, cs = front ++ r.2 :: back ∧ s.matchLen r.2 = r.1 ∧ best.1 < r.1 ∧
      ∀ c ∈ front, s.matchLen c < r.1)

/-- A best so far that no candidate exceeds stays. -/
theorem State.FindsBest.unbeaten {s : State} {cs : List Addr} {best : Count × Addr}
    (h : ∀ c ∈ cs, s.matchLen c ≤ best.1) : s.FindsBest cs best best :=
  ⟨BitVec.le_refl _, h, .inl rfl⟩

theorem better_cases (best : Count × Addr) (len : Count) (c : Addr) :
    (best.1 < len ∧ better best len c = (len, c)) ∨ (len ≤ best.1 ∧ better best len c = best) := by
  unfold better
  by_cases h : best.1 < len
  · exact .inl ⟨h, if_pos h⟩
  · exact .inr ⟨BitVec.not_lt.1 h, if_neg h⟩

/-- The first candidate, and then the others: it is the best so far, or no longer than that. -/
theorem State.FindsBest.cons {s : State} {c : Addr} {cs : List Addr} {best r : Count × Addr}
    (h : s.FindsBest cs (Machine.better best (s.matchLen c) c) r) :
    s.FindsBest (c :: cs) best r := by
  obtain ⟨hle, hall, hr⟩ := h
  rcases better_cases best (s.matchLen c) c with ⟨hc, e⟩ | ⟨hc, e⟩ <;> rw [e] at hle hr
  · refine ⟨by bv_omega, List.forall_mem_cons.2 ⟨hle, hall⟩, .inr ?_⟩
    rcases hr with rfl | ⟨front, back, hcs, hlen, hlt, hfront⟩
    · exact ⟨[], cs, rfl, rfl, hc, nofun⟩
    · exact ⟨c :: front, back, by rw [hcs, List.cons_append], hlen, by bv_omega,
        List.forall_mem_cons.2 ⟨hlt, hfront⟩⟩
  · refine ⟨hle, List.forall_mem_cons.2 ⟨by bv_omega, hall⟩, ?_⟩
    rcases hr with rfl | ⟨front, back, hcs, hlen, hlt, hfront⟩
    · exact .inl rfl
    · exact .inr ⟨c :: front, back, by rw [hcs, List.cons_append], hlen, hlt,
        List.forall_mem_cons.2 ⟨by bv_omega, hfront⟩⟩

/-- SEARCH's loop finds the best of the whole chain: where it stops early, the best has the whole
lookahead, which no candidate exceeds (R114). -/
theorem scanFrom_findsBest (s : State) (fuel : Nat) (c : Addr) (best : Count × Addr) :
    s.FindsBest (chainWalk s.next fuel c) best (scanFrom s fuel c best) := by
  induction fuel generalizing c best with
  | zero => exact .unbeaten nofun
  | succ fuel ih =>
    rw [chainWalk_succ, scanFrom]
    by_cases hc : c = 0
    · rw [if_pos hc, if_pos hc]
      exact .unbeaten nofun
    · rw [if_neg hc, if_neg hc]
      refine .cons ?_
      by_cases hfull : s.matchLen c = s.waitingBytes
      · rw [if_pos hfull]
        refine .unbeaten fun d _ => ?_
        have hd := s.matchLen_le d
        rcases better_cases best (s.matchLen c) c with ⟨-, e⟩ | ⟨hge, e⟩ <;> rw [e] <;> bv_omega
      · rw [if_neg hfull]
        exact ih _ _

/-- SEARCH finds the best of the chain of the cursor's key, from nothing (R112). -/
theorem search_findsBest (s : State) :
    s.FindsBest (s.chainFrom (s.keyOf s.dictHead.toNat)) (0, 0)
      ((search s).bestLen, (search s).bestAddr) := by
  have pair : ∀ {cs best} {r : Count × Addr},
      s.FindsBest cs best r → s.FindsBest cs best (r.1, r.2) := id
  exact pair (scanFrom_findsBest s Config.chainFuel (s.readHash (s.keyOf s.dictHead.toNat))
    (0, Config.null))

/-- Settles O29: the search's loop, started from nothing. -/
theorem searchFindsTheMostRecentLongestMatch :
    Obligations.SearchFindsTheMostRecentLongestMatch := by
  intro s
  obtain ⟨-, hall, hr⟩ := search_findsBest s
  refine ⟨search s, rfl, search_frame s, hall, ?_⟩
  rcases hr with h | ⟨front, back, hcs, hlen, hpos, hfront⟩
  · exact .inl (Prod.mk.inj h)
  · exact .inr ⟨front, back, hcs, hlen, (BitVec.ne_of_lt hpos).symm, hfront⟩

/-! ### EMITLIT and EMITMATCH -/

/-- An entry's bits and what is owed for it, or a refused byte of it (R116, R117). -/
theorem emission_outcome {bs : List Bool} {s : State} (hc : s.accClean) (n : Count) :
    (s.room (s.pushesFor bs.length) →
      ∃ t, ((writeStream bs s).andThen (owe n)).outcome =
          .next { t with remaining := n, phase := .maintain } ∧ Wrote bs s t) ∧
    (¬ s.room (s.pushesFor bs.length) →
      ∃ t, ((writeStream bs s).andThen (owe n)).outcome = .next t ∧ Refused bs s t) := by
  rcases writeStream_cases bs s hc with ⟨t, e, w⟩ | ⟨t, e, w⟩ <;> rw [e]
  · exact ⟨fun _ => ⟨t, rfl, w.wrote⟩, fun hroom => absurd w.room hroom⟩
  · exact ⟨fun hroom => absurd hroom w.room, fun _ => ⟨t, rfl, w.refused⟩⟩

theorem exec_emitLit (s : State) :
    exec .emitLit s =
      ((writeStream (true :: byteBits (s.readW s.dictHead)) s).andThen (owe 1)).outcome := by
  have hbyte : s.byteAt s.dictHead.toNat = s.readW s.dictHead := by rw [State.byteAt, wrap_toNat]
  show (emitLiteral s).outcome = _
  rw [emitLiteral, hbyte, writeLiteral_eq]
  rfl

/-- Settles O13: EMITLIT writes the literal of the byte at the cursor. -/
theorem emitlitWritesTheByteAtTheCursor : Obligations.EmitlitWritesTheByteAtTheCursor := by
  intro s hc
  rw [exec_emitLit]
  have emits := emission_outcome (bs := true :: byteBits (s.readW s.dictHead)) hc 1
  rwa [List.length_cons, length_byteBits] at emits

/-- From length 3 on EMITMATCH writes the length minus 3 (R117; 30_encoding.md R64). -/
theorem exec_emitMatch {s : State} (hmin : 3 ≤ s.bestLen.toNat) :
    exec .emitMatch s =
      ((writeStream (matchBits s.bestAddr (lenFieldOf s.bestLen)) s).andThen
        (owe s.bestLen)).outcome := by
  have hlen : ¬ s.bestLen < 3 := by bv_omega
  show (emitMatch s).outcome = _
  rw [emitMatch, if_neg hlen, writeLong_eq]

/-- Settles O14: the length field of a legal length is the length minus 3. -/
theorem emitmatchWritesAddressAndLength : Obligations.EmitmatchWritesAddressAndLength := by
  intro s hc hmin hmax
  have hfield : (lenFieldOf s.bestLen).toNat = s.bestLen.toNat - 3 := by
    have := trueLength_lenFieldOf hmin hmax
    rw [trueLength, Config.minMatch] at this
    omega
  have emits := emission_outcome (bs := matchBits s.bestAddr (lenFieldOf s.bestLen)) hc s.bestLen
  rw [exec_emitMatch hmin, ← hfield]
  rwa [length_matchBits] at emits

/-- Settles O15: the drawn field is written as any other, and its draw is counted (log 16). -/
theorem emitmatchBelowTheMinimumStillRuns : Obligations.EmitmatchBelowTheMinimumStillRuns := by
  intro s hc hmax hroom
  have hlen : s.bestLen < 3 := by bv_omega
  have hexec : exec .emitMatch s = ((writeStream (matchBits s.bestAddr
      (Config.freeLenField s.freeIndex)) s.drawFree).andThen (owe s.bestLen)).outcome := by
    show (emitMatch s).outcome = _
    rw [emitMatch, if_pos hlen, writeLong_eq]
  obtain ⟨t, ht, frame, clean, written⟩ := (emission_outcome (s := s.drawFree)
    (bs := matchBits s.bestAddr (Config.freeLenField s.freeIndex)) hc s.bestLen).1
    (by rwa [length_matchBits])
  refine ⟨{ t with freeIndex := s.freeIndex }, _, ?_, ?_, clean, written⟩
  · rw [hexec, ht, frame]
    rfl
  · rw [frame]
    rfl

end Sys2Proof.Machine
end

section
/-! PROOFS. The sequencer table (43_encoder.md R120), start requests (R110) and delayed answers
(R121, 60_exceptions.md R140). -/

namespace Sys2Proof.Machine

/-! ### START -/

/-- Settles O26: START does nothing in a busy phase and constructs the state in any other. -/
theorem startConstructsTheState : Obligations.StartConstructsTheState := by
  intro s
  constructor
  · intro hb
    exact if_neg (by rw [State.acceptsStart, hb]; decide)
  · intro hp
    refine ⟨construct s, exec_start_of_quiescent (State.busy_eq_false_iff.2 hp), ?_⟩
    simp [construct, State.readW, State.readHash, State.readPrev, State.readNext, State.busy,
      State.done, State.fault, Config.headInit]

/-- Settles O27: a busy phase reads only the two withheld answers off the port. -/
theorem startRequestWhileBusyIsIgnored : Obligations.StartRequestWhileBusyIsIgnored := by
  intro s r p rest hb hissue hin
  obtain ⟨i, hi⟩ := State.exists_sequenced hb
  set s' : State := { s with inputs := { p with start := r } :: rest }
  have hinput : s.input = p := by rw [State.input, hin]; rfl
  have hnext : s.nextInput = s'.nextInput := by simp [State.nextInput, hin, s']
  cases hreset : p.reset with
  | true =>
    have hr : s.input.reset = true := by rw [hinput, hreset]
    have hr' : s'.input.reset = true := hreset
    simp only [step, oneStep, hr, hr', if_true, hnext]
  | false =>
    rw [step_of_sequenced hissue (by rw [hinput, hreset]) hi,
      step_of_sequenced (s := s') hissue hreset hi, hinput, hnext]
    rfl

/-! ### Row by row -/

theorem State.dropRemaining_of_ne {s : State} (h : s.remaining ≠ 0) :
    s.dropRemaining = { s with remaining := s.remaining - 1 } := by
  simp only [State.dropRemaining, countedDown, if_neg h]

/-- MAINTAIN counts what is owed down, and looks where the loop goes with the last (R118). -/
theorem afterAdvance_of_ne {s : State} (h : s.remaining ≠ 0) :
    afterAdvance s = { s with
      remaining := s.remaining - 1
      phase :=
        if s.remaining ≠ 1 then .maintain
        else if s.waitingBytes = 0 then .terminate else .search } := by
  have hone : s.remaining - 1 = 0 ↔ s.remaining = 1 := by bv_omega
  simp only [afterAdvance, State.dropRemaining_of_ne h, State.loopPhase, hone, ite_not]

/-- The last row: EMITTERM, and unless it faulted FINISH, and unless that faulted DONE (R119). -/
theorem step_terminate_answered {s : State} (hissue : s.issue = none)
    (hreset : s.input.reset = false) (hp : s.phase = .terminate) (hsrc : s.input.srcHold = false)
    (hsnk : s.input.snkHold = false) :
    step s = afterOperation .terminate (writeLong 0 0 s.nextInput).state := by
  rw [step_answered hissue hreset (by rw [State.busy, hp]) hsrc hsnk,
    performed_terminate (s := s.nextInput) hp, afterOperation_emitTerm s.nextInput hp]

/-- Settles O33: when the ports answer, a step is a rest, START, or the performed row. -/
theorem eachPhasePerformsItsOperation : Obligations.EachPhasePerformsItsOperation := by
  intro s hissue hreset hsrc hsnk u
  have performs : s.busy = true → step s = .next u.performed := fun hb =>
    step_answered hissue hreset hb hsrc hsnk
  refine ⟨fun hp => ?quiescent, fun hp => ?prime, fun hp => ?search, fun hp hlen => ?emitLit,
    fun hp hlen => ?emitMatch, fun hp hrem => ?maintain, fun hp => ?terminate⟩
  case quiescent =>
    have hb := State.busy_eq_false_iff.2 hp
    rcases step_quiescent_cases hissue hreset hb with ⟨hnone, hstep⟩ | ⟨r, hr, hstep⟩
    · exact ⟨fun _ => hstep, fun r hr => absurd (hnone.symm.trans hr) nofun⟩
    · refine ⟨fun hnone => absurd (hnone.symm.trans hr) nofun, fun r' hr' => ?_⟩
      cases hr.symm.trans hr'
      exact ⟨_, hstep, exec_start_of_quiescent hb, rfl⟩
  case prime =>
    have hstep := performs (by rw [State.busy, hp])
    rw [performed_prime (s := u) hp] at hstep
    exact ⟨prime u, rfl, hstep⟩
  case search =>
    have hstep := performs (by rw [State.busy, hp])
    rw [performed_search (s := u) hp] at hstep
    exact ⟨search u, rfl, hstep, rfl⟩
  case emitLit =>
    rw [performs (by rw [State.busy, hp]), performed_emitLit (s := u) hp hlen]
    rfl
  case emitMatch =>
    rw [performs (by rw [State.busy, hp]),
      performed_emitMatch (s := u) hp (BitVec.not_lt.2 hlen)]
    rfl
  case maintain =>
    have hkept : (advance u).remaining = s.remaining := by rw [advance_onlyDictionary u]
    have hstep := performs (by rw [State.busy, hp])
    rw [performed_maintain (s := u) hp, afterAdvance_of_ne (hkept ▸ hrem), hkept] at hstep
    exact ⟨advance u, rfl, hstep⟩
  case terminate =>
    have hstep := step_terminate_answered hissue hreset hp hsrc hsnk
    refine ⟨(writeLong 0 0 u).state, rfl, fun hfault => ?_, fun hfault => ?_⟩
    · exact hstep.trans (afterOperation_fault hfault)
    · exact ⟨_, rfl, hstep.trans (afterOperation_terminate hfault)⟩

/-! ### No other move -/

/-- What PRIME and MAINTAIN leave is SEARCH with a lookahead, or TERMINATE without (R118). -/
theorem State.loopPhase_spec (s : State) :
    (s.loopPhase = .search ∧ s.waitingBytes ≠ 0) ∨
      (s.loopPhase = .terminate ∧ s.waitingBytes = 0) := by
  unfold State.loopPhase
  by_cases hw : s.waitingBytes = 0
  · exact .inr ⟨if_pos hw, hw⟩
  · exact .inl ⟨if_neg hw, hw⟩

theorem afterAdvance_loops (s : State) :
    ((afterAdvance s).phase = .maintain ∧ (afterAdvance s).remaining ≠ 0) ∨
      ((afterAdvance s).phase = .search ∧ (afterAdvance s).remaining = 0 ∧
        (afterAdvance s).waitingBytes ≠ 0) ∨
      ((afterAdvance s).phase = .terminate ∧ (afterAdvance s).remaining = 0 ∧
        (afterAdvance s).waitingBytes = 0) := by
  rw [afterAdvance]
  by_cases h0 : s.dropRemaining.remaining = 0
  · rw [if_pos h0]
    exact .inr (s.dropRemaining.loopPhase_spec.imp (fun ⟨hp, hw⟩ => ⟨hp, h0, hw⟩)
      fun ⟨hp, hw⟩ => ⟨hp, h0, hw⟩)
  · rw [if_neg h0]
    exact .inl ⟨rfl, h0⟩

theorem Faulted.phase_and_code {s t : State} (h : Faulted s t) :
    t.phase = .fault ∧ t.faultCode = 1 :=
  ⟨h.1, h.2.1⟩

/-- Settles O34: a quiescent block rests or starts, a busy one waits or performs its row, and each
row leads where the table says. -/
theorem phaseMovesOnlyAsTheTableSays : Obligations.PhaseMovesOnlyAsTheTableSays := by
  intro s t hissue hreset hstep
  have moves : s.busy = true →
      ((s.phase = .prime ∨ s.phase = .maintain) ∧ s.input.srcHold = true ∧ t.phase = s.phase) ∨
      ((s.phase = .emit ∨ s.phase = .terminate) ∧ s.input.snkHold = true ∧ t.phase = s.phase) ∨
      t = s.nextInput.performed := fun hb => by
    rcases step_busy_cases hissue hreset hb with ⟨hp, hold, h⟩ | ⟨hp, hold, b, h⟩ | h <;>
      cases hstep.symm.trans h
    · exact .inl ⟨hp, hold, rfl⟩
    · exact .inr (.inl ⟨hp, hold, rfl⟩)
    · exact .inr (.inr rfl)
  refine ⟨fun hp => ?quiescent, fun hp => ?prime, fun hp => ?search, fun hp => ?emit,
    fun hp => ?maintain, fun hp => ?terminate⟩
  case quiescent =>
    rcases step_quiescent_cases hissue hreset (State.busy_eq_false_iff.2 hp) with
      ⟨hnone, h⟩ | ⟨r, hr, h⟩ <;> cases hstep.symm.trans h
    · exact .inl ⟨rfl, hnone⟩
    · exact .inr ⟨rfl, by rw [hr]; nofun⟩
  all_goals
    have hmoves := moves (by rw [State.busy, hp])
    simp only [hp, reduceCtorEq, or_false, false_or, or_self, false_and, true_and, or_true]
      at hmoves
  case prime =>
    rcases hmoves with ⟨hold, hp'⟩ | rfl
    · exact .inr (.inr ⟨hp', hold⟩)
    · rw [performed_prime (s := s.nextInput) hp]
      exact (prime s.nextInput).loopPhase_spec.imp id .inl
  case search =>
    rw [hmoves, performed_search (s := s.nextInput) hp]
    rfl
  case emit =>
    rcases hmoves with ⟨hold, hp'⟩ | rfl
    · exact .inr (.inr ⟨hp', hold⟩)
    · by_cases hlen : s.bestLen < 3
      · rw [performed_emitLit (s := s.nextInput) hp hlen]
        exact (emitLiteral_phase _).imp id fun h => .inl h.phase_and_code
      · rw [performed_emitMatch (s := s.nextInput) hp hlen]
        exact (emitMatch_phase _).imp id fun h => .inl h.phase_and_code
  case maintain =>
    rcases hmoves with ⟨hold, hp'⟩ | rfl
    · exact .inr (.inr (.inr ⟨hp', hold⟩))
    · rw [performed_maintain (s := s.nextInput) hp]
      exact (afterAdvance_loops _).imp id (Or.imp id .inl)
  case terminate =>
    rcases hmoves with ⟨hold, hp'⟩ | rfl
    · exact .inr (.inr ⟨hp', hold⟩)
    · rw [performed_terminate (s := s.nextInput) hp]
      exact (terminated_phase _).imp id fun h => .inl h.phase_and_code

/-! ### Delayed answers -/

/-- A push overwrites the request and the byte on the lines (20_memory.md R53). -/
theorem writeBit_of_request {s : State} (hn : s.nbits = 7) (c : Bool) (b : Byte) :
    writeBit c { s with snkReq := true, snkByte := b } = writeBit c s := by
  simp only [writeBit, if_pos hn]
  rfl

/-- Bits that bring a push do not depend on the request raised before. -/
theorem writeStream_of_request {bs : List Bool} {s : State} (h : 8 ≤ s.nbits.toNat + bs.length)
    (b : Byte) : writeStream bs { s with snkReq := true, snkByte := b } = writeStream bs s := by
  induction bs generalizing s with
  | nil =>
    have := s.nbits.isLt
    simp only [List.length_nil] at h
    omega
  | cons c cs ih =>
    rw [writeStream, writeStream]
    by_cases hn : s.nbits = 7
    · rw [writeBit_of_request hn]
    · simp only [writeBit, if_neg hn, Flow.andThen_completed]
      refine ih (s := { s with acc := s.acc ||| bitBelow c s.nbits, nbits := s.nbits + 1 }) ?_
      rw [s.toNat_nbits_succ hn]
      simp only [List.length_cons] at h
      omega

theorem performed_of_snkReq {s : State} (hp : s.phase = .emit ∨ s.phase = .terminate) (b : Byte) :
    State.performed { s with snkReq := true, snkByte := b } = s.performed := by
  have literal : ∀ c, writeLiteral c { s with snkReq := true, snkByte := b } = writeLiteral c s :=
    fun c => by
      rw [writeLiteral_eq, writeLiteral_eq,
        writeStream_of_request (by rw [length_literalBits]; omega)]
  have long : ∀ a l, writeLong a l { s with snkReq := true, snkByte := b } = writeLong a l s :=
    fun a l => by
      rw [writeLong_eq, writeLong_eq, writeStream_of_request (by rw [length_matchBits]; omega)]
  rcases hp with hp | hp
  · by_cases hlen : s.bestLen < 3
    · rw [performed_emitLit hp hlen, performed_emitLit (by exact hp) (by exact hlen)]
      simp only [emitLiteral, literal]
      rfl
    · rw [performed_emitMatch hp hlen, performed_emitMatch (by exact hp) (by exact hlen)]
      simp only [emitMatch, if_neg hlen, long]
  · rw [performed_terminate hp, performed_terminate (by exact hp), terminated, terminated, long]

/-- A pull lowers the request (41_window.md R93), so PRIME and ADVANCE do not depend on it. -/
theorem pull_of_srcReq (s : State) : pull { s with srcReq := true } = pull s := rfl

theorem prime_of_srcReq (s : State) : prime { s with srcReq := true } = prime s := by
  have first : primeLoop 18 0 { s with srcReq := true } = primeLoop 18 0 s := by
    rw [primeLoop, primeLoop, pull_of_srcReq]
  exact congrArg (fun r : Nat × State => { r.2 with waitingBytes := BitVec.ofNat 5 r.1 }) first

theorem removeAt_of_srcReq (s : State) (k : Key) (a : Addr) :
    State.removeAt { s with srcReq := true } k a = { s.removeAt k a with srcReq := true } := by
  rcases s.removeAt_cases k a with ⟨hp, h⟩ | ⟨hp, hk, h⟩ | ⟨hp, hk, h⟩ <;> rw [h]
  · exact State.removeAt_of_prev (s := { s with srcReq := true }) hp k
  · exact State.removeAt_of_bucket (s := { s with srcReq := true }) hp hk
  · exact State.removeAt_of_unlinked (s := { s with srcReq := true }) hp hk

theorem evict_of_srcReq (s : State) :
    State.evict { s with srcReq := true } = { s.evict with srcReq := true } := by
  unfold State.evict
  by_cases h0 : s.evicted = Config.null
  · rw [if_pos h0, if_pos (by exact h0)]
  · rw [if_neg h0, if_neg (by exact h0), removeAt_of_srcReq]
    rfl

theorem advance_of_srcReq (s : State) : advance { s with srcReq := true } = advance s := by
  rw [advance, advance, evict_of_srcReq, pull_of_srcReq]
  rfl

theorem performed_of_srcReq {s : State} (hp : s.phase = .prime ∨ s.phase = .maintain) :
    State.performed { s with srcReq := true } = s.performed := by
  rcases hp with hp | hp
  · rw [performed_prime hp, performed_prime (by exact hp), prime_of_srcReq]
  · rw [performed_maintain hp, performed_maintain (by exact hp), advance_of_srcReq]

/-- While the source withholds its answer, a phase that pulls raises the request (60_exceptions.md
R140). -/
theorem step_of_srcHold {s : State} (hissue : s.issue = none) (hreset : s.input.reset = false)
    (hp : s.phase = .prime ∨ s.phase = .maintain) (hold : s.input.srcHold = true) :
    step s = .next { s.nextInput with srcReq := true } := by
  obtain ⟨i, hi⟩ := State.exists_sequenced (State.busy_of_pulling hp)
  refine step_of_waiting hissue hreset hi ?_
  simp [State.waiting, (State.uses_ports hi).1.2 hp, hold]

/-- While the sink withholds its answer, a phase that pushes raises the request with a byte. -/
theorem step_of_snkHold {s : State} (hissue : s.issue = none) (hreset : s.input.reset = false)
    (hp : s.phase = .emit ∨ s.phase = .terminate) (hold : s.input.snkHold = true) :
    ∃ b, step s = .next { s.nextInput with snkReq := true, snkByte := b } := by
  obtain ⟨i, hi⟩ := State.exists_sequenced (State.busy_of_pushing hp)
  obtain ⟨pulls, pushes⟩ := State.uses_ports (s := s.nextInput) hi
  have hpull : performsPull i = false := by
    rw [← Bool.not_eq_true, pulls]
    rcases hp with hp | hp <;> simp [State.nextInput, hp]
  exact ⟨s.nextInput.firstPushed i,
    step_of_waiting hissue hreset hi (by simp [State.waiting, hpull, pushes.2 hp, hold])⟩

/-- A raised request makes no difference to the answered step when it makes none to the phase's
operation: a reset drops it (R150). -/
theorem step_of_request {s : State} {src snk : Bool} {b : Byte} (hissue : s.issue = none)
    (hb : s.busy = true) (hsrc : s.input.srcHold = false) (hsnk : s.input.snkHold = false)
    (h : State.performed { s.nextInput with srcReq := src, snkReq := snk, snkByte := b } =
      s.nextInput.performed) :
    step { s with srcReq := src, snkReq := snk, snkByte := b } = step s := by
  cases hreset : s.input.reset with
  | true =>
    have hinput : State.input { s with srcReq := src, snkReq := snk, snkByte := b } = s.input := rfl
    simp only [step, oneStep, hinput, hreset, if_true]
    rfl
  | false =>
    rw [step_answered hissue hreset hb hsrc hsnk, ← h]
    exact step_answered (s := { s with srcReq := src, snkReq := snk, snkByte := b }) hissue hreset
      hb hsrc hsnk

/-- Settles O37: the request is all that a waiting step leaves, and the answered step does not
depend on it. -/
theorem delayDoesNotChangeTheStep : Obligations.DelayDoesNotChangeTheStep := by
  intro s p q rest hissue hin hreset hsrc hsnk hold
  have hnext : s.nextInput = { s with inputs := q :: rest } := by simp [State.nextInput, hin]
  have hinput : s.input = p := by rw [State.input, hin]; rfl
  rw [← hinput] at hreset hold
  rw [← hnext]
  have hsrc' : s.nextInput.input.srcHold = false := by rw [hnext]; exact hsrc
  have hsnk' : s.nextInput.input.snkHold = false := by rw [hnext]; exact hsnk
  rcases hold with ⟨hp, hold⟩ | ⟨hp, hold⟩
  · exact ⟨_, step_of_srcHold hissue hreset hp hold,
      step_of_request (s := s.nextInput) hissue (State.busy_of_pulling hp) hsrc' hsnk'
        (performed_of_srcReq (s := s.nextInput.nextInput) hp)⟩
  · obtain ⟨b, hstep⟩ := step_of_snkHold hissue hreset hp hold
    exact ⟨_, hstep,
      step_of_request (s := s.nextInput) hissue (State.busy_of_pushing hp) hsrc' hsnk'
        (performed_of_snkReq (s := s.nextInput.nextInput) hp b)⟩

end Sys2Proof.Machine
end

section
/-! PROOFS. Runs of the block: what an encode keeps from START on, that it ends (43_encoder.md
R121), and what a finished run has written (R122). -/

namespace Sys2Proof.Machine

/-! ### Runs as sequences of steps -/

/-- `k` steps lead from one state to another. -/
inductive StepsTo : Nat → State → State → Prop
  | refl (s : State) : StepsTo 0 s s
  | head {k : Nat} {s u t : State} (h : step s = .next u) (r : StepsTo k u t) : StepsTo (k + 1) s t

/-- A run of one step more is a step and a run. -/
theorem run_succ_eq_next_iff (M : Host.Core) (k : Nat) (s t : M.State) :
    M.run (k + 1) s = .next t ↔ ∃ u, M.step s = .next u ∧ M.run k u = .next t := by
  rw [Host.Core.run]
  cases M.step s <;> simp

theorem run_eq_next_iff {k : Nat} {s t : State} :
    Host.Core.run Sys2Proof.core k s = .next t ↔ StepsTo k s t := by
  induction k generalizing s with
  | zero =>
    constructor
    · intro h
      cases h
      exact .refl _
    · rintro ⟨⟩
      rfl
  | succ k ih =>
    refine (run_succ_eq_next_iff Sys2Proof.core k s t).trans ⟨?_, ?_⟩
    · rintro ⟨u, hs, h⟩
      exact .head hs (ih.1 h)
    · rintro (_ | ⟨hs, r⟩)
      exact ⟨_, hs, ih.2 r⟩

/-! ### What every run keeps -/

/-- Between START and the next request: the invariant, and ports that only withhold answers. -/
structure State.Running (s : State) : Prop where
  inv : s.Inv
  unasked : ∀ p ∈ s.inputs, PortInput.asksNothing p

/-- No move looks at the port values to come, and none but START sets the capacity. -/
theorem Moves.environment {s t : State} (m : Moves s t) :
    t.inputs = s.inputs ∧ (s.busy = true → t.outCap = s.outCap) := by
  have emission : ∀ {u}, OnlyEmission s u →
      u.inputs = s.inputs ∧ (s.busy = true → u.outCap = s.outCap) := fun f => by
    rw [f]
    exact ⟨rfl, fun _ => rfl⟩
  cases m with
  | rest => exact ⟨rfl, fun _ => rfl⟩
  | start hb => exact ⟨rfl, fun hb' => absurd (hb.symm.trans hb') (by decide)⟩
  | awaitPull => exact ⟨rfl, fun _ => rfl⟩
  | awaitPush => exact ⟨rfl, fun _ => rfl⟩
  | search => exact ⟨rfl, fun _ => rfl⟩
  | prime =>
    rw [prime_frame]
    exact ⟨rfl, fun _ => rfl⟩
  | emitLit => exact emission (emitLiteral_onlyEmission s)
  | emitMatch _ hlen =>
    rw [Machine.emitMatch, if_neg hlen, writeLong_eq]
    exact emission (owe_onlyEmission _ _ s)
  | terminate => exact emission (terminated_onlyEmission s)
  | maintain =>
    rw [afterAdvance, (advance_onlyDictionary s).dropRemaining]
    exact ⟨rfl, fun _ => rfl⟩

namespace State.Running

variable {s t : State}

theorem nextInput (h : s.Running) : s.nextInput.Running :=
  ⟨h.inv.nextInput, fun p hp => h.unasked p (List.mem_of_mem_tail hp)⟩

theorem asksNothing (h : s.Running) : s.input.asksNothing := by
  rw [State.input]
  cases hin : s.inputs with
  | nil => exact ⟨rfl, rfl⟩
  | cons p ps => exact h.unasked p (by simp [hin])

/-- A running block rests, or makes a move of an encode. -/
theorem step_cases (h : s.Running) (hstep : step s = .next t) :
    (s.busy = false ∧ t = s.nextInput) ∨ (s.busy = true ∧ Moves s.nextInput t) := by
  cases hb : s.busy with
  | false =>
    cases (step_of_quiescent h.inv.noIssue h.asksNothing hb).symm.trans hstep
    exact .inl ⟨rfl, rfl⟩
  | true =>
    rcases Machine.step_cases h.inv.noIssue hstep with ⟨hreset, -⟩ | ⟨-, m⟩
    · exact absurd (h.asksNothing.1.symm.trans hreset) (by decide)
    · exact .inr ⟨rfl, m⟩

theorem moves (h : s.Running) (m : Moves s t) : t.Running :=
  ⟨m.inv h.inv, by rw [m.environment.1]; exact h.unasked⟩

theorem stepped (h : s.Running) (hstep : step s = .next t) : t.Running := by
  rcases h.step_cases hstep with ⟨-, rfl⟩ | ⟨-, m⟩
  · exact h.nextInput
  · exact h.nextInput.moves m

/-- What resting and every move of an encode keep holds along a run. -/
theorem run_induction {P : State → Prop} (rest : ∀ u, P u → P u.nextInput)
    (keep : ∀ u v, u.Running → u.busy = true → Moves u v → P u → P v) {k : Nat} (h : s.Running)
    (hs : P s) (r : StepsTo k s t) : P t := by
  induction r with
  | refl => exact hs
  | head hstep _ ih =>
    refine ih (h.stepped hstep) ?_
    rcases h.step_cases hstep with ⟨-, rfl⟩ | ⟨hb, m⟩
    · exact rest _ hs
    · exact keep _ _ h.nextInput hb m (rest _ hs)

end State.Running

/-! ### From a start request on -/

/-- What START makes of a block at a request for input `x`. -/
def State.started (x : List Byte) (cap : Option Nat) (s : State) : State :=
  construct { s.nextInput with src := x, outCap := cap }

namespace State.Requested

variable {x : List Byte} {cap : Option Nat} {s t : State}

theorem quiescent (h : s.Requested x cap) : s.busy = false :=
  Bool.not_eq_true' _ ▸ h.accepts

theorem starts (h : s.Requested x cap) : step s = .next (s.started x cap) := by
  obtain ⟨p, ps, hin, hreset, hstart, -⟩ := h.request
  have hinput : s.input = p := by rw [State.input, hin]; rfl
  rw [← hinput] at hreset hstart
  rcases step_quiescent_cases h.inv.noIssue hreset h.quiescent with ⟨hnone, -⟩ | ⟨r, hr, hstep⟩
  · cases hnone.symm.trans hstart
  · cases hr.symm.trans hstart
    exact hstep

theorem running (h : s.Requested x cap) : (s.started x cap).Running := by
  obtain ⟨p, ps, hin, -, -, hps⟩ := h.request
  refine ⟨h.inv.nextInput.construct h.quiescent x cap, fun q hq => hps q ?_⟩
  have hin' : (s.started x cap).inputs = ps := congrArg List.tail hin
  rwa [hin'] at hq

/-- A run of one step or more is START and a run of the encode. -/
theorem run (h : s.Requested x cap) {k : Nat} (hk : 1 ≤ k) (r : StepsTo k s t) :
    ∃ j, StepsTo j (s.started x cap) t := by
  cases r with
  | refl => omega
  | head hstep r =>
    cases h.starts.symm.trans hstep
    exact ⟨_, r⟩

end State.Requested

/-- Settles O47: START begins the stream, and every move of the encode keeps it up to DONE. -/
theorem everyFinishedRunIsACompleteStream : Obligations.EveryFinishedRunIsACompleteStream := by
  intro x cap s t k h hk hrun hdone
  obtain ⟨j, r⟩ := h.run hk (run_eq_next_iff.1 hrun)
  have begins : (s.started x cap).Streams x.length := rfl
  have streams : t.Streams x.length :=
    h.running.run_induction (P := State.Streams x.length) (fun _ hs => hs)
      (fun _ _ hr hb m hs => m.streams hr.inv hs hb) begins r
  simpa only [State.Streams, hdone] using streams

/-! ### An encode ends -/

/-- How many steps of answered ports an encode still takes at most: SEARCH, EMIT and MAINTAIN for
each byte not yet emitted, MAINTAIN for each one owed, and the steps of PRIME and TERMINATE. -/
def State.work (s : State) : Nat :=
  match s.phase with
  | .prime => 3 * (s.waitingBytes.toNat + s.src.length) + 2
  | .search => 3 * (s.waitingBytes.toNat + s.src.length) + 1
  | .emit => 3 * (s.waitingBytes.toNat + s.src.length)
  | .maintain =>
    s.remaining.toNat + 3 * (s.waitingBytes.toNat + s.src.length - s.remaining.toNat) + 1
  | .terminate => 1
  | .idle => 0
  | .done => 0
  | .fault => 0

section
variable {s : State}

theorem work_quiescent (h : s.busy = false) : s.work = 0 := by
  rcases State.busy_eq_false_iff.1 h with hp | hp | hp <;> simp only [State.work, hp]

theorem work_le (h : s.Inv) : s.work ≤ 3 * (s.waitingBytes.toNat + s.src.length) + 3 := by
  cases hp : s.phase <;> simp only [State.work, hp]
  case maintain =>
    have hle := BitVec.le_def.1 (h.contract_maintain hp).2.1
    omega
  all_goals omega

/-- Where the loop goes with `n` bytes to come there is work for them, and for TERMINATE. -/
theorem work_loopPhase (s : State) :
    State.work { s with phase := s.loopPhase } ≤ 3 * (s.waitingBytes.toNat + s.src.length) + 1 := by
  rcases s.loopPhase_cases with e | e <;> rw [e] <;> simp only [State.work]
  · omega
  · omega

theorem work_prime (hp : s.phase = .prime) :
    State.work { prime s with phase := (prime s).loopPhase } < s.work := by
  have hloop := work_loopPhase (prime s)
  have hbytes : (prime s).waitingBytes.toNat + (prime s).src.length = s.src.length := by
    rw [prime_waitingBytes, prime_src, List.length_drop]
    omega
  have hwork : s.work = 3 * (s.waitingBytes.toNat + s.src.length) + 2 := by
    simp only [State.work, hp]
  refine hloop.trans_lt ?_
  omega

theorem work_afterAdvance (h : s.Inv) (hp : s.phase = .maintain) :
    (afterAdvance (advance s)).work < s.work := by
  obtain ⟨hrem, hle, -⟩ := h.contract_maintain hp
  have hrem' := dropRemaining_advance hrem
  have hle' := BitVec.le_def.1 hle
  have hwork : s.work =
      s.remaining.toNat + 3 * (s.waitingBytes.toNat + s.src.length - s.remaining.toNat) + 1 := by
    simp only [State.work, hp]
  have hbytes : (advance s).dropRemaining.waitingBytes.toNat +
      (advance s).dropRemaining.src.length + 1 = s.waitingBytes.toNat + s.src.length := by
    rw [State.dropRemaining_frame]
    rcases (advance_counts (h.waiting_maintain hp)).2 with ⟨hs, hs', hc⟩ | ⟨b, rest, hs, hs', hc⟩
    · simp only [hs, hs', List.length_nil]
      omega
    · simp only [hs, hs', hc, List.length_cons]
      omega
  rw [afterAdvance]
  split
  next h0 =>
    have hloop := work_loopPhase (advance s).dropRemaining
    have h0' : (advance s).dropRemaining.remaining.toNat = 0 := by rw [h0]; rfl
    omega
  next =>
    rw [hwork]
    simp only [State.work]
    omega

/-- What is owed for an entry is taken from the bytes to come. -/
theorem work_emission (hp : s.phase = .emit) (bs : List Bool) {n : Count}
    (hn : n ≠ 0) (hle : n ≤ s.waitingBytes) :
    ((writeStream bs s).andThen (owe n)).state.work < s.work := by
  have hn' := toNat_ne_zero hn
  have hle' := BitVec.le_def.1 hle
  have hwork : s.work = 3 * (s.waitingBytes.toNat + s.src.length) := by simp only [State.work, hp]
  have hw := writeStream_writesOnly bs s
  cases hf : writeStream bs s with
  | completed t =>
    rw [hf] at hw
    have f : OnlyWriter s t := hw
    rw [f, hwork]
    simp only [Flow.andThen_completed, owe, Flow.state_completed, State.work]
    omega
  | abandoned t =>
    rw [hf] at hw
    have hfault : t.work = 0 := by simp only [State.work, hw.2]
    rw [Flow.andThen_abandoned, Flow.state_abandoned, hfault]
    omega

/-- EMITTERM and FINISH leave DONE or FAULT. -/
theorem terminated_quiescent (s : State) : (terminated s).state.busy = false := by
  have hw : ((writeLong 0 0 s).andThen flush).WritesOnly s := by
    rw [writeLong_eq]
    exact (writeStream_writesOnly _ s).andThen flush_writesOnly
  unfold terminated
  cases hf : (writeLong 0 0 s).andThen flush with
  | completed t => rfl
  | abandoned t =>
    rw [hf] at hw
    exact State.busy_eq_false_iff.2 (.inr (.inr hw.2))

/-- Every row of the sequencer table brings the end nearer. -/
theorem work_performed (h : s.Inv) (hb : s.busy = true) : s.performed.work < s.work := by
  rcases State.busy_cases hb with hp | hp | hp | hp | hp
  · rw [performed_prime hp]
    exact work_prime hp
  · rw [performed_search hp]
    simp only [search, State.work, hp]
    omega
  · obtain ⟨hwait, -, -, hbest, -⟩ := h.contract_emit hp
    by_cases hlen : s.bestLen < 3
    · rw [performed_emitLit hp hlen, emitLiteral, writeLiteral_eq]
      refine work_emission hp _ (by decide) (BitVec.le_def.2 ?_)
      exact Nat.one_le_iff_ne_zero.2 (toNat_ne_zero hwait)
    · rw [performed_emitMatch hp hlen, emitMatch, if_neg hlen, writeLong_eq]
      exact work_emission hp _ (fun h0 => hlen (by rw [h0]; decide)) hbest
  · rw [performed_maintain hp]
    exact work_afterAdvance h hp
  · rw [performed_terminate hp, work_quiescent (terminated_quiescent s)]
    simp only [State.work, hp]
    decide

end

/-! ### Every step brings the end nearer -/

/-- An encode is in progress or ended, in FAULT only under a capacity. -/
def State.underway (s : State) : Prop :=
  s.phase ≠ .idle ∧ (s.outCap = none → s.phase ≠ .fault)

theorem State.loopPhase_loops (s : State) : s.loopPhase ≠ .idle ∧ s.loopPhase ≠ .fault := by
  rcases s.loopPhase_cases with e | e <;> rw [e] <;> decide

theorem afterAdvance_phase (s : State) :
    (afterAdvance s).phase = .maintain ∨ (afterAdvance s).phase = s.dropRemaining.loopPhase := by
  rw [afterAdvance]
  split
  · exact .inr rfl
  · exact .inl rfl

theorem underway_of_phase {s : State} {p : Phase} (h : s.phase = p) (hp : p ≠ .idle ∧ p ≠ .fault) :
    s.underway :=
  ⟨h ▸ hp.1, fun _ => h ▸ hp.2⟩

theorem Faulted.underway {s t : State} (h : Faulted s t) (hcap : t.outCap = s.outCap) :
    t.underway := by
  obtain ⟨hp, -, hcap'⟩ := h
  exact ⟨by rw [hp]; decide, fun hnone => absurd (hcap ▸ hnone) hcap'⟩

theorem performed_underway {s : State} (hb : s.busy = true) (hcap : s.performed.outCap = s.outCap) :
    s.performed.underway := by
  rcases State.busy_cases hb with hp | hp | hp | hp | hp
  · rw [performed_prime hp]
    exact underway_of_phase rfl (State.loopPhase_loops _)
  · rw [performed_search hp]
    exact underway_of_phase (p := .emit) rfl (by decide)
  · by_cases hlen : s.bestLen < 3
    · rw [performed_emitLit hp hlen] at hcap ⊢
      exact (emitLiteral_phase s).elim (underway_of_phase · (by decide)) (·.underway hcap)
    · rw [performed_emitMatch hp hlen] at hcap ⊢
      exact (emitMatch_phase s).elim (underway_of_phase · (by decide)) (·.underway hcap)
  · rw [performed_maintain hp]
    exact (afterAdvance_phase _).elim (underway_of_phase · (by decide))
      (underway_of_phase · (State.loopPhase_loops _))
  · rw [performed_terminate hp] at hcap ⊢
    exact (terminated_phase s).elim (underway_of_phase · (by decide)) (·.underway hcap)

theorem inputs_ne_nil_of_hold {s : State} (h : s.input.srcHold = true ∨ s.input.snkHold = true) :
    s.inputs ≠ [] := by
  intro hnil
  simp [State.input, hnil] at h

/-- A step of an encode keeps the capacity and brings the end nearer: less work is left, or fewer
port values. -/
structure Progress (s t : State) : Prop where
  running : t.Running
  underway : t.underway
  outCap : t.outCap = s.outCap
  nearer : t.work + t.inputs.length ≤ s.work + s.inputs.length - 1

/-- Waiting leaves the work as it is, but uses up the port value that withheld the answer. -/
theorem State.Running.progress_of_wait {s t : State} (h : s.Running) (hu : s.underway)
    (hstep : step s = .next t) (hold : s.input.srcHold = true ∨ s.input.snkHold = true)
    (hwait : t = { s.nextInput with
      srcReq := t.srcReq, snkReq := t.snkReq, snkByte := t.snkByte }) :
    Progress s t := by
  have hin := List.length_pos_iff.2 (inputs_ne_nil_of_hold hold)
  have hlen : s.nextInput.inputs.length = s.inputs.length - 1 := List.length_tail
  refine ⟨h.stepped hstep, ?_, ?_, ?_⟩ <;> rw [hwait]
  · exact hu
  · rfl
  · show s.work + s.nextInput.inputs.length ≤ _
    omega

theorem State.Running.progress_of_performed {s : State} (h : s.Running) (hb : s.busy = true)
    (hstep : step s = .next s.nextInput.performed) : Progress s s.nextInput.performed := by
  have hlen : s.nextInput.inputs.length = s.inputs.length - 1 := List.length_tail
  have hwork : s.nextInput.performed.work < s.work := work_performed h.inv.nextInput hb
  rcases h.step_cases hstep with ⟨hb', -⟩ | ⟨-, m⟩
  · exact absurd (hb.symm.trans hb') (by decide)
  · obtain ⟨hin, hcap⟩ := m.environment
    refine ⟨h.stepped hstep, performed_underway (s := s.nextInput) hb (hcap hb), hcap hb, ?_⟩
    rw [hin]
    omega

theorem State.Running.progress {s : State} (h : s.Running) (hu : s.underway) :
    ∃ t, step s = .next t ∧ Progress s t := by
  cases hb : s.busy with
  | false =>
    have hlen : s.nextInput.inputs.length = s.inputs.length - 1 := List.length_tail
    have hwork : s.nextInput.work = 0 := work_quiescent hb
    exact ⟨s.nextInput, step_of_quiescent h.inv.noIssue h.asksNothing hb, h.nextInput, hu, rfl,
      by omega⟩
  | true =>
    rcases step_busy_cases h.inv.noIssue h.asksNothing.1 hb with ⟨-, hold, hstep⟩ |
      ⟨-, hold, b, hstep⟩ | hstep
    · exact ⟨_, hstep, h.progress_of_wait hu hstep (.inl hold) rfl⟩
    · exact ⟨_, hstep, h.progress_of_wait hu hstep (.inr hold) rfl⟩
    · exact ⟨_, hstep, h.progress_of_performed hb hstep⟩

/-- With as many steps as there are port values and work, an encode has ended. -/
theorem State.Running.ends {s : State} {n : Nat} (h : s.Running) (hu : s.underway)
    (hn : s.work + s.inputs.length ≤ n) :
    ∃ t, StepsTo n s t ∧ t.busy = false ∧ t.underway ∧ t.outCap = s.outCap := by
  induction n generalizing s with
  | zero =>
    refine ⟨s, .refl s, ?_, hu, rfl⟩
    by_contra hb
    have := work_performed h.inv (Bool.not_eq_false _ ▸ hb)
    omega
  | succ n ih =>
    obtain ⟨u, hstep, p⟩ := h.progress hu
    have hnearer := p.nearer
    obtain ⟨t, r, hb, ht, hcap⟩ := ih p.running p.underway (by omega)
    exact ⟨t, .head hstep r, hb, ht, hcap.trans p.outCap⟩

/-- Settles O46: every step lowers the work left or uses up a port value, and a block without work
has ended. -/
theorem everyEncodeEnds : Obligations.EveryEncodeEnds := by
  intro s h hb hin
  have busy : s.underway := by
    rcases State.busy_cases hb with hp | hp | hp | hp | hp <;>
      exact underway_of_phase hp (by decide)
  have bound := work_le h
  obtain ⟨t, r, hquiet, ⟨hidle, hfault⟩, hcap⟩ := State.Running.ends
    (n := 3 * (s.waitingBytes.toNat + s.src.length) + 3 + s.inputs.length) ⟨h, hin⟩ busy (by omega)
  have ended := (State.busy_eq_false_iff.1 hquiet).resolve_left hidle
  exact ⟨t, run_eq_next_iff.2 r, ended,
    fun hnone => ended.resolve_right (hfault (hcap.trans hnone))⟩

end Sys2Proof.Machine
end

section
/-! PROOFS. The round trip (43_encoder.md R123): the entries an encode has written, replayed on the
mirror window, give the bytes of the input that they cover. -/

namespace Sys2Proof.Machine

/-! ### The mirror window -/

/-- The mirror has put out the first `n` bytes of the input: its cursor stands behind them, and its
window holds the last 8192 of them by position. -/
structure Mirrors (x : List Byte) (n : Nat) (m : Memory 8 × Addr × List Byte) : Prop where
  window : ∀ p, p < n → n ≤ p + 8192 → x[p]? = some (m.1.read (wrap (p + 1)).toNat)
  cursor : m.2.1 = wrap (n + 1)
  out : m.2.2 = x.take n

theorem slotAt_wrap (a i : Nat) : slotAt (wrap a) i = wrap (a + i) := by
  rw [← BitVec.toNat_inj, toNat_slotAt, toNat_wrap, toNat_wrap]
  omega

theorem mirrors_start (x : List Byte) : Mirrors x 0 ([], 1, []) :=
  ⟨fun p hp => absurd hp (Nat.not_lt_zero p), rfl, rfl⟩

section
variable {x : List Byte} {n : Nat} {m : Memory 8 × Addr × List Byte}

theorem Mirrors.put (h : Mirrors x n m) {b : Byte} (hb : x[n]? = some b) :
    Mirrors x (n + 1) (mirrorPut m b) := by
  refine ⟨fun p hp hle => ?_, ?_, ?_⟩
  · show x[p]? = some ((m.1.write m.2.1.toNat b).read (wrap (p + 1)).toNat)
    rw [Memory.read_write, h.cursor, toNat_wrap, toNat_wrap]
    by_cases hpn : p = n
    · rw [hpn, if_pos rfl, hb]
    · rw [if_neg (by omega), h.window p (by omega) (by omega), toNat_wrap]
  · show slotAt m.2.1 1 = wrap (n + 1 + 1)
    rw [h.cursor, slotAt_wrap]
  · show m.2.2 ++ [b] = x.take (n + 1)
    rw [h.out, List.take_add_one, hb]
    rfl

/-- A run copied byte by byte from position `q` continues the input where the input repeats itself
from there, also when the run overlaps the cursor. -/
theorem Mirrors.copy {len q i : Nat} {addr : Addr} (h : Mirrors x n m) (hq : q < n)
    (hle : n ≤ q + 8192) (haddr : slotAt addr i = wrap (q + 1))
    (repeats : ∀ j, j < len → x[n + j]? = x[q + j]?) :
    Mirrors x (n + len) (mirrorCopy addr len i m) := by
  induction len generalizing n q i m with
  | zero => exact h
  | succ len ih =>
    have next : x[n]? = some (m.1.read (slotAt addr i).toNat) := by
      rw [haddr, ← h.window q hq hle]
      exact repeats 0 (by omega)
    have copied := ih (i := i + 1) (h.put next) (Nat.succ_lt_succ hq) (by omega)
      (by rw [← slotAt_slotAt, haddr, slotAt_wrap]) fun j hj => ?_
    · rwa [Nat.add_assoc, Nat.add_comm 1 len] at copied
    · have := repeats (j + 1) (by omega)
      rwa [← Nat.add_assoc, ← Nat.add_assoc, Nat.add_right_comm n, Nat.add_right_comm q] at this

end

theorem mirrorRun_append {es : List Instr} (hes : ∀ e ∈ es, isData e) (fs : List Instr)
    (m : Memory 8 × Addr × List Byte) : mirrorRun (es ++ fs) m = mirrorRun fs (mirrorRun es m) := by
  induction es generalizing m with
  | nil => rfl
  | cons e es ih =>
    have ih := ih fun d hd => hes d (List.mem_cons_of_mem _ hd)
    rcases hes e List.mem_cons_self with ⟨b, rfl⟩ | ⟨addr, lenm3, -, rfl⟩
    · exact ih _
    · exact ih _

/-! ### Reading a stream back -/

/-- Whole entries and the terminator are read back from the front of a stream (R68). -/
theorem decodeStream_entries {es : List Instr} (hes : ∀ e ∈ es, isData e) (rest : List Bool)
    {fuel : Nat} (hfuel : es.length < fuel) :
    decodeStream fuel (es.flatMap entryBits ++ (entryBits .term ++ rest)) =
      .ok (es ++ [.term], rest) := by
  induction es generalizing fuel with
  | nil =>
    obtain ⟨fuel, rfl⟩ := Nat.exists_eq_add_of_lt hfuel
    rw [List.flatMap_nil, List.nil_append, decodeStream, decodeEntry_entryBits (.inr rfl)]
    rfl
  | cons e es ih =>
    cases fuel with
    | zero => omega
    | succ fuel =>
      have hdata := hes e List.mem_cons_self
      have tail := ih (fun d hd => hes d (List.mem_cons_of_mem _ hd)) (Nat.lt_of_succ_lt_succ hfuel)
      rw [List.flatMap_cons, List.append_assoc, decodeStream, decodeEntry_entryBits (.inl hdata)]
      rcases hdata with ⟨b, rfl⟩ | ⟨addr, lenm3, -, rfl⟩ <;> simp only [tail] <;> rfl

/-- A stream of whole entries, the terminator and any padding inflates to what the entries replay
to. -/
theorem inflate_of_bits {es : List Instr} (hes : ∀ e ∈ es, isData e) {bytes : List Byte}
    {pad : List Bool} (hbits : bitsOfBytes bytes = es.flatMap entryBits ++ entryBits .term ++ pad) :
    inflate bytes = some (mirrorRun es ([], 1, [])).2.2 := by
  have hfuel : es.length < 8 * bytes.length := by
    have hlen := congrArg List.length hbits
    have hle : literals es ≤ es.length := List.countP_le_length
    rw [length_bitsOfBytes, List.length_append, List.length_append, length_flatMap_entryBits hes,
      entryBits_term, length_matchBits] at hlen
    omega
  rw [inflate, hbits, List.append_assoc, decodeStream_entries hes pad hfuel]
  show some (mirrorRun (es ++ [.term]) ([], 1, [])).2.2 = _
  rw [mirrorRun_append hes]
  rfl

/-! ### What SEARCH finds repeats the input -/

/-- The best match names an earlier position of the input, from which the bytes to come repeat
themselves for its length. -/
def State.bestRepeats (x : List Byte) (s : State) : Prop :=
  s.bestLen ≠ 0 → ∃ q, q < s.consumed x.length ∧ s.consumed x.length ≤ q + 8192 ∧
    s.bestAddr = wrap (q + 1) ∧
    ∀ j, j < s.bestLen.toNat → x[s.consumed x.length + j]? = x[q + j]?

/-- A member `d` positions behind the cursor is the slot of the position `d` before the next one. -/
theorem State.memberAt_position {s : State} {n d : Nat} {a : Addr}
    (cursor : s.dictHead = wrap (1 + n)) (h : s.memberAt n d a) : a = wrap (n - d + 1) := by
  obtain ⟨h1, h2, rfl, -⟩ := h
  rw [cursor, slotAt_wrap, ← BitVec.toNat_inj, toNat_wrap, toNat_wrap]
  omega

/-- The candidate agrees with the lookahead for the length of its match, and the window holds both
(R111, R112; 41_window.md R95). -/
theorem bestRepeats_search {x : List Byte} {s : State} (h : s.Tracks x)
    (hi : s.Indexed (s.consumed x.length)) : (search s).bestRepeats x := by
  intro hne
  obtain ⟨-, -, hr⟩ := search_findsBest s
  obtain ⟨front, back, hchain, hlen, -⟩ :=
    hr.resolve_left fun h0 => hne (congrArg Prod.fst h0)
  replace hlen : s.matchLen (search s).bestAddr = (search s).bestLen := hlen
  have hmem : (search s).bestAddr ∈ s.chainFrom (s.keyOf s.dictHead.toNat) := by
    rw [hchain]
    simp
  obtain ⟨⟨d, hd⟩, -⟩ := (hi.mem_chainFrom_iff _ _).1 hmem
  obtain ⟨h1, h2, -⟩ := State.memberAt_iff.1 hd
  have haddr := State.memberAt_position h.cursor hd
  refine ⟨s.consumed x.length - d, ?_, ?_, haddr, fun j hj => ?_⟩
  · show _ < s.consumed x.length
    omega
  · show s.consumed x.length ≤ _
    omega
  · show x[s.consumed x.length + j]? = _
    have agree := s.matchLen_agrees (search s).bestAddr (i := j) (by rw [hlen]; exact hj)
    have hwait : (search s).bestLen.toNat ≤ s.waitingBytes.toNat := hlen ▸ s.matchLen_le _
    rw [haddr, slotAt_wrap, h.cursor, slotAt_wrap] at agree
    rw [h.holds (s.consumed x.length + j) (by omega) (by omega),
      h.holds (s.consumed x.length - d + j) (by omega) (by omega), Nat.add_right_comm _ j 1,
      Nat.add_right_comm _ j 1, ← agree, Nat.add_comm 1]

/-! ### What has been written replays to what has been consumed -/

/-- What has been written is whole entries, which replay to the first `n` bytes of the input. -/
def State.replaysTo (x : List Byte) (n : Nat) (s : State) : Prop :=
  ∃ es, (∀ e ∈ es, isData e) ∧ s.written = es.flatMap entryBits ∧
    Mirrors x n (mirrorRun es ([], 1, []))

/-- One more entry, and the bytes it stands for. -/
theorem State.replaysTo.entry {x : List Byte} {n k : Nat} {s t : State} (h : s.replaysTo x n)
    {e : Instr} (he : isData e) (hw : t.written = s.written ++ entryBits e)
    (hm : ∀ m, Mirrors x n m → Mirrors x (n + k) (mirrorRun [e] m)) : t.replaysTo x (n + k) := by
  obtain ⟨es, hes, hwritten, hmirror⟩ := h
  refine ⟨es ++ [e], ?_, by simp [hw, hwritten], ?_⟩
  · intro d hd
    rcases List.mem_append.1 hd with hd | hd
    · exact hes d hd
    · exact List.mem_singleton.1 hd ▸ he
  · rw [mirrorRun_append hes]
    exact hm _ hmirror

/-- What every move of an encode of `x` keeps, on top of its window and its index. -/
structure State.Replays (x : List Byte) (s : State) : Prop where
  /-- Between PRIME and DONE the entries replay to the bytes consumed and owed. -/
  entries : s.busy = true → s.phase ≠ .prime →
    s.replaysTo x (s.consumed x.length + s.remaining.toNat)
  /-- EMIT writes a match that repeats the input. -/
  best : s.phase = .emit → s.bestRepeats x
  /-- In DONE the stream inflates to the input. -/
  whole : s.phase = .done → inflate s.out = some x

theorem State.replays_of_fault {s : State} (h : s.phase = .fault) (x : List Byte) : s.Replays x :=
  ⟨fun hb => absurd hb (by rw [State.busy, h]; decide),
    fun hp => absurd (h.symm.trans hp) (by decide), fun hp => absurd (h.symm.trans hp) (by decide)⟩

/-- In the loop and in TERMINATE the entries are all there is to say. -/
theorem State.replays_of_entries {x : List Byte} {s : State}
    (h : s.replaysTo x (s.consumed x.length + s.remaining.toNat))
    (hp : s.phase ≠ .emit ∧ s.phase ≠ .done) : s.Replays x :=
  ⟨fun _ _ => h, fun he => absurd he hp.1, fun hd => absurd hd hp.2⟩

section
variable {x : List Byte} {s : State}

theorem replays_prime (h : s.Inv) (hp : s.phase = .prime) (hn : s.src.length = x.length) :
    State.Replays x { prime s with phase := (prime s).loopPhase } := by
  obtain ⟨-, -, hrem, -, hnbits, hout⟩ := h.contract_prime hp
  refine State.replays_of_entries ?_ ?_
  · have hrem' : (prime s).remaining = 0 := by rw [prime_frame]; exact hrem
    have hwritten : (prime s).written = [] := by
      rw [prime_frame]
      simp [State.written, hnbits, hout, bitsOfBytes]
    rw [consumed_prime hn]
    refine ⟨[], nofun, hwritten, ?_⟩
    show Mirrors x (0 + (prime s).remaining.toNat) _
    rw [hrem']
    exact mirrors_start x
  · rcases (prime s).loopPhase_cases with e | e <;> simp [e]

theorem replays_afterAdvance (h : s.Inv) (hp : s.phase = .maintain)
    (total : s.waitingBytes.toNat + s.src.length ≤ x.length) (hr : s.Replays x) :
    (afterAdvance (advance s)).Replays x := by
  have entries := hr.entries (by rw [State.busy, hp]) (by rw [hp]; decide)
  have hrem := dropRemaining_advance (h.contract_maintain hp).1
  have hsum : (afterAdvance (advance s)).consumed x.length +
      (afterAdvance (advance s)).remaining.toNat = s.consumed x.length + s.remaining.toNat := by
    rw [consumed_afterAdvance, consumed_advance (h.waiting_maintain hp) total,
      afterAdvance_remaining]
    omega
  refine State.replays_of_entries ?_ ?_
  · rw [hsum, State.replaysTo, written_afterAdvance]
    exact entries
  · rcases afterAdvance_phase (advance s) with e | e
    · rw [e]
      decide
    · rcases (advance s).dropRemaining.loopPhase_cases with e' | e' <;> rw [e, e'] <;> decide

/-- An entry that stands for the bytes then owed, or a refused byte of it (R116, R117). -/
theorem replays_emission (h : s.Inv) (hp : s.phase = .emit) (hr : s.Replays x) {e : Instr}
    (he : isData e) {k : Count}
    (hm : ∀ m, Mirrors x (s.consumed x.length) m →
      Mirrors x (s.consumed x.length + k.toNat) (mirrorRun [e] m)) :
    ((writeStream (entryBits e) s).andThen (owe k)).state.Replays x := by
  have entries := hr.entries (by rw [State.busy, hp]) (by rw [hp]; decide)
  rw [(h.contract_emit hp).2.1] at entries
  rcases writeStream_cases (entryBits e) s (h.clean (by rw [hp]; decide)) with
    ⟨t, ht, w⟩ | ⟨t, ht, w⟩ <;> rw [ht]
  · have consumed : t.consumed x.length = s.consumed x.length :=
      (OnlyWriter.andFault w.frame).onlyEmission.consumed _
    refine State.replays_of_entries (s := { t with remaining := k, phase := .maintain }) ?_
      ⟨nofun, nofun⟩
    show t.replaysTo x (t.consumed x.length + k.toNat)
    rw [consumed]
    exact entries.entry he w.written hm
  · exact State.replays_of_fault w.phase x

theorem replays_emitLiteral (h : s.Inv) (hp : s.phase = .emit) (tracks : s.Tracks x)
    (hr : s.Replays x) : (emitLiteral s).state.Replays x := by
  have hwait := toNat_ne_zero (h.contract_emit hp).1
  rw [emitLiteral, writeLiteral_eq]
  refine replays_emission h hp hr (.inl ⟨_, rfl⟩) fun m hm => hm.put ?_
  exact tracks.lookahead 0 (Nat.pos_of_ne_zero hwait)

theorem replays_emitMatch (h : s.Inv) (hp : s.phase = .emit) (hlen : ¬ s.bestLen < 3)
    (hr : s.Replays x) : (emitMatch s).state.Replays x := by
  have hmin : 3 ≤ s.bestLen.toNat := by
    rw [BitVec.lt_def] at hlen
    exact Nat.le_of_not_lt hlen
  have hne : s.bestLen ≠ 0 := fun h0 => hlen (by rw [h0]; decide)
  obtain ⟨q, hq, hle, haddr, repeats⟩ := hr.best hp hne
  obtain ⟨-, -, -, -, nonzero⟩ := h.contract_emit hp
  rw [emitMatch, if_neg hlen, writeLong_eq]
  refine replays_emission h hp hr (.inr ⟨_, _, nonzero hne, rfl⟩) fun m hm => ?_
  show Mirrors x _ (mirrorCopy s.bestAddr (trueLength (lenFieldOf s.bestLen)) 0 m)
  rw [trueLength_lenFieldOf hmin h.ranges.2.1]
  exact hm.copy hq hle (by rw [haddr, slotAt_wrap]) repeats

/-- The terminator and FINISH complete a stream that inflates to the input, or a byte is refused
(R119). -/
theorem replays_terminated (h : s.Inv) (hp : s.phase = .terminate) (hr : s.Replays x) :
    (terminated s).state.Replays x := by
  obtain ⟨hwait, hrem, hsrc⟩ := h.contract_terminate hp
  obtain ⟨es, hes, hwritten, hmirror⟩ := hr.entries (by rw [State.busy, hp]) (by rw [hp]; decide)
  have hall : s.consumed x.length + s.remaining.toNat = x.length := by
    simp [State.consumed, hwait, hrem, hsrc]
  rw [terminated, writeLong_eq]
  rcases writeStream_cases (matchBits 0 0) s (h.clean (by rw [hp]; decide)) with
    ⟨t, ht, w⟩ | ⟨t, ht, w⟩ <;> rw [ht]
  · rw [Flow.andThen_completed]
    cases hu : flush t with
    | completed u =>
      obtain ⟨pad, -, hbits⟩ := flush_pads w.clean hu
      rw [w.written, hwritten] at hbits
      refine ⟨nofun, nofun, fun _ => ?_⟩
      show inflate u.out = some x
      rw [inflate_of_bits hes hbits, hmirror.out, hall, List.take_length]
    | abandoned u => exact State.replays_of_fault (flush_abandoned hu).1 x
  · exact State.replays_of_fault w.phase x

end

/-- Every move of an encode of `x` keeps what its stream replays to. -/
theorem Moves.replays {x : List Byte} {s t : State} (m : Moves s t) (h : s.Inv)
    (tracks : s.Tracks x) (hi : s.Indexed (s.consumed x.length)) (hr : s.Replays x)
    (hb : s.busy = true) : t.Replays x := by
  cases m with
  | rest => exact hr
  | start hb' => exact absurd (hb.symm.trans hb') (by decide)
  | awaitPull => exact ⟨hr.entries, hr.best, hr.whole⟩
  | awaitPush => exact ⟨hr.entries, hr.best, hr.whole⟩
  | prime hp => exact replays_prime h hp (tracks.begins hp)
  | search hp =>
    exact ⟨fun _ _ => hr.entries hb (by rw [hp]; decide),
      fun _ => bestRepeats_search tracks hi, nofun⟩
  | emitLit hp => exact replays_emitLiteral h hp tracks hr
  | emitMatch hp hlen => exact replays_emitMatch h hp hlen hr
  | maintain hp => exact replays_afterAdvance h hp tracks.total hr
  | terminate hp => exact replays_terminated h hp hr

/-! ### The round trip -/

/-- What holds all along an encode of `x`. -/
structure State.Encoding (x : List Byte) (s : State) : Prop where
  tracks : s.Tracks x
  indexed : s.Indexed (s.consumed x.length)
  replays : s.Replays x

theorem State.tracks_started (x : List Byte) (cap : Option Nat) (s : State)
    (none : (s.started x cap).consumed x.length = 0) : (s.started x cap).Tracks x where
  total := (Nat.zero_add _).le
  begins _ := rfl
  rest := by rw [none]; rfl
  cursor := by rw [none]; rfl
  lookahead := nofun
  past d h1 hd := by
    rw [none] at hd
    omega

theorem State.encoding_started (x : List Byte) (cap : Option Nat) (s : State) :
    (s.started x cap).Encoding x := by
  have none : (s.started x cap).consumed x.length = 0 := by
    show x.length - (0 + x.length) = 0
    omega
  refine ⟨s.tracks_started x cap none, ?_, fun _ hp => absurd rfl hp, nofun, nofun⟩
  rw [none]
  exact State.indexed_zero_iff.2 ⟨fun _ => rfl, fun _ => rfl⟩

theorem State.Encoding.nextInput {x : List Byte} {s : State} (h : s.Encoding x) :
    s.nextInput.Encoding x := by
  obtain ⟨tracks, hi, hr⟩ := h
  exact ⟨tracks.congr rfl rfl rfl rfl id, ⟨hi.heads, hi.links, hi.backs, hi.fresh⟩,
    hr.entries, hr.best, hr.whole⟩

theorem Moves.encoding {x : List Byte} {s t : State} (m : Moves s t) (h : s.Inv)
    (he : s.Encoding x) (hb : s.busy = true) : t.Encoding x := by
  obtain ⟨tracks, hi, hr⟩ := he
  exact ⟨m.tracks h tracks hb, m.indexed h tracks.total tracks.begins hi hb,
    m.replays h tracks hi hr hb⟩

/-- Settles O48: the entries of an encode replay to the bytes consumed and owed, from START to the
terminator. -/
theorem decodingAFinishedRunGivesTheInputBack :
    Obligations.DecodingAFinishedRunGivesTheInputBack := by
  intro x cap s t k h hk hrun hdone
  obtain ⟨j, r⟩ := h.run hk (run_eq_next_iff.1 hrun)
  have encoding : t.Encoding x :=
    h.running.run_induction (fun _ he => he.nextInput)
      (fun _ _ hr hb m he => m.encoding hr.inv he hb) (s.encoding_started x cap) r
  exact encoding.replays.whole hdone

end Sys2Proof.Machine
end

section
/-! PROOFS. The result of an encode depends on its input and capacity alone (43_encoder.md R121,
10_state.md R34): no operation reads the ports, the last answer or the count of free values. -/

namespace Sys2Proof.Machine

/-- The state with the ports, the port values to come, the last answer and the count of free values
blanked: what an encode goes on. -/
def State.bare (s : State) : State :=
  { s with
    srcReq := false, snkReq := false, snkByte := 0, inputs := [], result := .none, freeIndex := 0 }

@[simp] theorem State.bare_bare (s : State) : s.bare.bare = s.bare := rfl

/-! ### The operations of the window and the index -/

theorem removeAt_bare (s : State) (k : Key) (a : Addr) :
    s.bare.removeAt k a = (s.removeAt k a).bare := by
  rcases s.removeAt_cases k a with ⟨hp, h⟩ | ⟨hp, hk, h⟩ | ⟨hp, hk, h⟩ <;> rw [h]
  · exact State.removeAt_of_prev (s := s.bare) hp k
  · exact State.removeAt_of_bucket (s := s.bare) hp hk
  · exact State.removeAt_of_unlinked (s := s.bare) hp hk

theorem insertAt_bare (s : State) (k : Key) (a : Addr) :
    s.bare.insertAt k a = (s.insertAt k a).bare := by
  by_cases h : s.readHash k = Config.null
  · have h' : s.bare.readHash k = Config.null := h
    simp only [State.insertAt, if_pos h, if_pos h']
    rfl
  · have h' : ¬ s.bare.readHash k = Config.null := h
    simp only [State.insertAt, if_neg h, if_neg h']
    rfl

theorem evict_bare (s : State) : s.bare.evict = s.evict.bare := by
  unfold State.evict
  by_cases h0 : s.evicted = Config.null
  · rw [if_pos h0, if_pos (by exact h0)]
  · rw [if_neg h0, if_neg (by exact h0)]
    exact removeAt_bare s _ _

theorem passCursor_bare (s : State) : s.bare.passCursor = s.passCursor.bare := by
  have moved : ∀ {t u : State}, t = u.bare →
      { t with dictHead := slotAt s.dictHead 1 } =
        State.bare { u with dictHead := slotAt s.dictHead 1 } := by
    rintro t u rfl
    rfl
  unfold State.passCursor
  by_cases h0 : s.dictHead = Config.null
  · rw [if_pos h0, if_pos (by exact h0)]
    exact moved rfl
  · rw [if_neg h0, if_neg (by exact h0)]
    exact moved (insertAt_bare s _ _)

theorem pull_bare (s : State) : pull s.bare = ((pull s).1, (pull s).2.bare) := by
  rcases pull_cases s with ⟨hs, h⟩ | ⟨b, rest, hs, h⟩ <;> rw [h]
  · simp [pull, State.bare, hs]
  · simp [pull, State.bare, hs]

theorem primeLoop_bare (k i : Nat) (s : State) :
    primeLoop k i s.bare = ((primeLoop k i s).1, (primeLoop k i s).2.bare) := by
  induction k generalizing i s with
  | zero => rfl
  | succ k ih =>
    rw [primeLoop, primeLoop, pull_bare]
    rcases pull_cases s with ⟨-, h⟩ | ⟨b, rest, -, h⟩ <;> rw [h]
    exact ih (i + 1) (State.writeW { s with srcReq := false, src := rest } (slotAt s.dictHead i) b)

theorem prime_bare (s : State) : prime s.bare = (prime s).bare := by
  rw [prime, primeLoop_bare]
  rfl

theorem State.dropWaiting_of_ne {s : State} (h : s.waitingBytes ≠ 0) :
    s.dropWaiting = { s with waitingBytes := s.waitingBytes - 1 } := by
  simp only [State.dropWaiting, countedDown, if_neg h]

theorem dropWaiting_bare {s : State} (h : s.waitingBytes ≠ 0) :
    s.bare.dropWaiting = s.dropWaiting.bare := by
  rw [State.dropWaiting_of_ne h, State.dropWaiting_of_ne (s := s.bare) h]
  rfl

/-- ADVANCE reads no free value while there is a lookahead (R92). -/
theorem advance_bare {s : State} (hw : s.waitingBytes ≠ 0) : advance s.bare = (advance s).bare := by
  have slot : s.bare.evicted = s.evicted := rfl
  rw [advance, advance, evict_bare, pull_bare, slot]
  rcases pull_cases s.evict with ⟨-, h⟩ | ⟨b, rest, -, h⟩ <;> rw [h]
  · have kept : (State.passCursor { s.evict with srcReq := false }).waitingBytes ≠ 0 := by
      rw [State.passCursor_frame, s.evict_frame]
      exact hw
    rw [← dropWaiting_bare kept, ← passCursor_bare]
  · exact passCursor_bare (State.writeW { s.evict with srcReq := false, src := rest } s.evicted b)

/-- Counting down what is owed reads no free value while something is (R118). -/
theorem afterAdvance_bare {s : State} (h : s.remaining ≠ 0) :
    afterAdvance s.bare = (afterAdvance s).bare := by
  rw [afterAdvance_of_ne h, afterAdvance_of_ne (s := s.bare) h]
  rfl

theorem prefixFrom_bare (s : State) (c : Addr) (k i : Nat) :
    prefixFrom s.bare c k i = prefixFrom s c k i := by
  induction k generalizing i with
  | zero => rfl
  | succ k ih =>
    rw [prefixFrom, prefixFrom, ih]
    rfl

theorem matchLen_bare (s : State) (c : Addr) : s.bare.matchLen c = s.matchLen c :=
  congrArg (BitVec.ofNat 5) (prefixFrom_bare s c s.waitingBytes.toNat 0)

theorem scanFrom_bare (s : State) (fuel : Nat) (c : Addr) (best : Count × Addr) :
    scanFrom s.bare fuel c best = scanFrom s fuel c best := by
  induction fuel generalizing c best with
  | zero => rfl
  | succ fuel ih =>
    simp only [scanFrom, matchLen_bare, ih]
    rfl

theorem search_bare (s : State) : search s.bare = (search s).bare := by
  simp only [search, scanFrom_bare]
  rfl

/-! ### The operations that write bits -/

/-- The state an operation leaves, blanked, completed or abandoned. -/
def Flow.bare : Flow → Flow
  | .completed s => .completed s.bare
  | .abandoned s => .abandoned s.bare

theorem Flow.state_bare (f : Flow) : f.bare.state = f.state.bare := by
  cases f <;> rfl

/-- An operation that does not read what is blanked. -/
def Blind (k : State → Flow) : Prop :=
  ∀ s, (k s.bare).bare = (k s).bare

theorem Blind.completed {k : State → State} (h : ∀ s, (k s.bare).bare = (k s).bare) :
    Blind fun s => .completed (k s) :=
  fun s => congrArg Flow.completed (h s)

theorem Blind.andThen {k l : State → Flow} (hk : Blind k) (hl : Blind l) :
    Blind fun s => (k s).andThen l := by
  have next : ∀ f g : Flow, f.bare = g.bare → (f.andThen l).bare = (g.andThen l).bare := by
    intro f g hfg
    match f, g with
    | .completed s, .completed t =>
      have hst : s.bare = t.bare := Flow.completed.inj hfg
      show (l s).bare = (l t).bare
      rw [← hl s, ← hl t, hst]
    | .abandoned s, .abandoned t => exact hfg
    | .completed s, .abandoned t => cases hfg
    | .abandoned s, .completed t => cases hfg
  exact fun s => next _ _ (hk s)

theorem push_blind (b : Byte) : Blind (push b) := by
  intro s
  cases hr : s.sinkRefuses with
  | true =>
    have hr' : s.bare.sinkRefuses = true := hr
    simp only [push, hr, hr', if_true]
    rfl
  | false =>
    have hr' : s.bare.sinkRefuses = false := hr
    simp only [push, hr, hr', Bool.false_eq_true, if_false]
    rfl

/-- The BitWriter emptied after a push. -/
theorem cleared_blind : Blind fun s => .completed { s with acc := 0, nbits := 0 } :=
  Blind.completed (k := fun s => { s with acc := 0, nbits := 0 }) fun _ => rfl

theorem writeBit_blind (b : Bool) : Blind (writeBit b) := by
  intro s
  by_cases hn : s.nbits = 7
  · have hn' : s.bare.nbits = 7 := hn
    simp only [writeBit, if_pos hn, if_pos hn']
    exact (push_blind _).andThen cleared_blind { s with acc := s.acc ||| bitBelow b s.nbits }
  · have hn' : ¬ s.bare.nbits = 7 := hn
    simp only [writeBit, if_neg hn, if_neg hn']
    rfl

theorem writeStream_blind (bs : List Bool) : Blind (writeStream bs) := by
  induction bs with
  | nil => exact fun _ => rfl
  | cons b bs ih => exact (writeBit_blind b).andThen ih

theorem flush_blind : Blind flush := by
  intro s
  by_cases hn : s.nbits = 0
  · have hn' : s.bare.nbits = 0 := hn
    simp only [flush, if_pos hn, if_pos hn']
    rfl
  · have hn' : ¬ s.bare.nbits = 0 := hn
    simp only [flush, if_neg hn, if_neg hn']
    exact (push_blind s.acc).andThen cleared_blind s

theorem owe_blind (n : Count) : Blind (owe n) :=
  Blind.completed (k := fun s => { s with remaining := n, phase := .maintain }) fun _ => rfl

theorem terminated_blind : Blind terminated := by
  have written : Blind (writeLong 0 0) := by
    rw [funext (writeLong_eq 0 0)]
    exact writeStream_blind _
  exact (written.andThen flush_blind).andThen
    (Blind.completed (k := fun s => { s with phase := .done }) fun _ => rfl)

theorem emission_blind (bs : List Bool) (n : Count) (s : State) :
    ((writeStream bs s.bare).andThen (owe n)).state.bare =
      ((writeStream bs s).andThen (owe n)).state.bare := by
  rw [← Flow.state_bare, ← Flow.state_bare]
  exact congrArg Flow.state ((writeStream_blind bs).andThen (owe_blind n) s)

/-! ### The step, and runs -/

/-- What a phase performs does not depend on what is blanked. -/
theorem performed_bare {s : State} (h : s.Inv) : s.bare.performed.bare = s.performed.bare := by
  cases hb : s.busy with
  | false =>
    rw [performed_quiescent hb, performed_quiescent (s := s.bare) hb, State.bare_bare]
  | true =>
    rcases State.busy_cases hb with hp | hp | hp | hp | hp
    · rw [performed_prime hp, performed_prime (s := s.bare) hp, prime_bare]
      rfl
    · rw [performed_search hp, performed_search (s := s.bare) hp, search_bare, State.bare_bare]
    · by_cases hlen : s.bestLen < 3
      · rw [performed_emitLit hp hlen, performed_emitLit (s := s.bare) hp hlen, emitLiteral,
          emitLiteral, writeLiteral_eq, writeLiteral_eq]
        exact emission_blind _ _ s
      · rw [performed_emitMatch hp hlen, performed_emitMatch (s := s.bare) hp hlen, emitMatch,
          emitMatch, if_neg hlen, if_neg (by exact hlen), writeLong_eq, writeLong_eq]
        exact emission_blind _ _ s
    · have hkept : (advance s).remaining = s.remaining := by rw [advance_onlyDictionary s]
      obtain ⟨hrem, -⟩ := h.contract_maintain hp
      rw [performed_maintain hp, performed_maintain (s := s.bare) hp,
        advance_bare (h.waiting_maintain hp), afterAdvance_bare (hkept ▸ hrem), State.bare_bare]
    · rw [performed_terminate hp, performed_terminate (s := s.bare) hp, ← Flow.state_bare,
        ← Flow.state_bare, terminated_blind s]

/-- The next row of the sequencer table, on blanked states. -/
def State.onward (s : State) : State :=
  s.performed.bare

/-- A step of an encode leaves the blanked state, when it waits or rests, or takes it one row
onward. -/
theorem State.Running.step_bare {s t : State} (h : s.Running) (hstep : step s = .next t) :
    t.bare = s.bare ∨ t.bare = s.bare.onward := by
  cases hb : s.busy with
  | false =>
    cases (step_of_quiescent h.inv.noIssue h.asksNothing hb).symm.trans hstep
    exact .inl rfl
  | true =>
    rcases step_busy_cases h.inv.noIssue h.asksNothing.1 hb with ⟨-, -, e⟩ | ⟨-, -, b, e⟩ | e <;>
      cases e.symm.trans hstep
    · exact .inl rfl
    · exact .inl rfl
    · exact .inr (performed_bare h.inv.nextInput).symm

theorem State.Running.run_bare {s t : State} {k : Nat} (h : s.Running) (r : StepsTo k s t) :
    ∃ j, t.bare = State.onward^[j] s.bare := by
  induction r with
  | refl => exact ⟨0, rfl⟩
  | head hstep _ ih =>
    obtain ⟨j, hj⟩ := ih (h.stepped hstep)
    rcases h.step_bare hstep with e | e <;> rw [e] at hj
    · exact ⟨j, hj⟩
    · exact ⟨j + 1, hj⟩

theorem onward_bare_of_ended {s : State} (h : s.phase = .done ∨ s.phase = .fault) :
    s.bare.onward = s.bare := by
  rw [State.onward, performed_quiescent (s := s.bare) (State.busy_eq_false_iff.2 (.inr h)),
    State.bare_bare]

/-- Going on from the same state, what has ended first is where the other ends. -/
theorem eq_of_ended {f : State → State} {v s t : State} {j k : Nat} (hle : j ≤ k)
    (hs : s = f^[j] v) (ht : t = f^[k] v) (ended : f s = s) : s = t := by
  rw [ht, ← Nat.sub_add_cancel hle, Function.iterate_add_apply, ← hs,
    Function.iterate_fixed ended]

/-- START leaves nothing of the block's past but what is blanked (R34, R110). -/
theorem started_bare {x : List Byte} {cap : Option Nat} {s t : State} (hs : s.issue = none)
    (ht : t.issue = none) : (s.started x cap).bare = (t.started x cap).bare := by
  simp [State.started, construct, State.bare, State.nextInput, hs, ht]

/-- Settles O49: from the same blanked state both runs go the same way onward, and one that has
ended goes no further. -/
theorem resultDependsOnInputAndCapacityAlone :
    Obligations.ResultDependsOnInputAndCapacityAlone := by
  intro x cap s s' t t' k k' h h' hk hk' hrun hrun' hend hend'
  obtain ⟨j, r⟩ := h.run hk (run_eq_next_iff.1 hrun)
  obtain ⟨j', r'⟩ := h'.run hk' (run_eq_next_iff.1 hrun')
  obtain ⟨n, hn⟩ := h.running.run_bare r
  obtain ⟨n', hn'⟩ := h'.running.run_bare r'
  rw [started_bare h'.inv.noIssue h.inv.noIssue] at hn'
  have same : t.bare = t'.bare := by
    rcases Nat.le_total n n' with hle | hle
    · exact eq_of_ended hle hn hn' (onward_bare_of_ended hend)
    · exact (eq_of_ended hle hn' hn (onward_bare_of_ended hend')).symm
  have reads : t.bare.phase = t'.bare.phase ∧ t.bare.out = t'.bare.out ∧
      t.bare.outLen = t'.bare.outLen := by
    rw [same]
    exact ⟨rfl, rfl, rfl⟩
  exact reads

end Sys2Proof.Machine
end

section
/-! PROOFS. No instruction with operands of its domain stops the block (60_exceptions.md R131), and what
a step does while a port withholds its answer (R140, 20_memory.md R53). -/

namespace Sys2Proof.Machine

/-! ### Well-formed instructions complete -/

/-- Only the four meanings with an operand domain have a refusing branch, and `wf` is its guard (log 17). -/
theorem exec_completes_of_wf {i : Instr} (hwf : i.wf = true) (s : State) :
    ∃ t, exec i s = .next t := by
  cases i
  case matchEntry addr lenm3 => exact ⟨_, if_neg (bne_iff_ne.1 hwf)⟩
  case insert key addr => exact ⟨_, exec_insert (bne_iff_ne.1 hwf) key s⟩
  case remove key addr => exact ⟨_, exec_remove (bne_iff_ne.1 hwf) key s⟩
  case writeBits n value => exact ⟨_, exec_writeBits (of_decide_eq_true hwf) value s⟩
  case start =>
    cases hb : s.busy with
    | true => exact ⟨s, if_neg (by rw [State.acceptsStart, hb]; decide)⟩
    | false => exact ⟨_, exec_start_of_quiescent hb⟩
  all_goals exact ⟨_, rfl⟩

/-- No instruction changes the sink's capacity, the port values to come or the issue slot (10_state.md
R37; log 2). -/
theorem exec_environment {i : Instr} {s t : State} (h : exec i s = .next t) :
    t.outCap = s.outCap ∧ t.inputs = s.inputs ∧ t.issue = s.issue := by
  obtain ⟨-, -, -, -, -, -, -, -, -, kept⟩ := eachRegisterIsWrittenOnlyByItsOperations i s t h
  exact kept

/-- Settles O6: the operand conditions exclude every refusal, and the environment is in no
instruction's frame. -/
theorem everyWellFormedInstructionCompletes : Obligations.EveryWellFormedInstructionCompletes := by
  intro i s hwf
  obtain ⟨t, ht⟩ := exec_completes_of_wf hwf s
  obtain ⟨hcap, hinputs, hissue⟩ := exec_environment ht
  exact ⟨t, ht, hinputs, hissue, hcap⟩

/-! ### The first byte an operation pushes -/

theorem out_prefix_writeBit (b : Bool) (s : State) : s.out <+: (writeBit b s).state.out := by
  rcases writeBit_cases b s with ⟨-, e⟩ | ⟨-, -, e⟩ | ⟨-, -, e⟩ <;> rw [e]
  · exact List.prefix_rfl
  · exact List.prefix_append _ _
  · exact List.prefix_rfl

/-- Bits only append to the output, also where a byte of them is refused. -/
theorem out_prefix_writeStream (bs : List Bool) (s : State) :
    s.out <+: (writeStream bs s).state.out := by
  induction bs generalizing s with
  | nil => exact List.prefix_rfl
  | cons b bs ih =>
    have first := out_prefix_writeBit b s
    rw [writeStream]
    cases e : writeBit b s with
    | completed t => rw [e] at first; exact first.trans (ih t)
    | abandoned t => rwa [e] at first

/-- Where nothing is refused, bits that complete a byte push one. -/
theorem exists_first_pushed {bs : List Bool} {s : State} (hcap : s.outCap = none)
    (h : 8 ≤ s.nbits.toNat + bs.length) :
    ∃ c more, (writeStream bs s).state.out = s.out ++ c :: more := by
  induction bs generalizing s with
  | nil =>
    have := s.nbits.isLt
    rw [List.length_nil] at h
    omega
  | cons b bs ih =>
    rw [writeStream]
    rcases writeBit_cases b s with ⟨hn, e⟩ | ⟨-, -, e⟩ | ⟨-, hr, -⟩
    · rw [e, Flow.andThen_completed]
      refine ih (s := { s with acc := s.acc ||| bitBelow b s.nbits, nbits := s.nbits + 1 }) hcap ?_
      rw [s.toNat_nbits_succ hn]
      rw [List.length_cons] at h
      omega
    · rw [e, Flow.andThen_completed]
      obtain ⟨more, hmore⟩ := out_prefix_writeStream bs _
      exact ⟨_, more, hmore.symm.trans (List.append_assoc _ _ _)⟩
    · exact absurd hcap (State.capped_of_refuses hr)

/-- Noting what is owed pushes nothing. -/
theorem out_andThen_owe (f : Flow) (n : Count) : (f.andThen (owe n)).state.out = f.state.out := by
  cases f <;> rfl

/-- The operations of EMIT and TERMINATE write at least 9 bits, so they push (20_memory.md R53). -/
theorem exec_pushes_of_sequenced {s t : State} {i : Instr} (hi : s.sequenced = some i)
    (hp : s.phase = .emit ∨ s.phase = .terminate) (hcap : s.outCap = none)
    (h : exec i s = .next t) : ∃ c more, t.out = s.out ++ c :: more := by
  rcases State.sequenced_cases hi with ⟨hq, rfl⟩ | ⟨hq, rfl⟩ | ⟨-, -, rfl⟩ | ⟨-, hl, rfl⟩ |
    ⟨hq, rfl⟩ | ⟨-, rfl⟩
  · simp [hq] at hp
  · simp [hq] at hp
  · cases (exec_emitLit s).symm.trans h
    rw [out_andThen_owe]
    exact exists_first_pushed hcap (by rw [List.length_cons, length_byteBits]; omega)
  · cases (exec_emitMatch (BitVec.not_lt.1 hl)).symm.trans h
    rw [out_andThen_owe]
    exact exists_first_pushed hcap (by rw [length_matchBits]; omega)
  · simp [hq] at hp
  · cases (exec_emitTerm s).symm.trans h
    exact exists_first_pushed hcap (by rw [List.length_replicate]; omega)

/-- `snk_byte` shows the byte that the operation, performed without a capacity, pushes first. -/
theorem State.firstPushed_eq {s t : State} {i : Instr} {c : Byte} {more : List Byte}
    (h : exec i { s with outCap := none } = .next t) (hout : t.out = s.out ++ c :: more) :
    s.firstPushed i = c := by
  rw [State.firstPushed, h]
  simp [hout]

/-! ### Withheld answers -/

/-- `step_of_snkHold` with its byte named: a phase whose push is not answered shows what it will push
first. -/
theorem step_of_snkHold_shows {s : State} {i : Instr} (hissue : s.issue = none)
    (hreset : s.input.reset = false) (hi : s.sequenced = some i)
    (hp : s.phase = .emit ∨ s.phase = .terminate) (hold : s.input.snkHold = true) :
    step s = .next { s.nextInput with snkReq := true, snkByte := s.nextInput.firstPushed i } := by
  obtain ⟨pulls, pushes⟩ := State.uses_ports (s := s.nextInput) hi
  have hpull : performsPull i = false := by
    rw [← Bool.not_eq_true, pulls]
    rcases hp with hp | hp <;> simp [hp]
  exact step_of_waiting hissue hreset hi (by simp [State.waiting, hpull, pushes.2 hp, hold])

/-- Settles O36: the request is all that a waiting step changes, and the byte shown is the first that
the phase's operation pushes. -/
theorem withheldAnswerOnlyRaisesTheRequest : Obligations.WithheldAnswerOnlyRaisesTheRequest := by
  intro s hissue hreset u
  refine ⟨fun hp hold => step_of_srcHold hissue hreset hp hold, fun i hi hp hold =>
    ⟨_, step_of_snkHold_shows hissue hreset hi hp hold, fun t ht => ?_⟩⟩
  obtain ⟨c, more, hout⟩ := exec_pushes_of_sequenced (s := { u with outCap := none }) hi hp rfl ht
  rw [State.firstPushed_eq (s := s.nextInput) ht hout]
  exact ⟨more, hout⟩

end Sys2Proof.Machine
end

section
/-! PROOFS. Reset: the step of an asserted reset, and the state after power-on (70_reset_and_hazards.md
R150; 60_exceptions.md R134). -/

namespace Sys2Proof.Machine

/-- `reset` comes before a presented word and before the sequencer (R134). -/
theorem step_of_reset {s : State} (hreset : s.input.reset = true) :
    step s = .next (powerOn s.nextInput) := by
  simp [step, oneStep, hreset]

/-- The values R150 gives, and the status outputs read off them. -/
theorem powerOn_quiet (s : State) :
    (powerOn s).phase = .idle ∧ (powerOn s).faultCode = 0 ∧ (powerOn s).srcReq = false ∧
      (powerOn s).snkReq = false ∧ (powerOn s).busy = false ∧ (powerOn s).done = false ∧
      (powerOn s).fault = false :=
  ⟨rfl, rfl, rfl, rfl, rfl, rfl, rfl⟩

/-- An asserted reset leaves the state after power-on as it is. -/
theorem powerOn_reset : powerOn State.reset = State.reset := rfl

/-- Settles O35: an asserted reset powers the block on, whatever else the state and the ports hold. -/
theorem resetWinsOverEverything : Obligations.ResetWinsOverEverything :=
  fun s hreset => ⟨powerOn s.nextInput, step_of_reset hreset, powerOn_quiet s.nextInput⟩

/-- Settles O39: the state after power-on is one that an asserted reset leads to, and every such
state meets the invariant. -/
theorem resetMeetsTheInvariant : Obligations.ResetMeetsTheInvariant := by
  unfold Obligations.ResetMeetsTheInvariant
  rw [← powerOn_reset]
  exact State.Inv.powerOn State.reset

end Sys2Proof.Machine
end
